-- ==== Sys2Proof/Word.lean ====
section
/-! DEFINITION. The word types of FFG2 (00_scope.md R11, R12): a word is 32 bits, a symbol is made of bytes. -/

namespace Sys2Proof

/-- A port word (00_scope.md R11). -/
abbrev Word := BitVec 32

/-- One byte of a symbol (00_scope.md R12). -/
abbrev Byte := BitVec 8

end Sys2Proof
end

