-- ==== Sys2Proof/Config.lean ====
section
/-! DEFINITION. What is fixed for one FFG2 instance when it is built (00_scope.md R8): the record of the build parameters,
the instance with the spec's defaults, and the values the spec leaves open, as constants without a body. -/

namespace Sys2Proof

/-- One row of the cumulative degree table: the breakpoint `DEG_F[j]` and the degree `DEG_D[j]` (41_sampler.md R78). -/
structure DegRow where
  breakpoint : Nat
  degree : Nat
deriving DecidableEq, Repr

/-- The build parameters of one instance (00_scope.md R8, 93_implementation_defined.md U1 to U4), plain data.
`DEG_F[0] = 0` is not a row: no draw selects it. -/
structure Params where
  /-- `K_MIN`. -/
  kMin : Nat
  /-- `K_MAX`. -/
  kMax : Nat
  /-- `L_MAX`. -/
  lMax : Nat
  /-- `SYM_MAX`. -/
  symMax : Nat
  /-- `ESI_BOUND`. -/
  esiBound : Nat
  /-- `DEG_F[1..7]` and `DEG_D[1..7]` (41_sampler.md R78). -/
  degTable : List DegRow
  /-- Which function `IDXGEN` is: the number of a generator, `Config.idxgen` of it being the function (log 3). -/
  generator : Nat
  /-- `BASE`, the byte address of the register window in the host's address space (20_memory.md R41, log 4). -/
  base : Nat
deriving DecidableEq, Repr

/-- An answer `(d, I)` of the Symbol Index Generator (41_sampler.md R84). -/
structure IdxAnswer where
  degree : Nat
  indices : List Nat
deriving DecidableEq, Repr, Inhabited

/-- The type of `IDXGEN`: `(K, L, esi) -> (d, I)`, total (41_sampler.md R84). -/
abbrev IdxGen := Nat → Nat → Nat → IdxAnswer

namespace Config

/-- The greatest `L_MAX` that 00_scope.md R9 admits: the width of a row in every instance. -/
abbrev lCap : Nat := 2048
/-- The greatest `SYM_MAX` that 00_scope.md R9 admits: the bytes of a symbol's store in every instance. -/
abbrev symCap : Nat := 4096

/-- `BASE` of the default instance (20_memory.md R41).
DESIGN CHOICE: open, a constant without a body; no rule of the block depends on it; safe (log 4). -/
opaque defaultBase : Nat

/-- The default instance (00_scope.md R8, 92_eei_decisions.md D4, D5, D6).
DESIGN CHOICE: `State.reset` is that of this instance; the step and the statements are of every instance (log 1).
PRESUMED: the degree table is the default of 41_sampler.md R78, general knowledge of RFC 5053 and audited against no
source; unsafe for a claim about its values (log 2). -/
def params : Params where
  kMin := 4
  kMax := 256
  lMax := 512
  symMax := 2048
  esiBound := 65536
  degTable := [⟨10241, 1⟩, ⟨491582, 2⟩, ⟨712794, 3⟩, ⟨831695, 4⟩, ⟨948446, 10⟩, ⟨1032189, 11⟩, ⟨1048576, 40⟩]
  generator := 0
  base := defaultBase

/-- The Symbol Index Generators, by their number (41_sampler.md R84, R86).
DESIGN CHOICE: a constant without a body, so that a claim holds for every generator; safe (log 3). -/
opaque idxgen : Nat → IdxGen

/-- What word `w` of `DIN` holds after hardware reset number `n`, until the host writes it (10_state.md R36).
DESIGN CHOICE: a free value for each reset number and word, the same in two instances; unsafe only for a claim that
compares the buffers of two instances or runs after resets of one number (log 7). -/
opaque dinAtReset : Nat → Nat → Word

/-- What word `w` of `ROWBUF` holds after hardware reset number `n`, until the host writes it (10_state.md R36).
DESIGN CHOICE: a free value for each reset number and word, the same in two instances; unsafe only for a claim that
compares the buffers of two instances or runs after resets of one number (log 7). -/
opaque rowbufAtReset : Nat → Nat → Word

end Config

end Sys2Proof
end

