-- ==== Sys2Proof/Syntax.lean ====
section
/-! DEFINITION. The syntax of FFG2: the 14 commands (30_encoding.md R58), the events a host can cause at the block's
boundary (20_memory.md R41, 70_reset_and_hazards.md R130), and the script notation (30_encoding.md R62 to R64). -/

namespace Sys2Proof

/-- The 14 commands (30_encoding.md R58). A command word carries no operand (R57): operands are the registers
`ARG0..2` and the buffers `ROWBUF` and `DIN`. -/
inductive Instr where
  | nop
  | cfg
  | abort
  | endStream
  | sreset
  | sample
  | cmbclr
  | cmbdin
  | cmbsym
  | ldsol
  | encode
  | insrow
  | insesi
  | backsub
deriving DecidableEq, Repr

/-- Why a command word is illegal (30_encoding.md R60). -/
inductive IllegalWord where
  /-- `w[31:8]` is not zero. -/
  | zeroField
  /-- `w[7:0]` is none of the 14 opcodes. -/
  | opcode
deriving DecidableEq, Repr

/-- What the host can do at the block's boundary: the two port transactions, with a byte offset from `BASE` and a size
in bytes (20_memory.md R41, R45; log 19), and hardware reset (70_reset_and_hazards.md R130; log 8). -/
inductive HostEvent where
  | memRead (addr size : Nat)
  | memWrite (addr size : Nat) (data : Word)
  | hardReset
deriving DecidableEq, Repr

/-- The cells of the register window (20_memory.md R42); `w` is a word index. -/
inductive Cell where
  | cmd
  | status
  | rank
  | err
  | esticky
  | einfo0
  | einfo1
  | result
  | arg0
  | arg1
  | arg2
  | kreg
  | lreg
  | treg
  | rowbuf (w : Nat)
  | recmap (w : Nat)
  | din (w : Nat)
  | dout (w : Nat)
deriving DecidableEq, Repr

/-- A line of the script notation: the 14 commands with their operands (30_encoding.md R62) and the pseudo-commands
(30_encoding.md R64). -/
inductive ScriptLine where
  | nop
  | cfg (k l t : Word)
  | abort
  | endStream
  | sreset
  | sample (k randomValue : Word)
  | cmbclr
  | cmbdin (len : Word)
  | cmbsym (idx : Word)
  | ldsol (idx : Word)
  | encode (esi : Word)
  | insrow (len : Word)
  | insesi (esi len : Word)
  | backsub
  | loadsym (bytes : List Byte)
  | loadrow (columns : List Nat)
  | recv (esi : Word) (bytes : List Byte)
  | row (columns : List Nat) (bytes : List Byte)
  /-- `n` is the number of bytes to read, the `T` of the transfer. -/
  | readsym (n : Nat)
  | getsym (idx : Word) (n : Nat)
  /-- The read of `EXPECT reg = v`; comparing the value is the host's (log 21). -/
  | expect (cell : Cell)
deriving DecidableEq, Repr

end Sys2Proof
end

