-- ==== Sys2Proof/WellFormed.lean ====
section
/-! DEFINITION. Well-formedness of what Syntax and Config hold: the build parameters (00_scope.md R9, 41_sampler.md
R78), a command, a port transaction (20_memory.md R45) and a script line (30_encoding.md R62, R64). -/

namespace Sys2Proof

/-- Breakpoints strictly increasing from the one given (41_sampler.md R78). -/
def risesFrom : Nat → List DegRow → Bool
  | _, [] => true
  | f, r :: rest => decide (f < r.breakpoint) && risesFrom r.breakpoint rest

/-- What may be relied on of a degree table: `0 = DEG_F[0] < DEG_F[1] < ... < DEG_F[7] = 2^20` and `DEG_D[j] >= 1`
(41_sampler.md R78). -/
def degTableWf (t : List DegRow) : Bool :=
  decide (t.length = 7) && risesFrom 0 t && decide (t.getLast?.map DegRow.breakpoint = some (2 ^ 20)) &&
    t.all fun r => decide (1 ≤ r.degree)

/-- The constraints on the parameters (00_scope.md R9). -/
def Params.wf (p : Params) : Bool :=
  decide (p.kMin = 4) && decide (p.kMax = 256) && decide (p.lMax % 32 = 0) && decide (288 ≤ p.lMax) && decide (p.lMax ≤ 2048) &&
    decide (p.symMax % 4 = 0) && decide (4 ≤ p.symMax) && decide (p.symMax ≤ 4096) && decide (p.kMax < p.esiBound) &&
    decide (p.esiBound ≤ 2 ^ 32) && degTableWf p.degTable

/-- An instance: build parameters that meet the constraints. -/
abbrev Build := { p : Params // p.wf = true }

namespace Build

variable (b : Build)

/-- `K_MIN` (00_scope.md R8). -/
def kMin : Nat := b.val.kMin
/-- `K_MAX` (00_scope.md R8). -/
def kMax : Nat := b.val.kMax
/-- `L_MAX` (00_scope.md R8). -/
def lMax : Nat := b.val.lMax
/-- `SYM_MAX` (00_scope.md R8). -/
def symMax : Nat := b.val.symMax
/-- `ESI_BOUND` (00_scope.md R8). -/
def esiBound : Nat := b.val.esiBound
/-- The degree table (41_sampler.md R78). -/
def degTable : List DegRow := b.val.degTable
/-- `IDXGEN` (00_scope.md R8, 41_sampler.md R84). -/
def idxgen : IdxGen := Config.idxgen b.val.generator
/-- The words of `ROWBUF` and `RECMAP` (20_memory.md R42). -/
def rowWords : Nat := b.lMax / 32
/-- The words of `DIN` and `DOUT` (20_memory.md R42). -/
def symWords : Nat := b.symMax / 4
/-- The host's address of the byte offset `off` of the window (20_memory.md R41). -/
def hostAddress (off : Nat) : Nat := b.val.base + off

end Build

/-- The instance with the spec's defaults (00_scope.md R8, log 1). -/
def Config.build : Build := ⟨Config.params, by decide⟩

/-- Every command is well formed: it has no operand field that could be out of range (30_encoding.md R57). -/
def Instr.wf : Instr → Bool
  | .nop | .cfg | .abort | .endStream | .sreset | .sample | .cmbclr | .cmbdin | .cmbsym | .ldsol | .encode | .insrow
  | .insesi | .backsub => true

/-- A 32-bit access at a multiple of 4 (20_memory.md R45). The port answers `SLVERR` to an ill-formed one. -/
def HostEvent.wf : HostEvent → Bool
  | .memRead a n => decide (n = 4) && decide (a % 4 = 0)
  | .memWrite a n _ => decide (n = 4) && decide (a % 4 = 0)
  | .hardReset => true

/-- A word index within its window (20_memory.md R42). -/
def Cell.wf (b : Build) : Cell → Bool
  | .rowbuf w => decide (w < b.rowWords)
  | .recmap w => decide (w < b.rowWords)
  | .din w => decide (w < b.symWords)
  | .dout w => decide (w < b.symWords)
  | _ => true

/-- A script line whose buffers fit the windows: at most `SYM_MAX` bytes, columns below `L_MAX` (30_encoding.md R64). -/
def ScriptLine.wf (b : Build) : ScriptLine → Bool
  | .loadsym bs => decide (bs.length ≤ b.symMax)
  | .loadrow cs => cs.all fun c => decide (c < b.lMax)
  | .recv _ bs => decide (bs.length ≤ b.symMax)
  | .row cs bs => (cs.all fun c => decide (c < b.lMax)) && decide (bs.length ≤ b.symMax)
  | .readsym n => decide (n ≤ b.symMax)
  | .getsym _ n => decide (n ≤ b.symMax)
  | .expect c => c.wf b
  | _ => true

end Sys2Proof
end

