-- ==== Sys2Proof/Decode.lean ====
section
/-! DEFINITION. Decoding and encoding of command words (30_encoding.md R56, R58, R60, R61). A command is the data of one
32-bit write to `CMD`, so the decoder reads a word; there is no byte order of fetching (20_memory.md R43, R53). -/

namespace Sys2Proof

/-- The field `ZERO`, bits 31..8 (30_encoding.md R56). -/
def zeroField (w : Word) : BitVec 24 := w.extractLsb' 8 24

/-- The field `OPC`, bits 7..0 (30_encoding.md R56). -/
def opcField (w : Word) : BitVec 8 := w.extractLsb' 0 8

/-- The opcode map, in the order of the table (30_encoding.md R58). -/
def opcodeMap : List (BitVec 8 × Instr) :=
  [(0x00#8, .nop), (0x01#8, .cfg), (0x02#8, .abort), (0x03#8, .endStream), (0x04#8, .sreset),
   (0x10#8, .sample),
   (0x20#8, .cmbclr), (0x21#8, .cmbdin), (0x22#8, .cmbsym), (0x23#8, .ldsol), (0x24#8, .encode),
   (0x30#8, .insrow), (0x31#8, .insesi), (0x32#8, .backsub)]

/-- The command of an opcode, if it has one (30_encoding.md R58). -/
def lookupOpcode (opc : BitVec 8) : Option Instr :=
  (opcodeMap.find? fun p => p.1 == opc).map Prod.snd

/-- The decoder: total, decided by the word alone, an illegal word rejected by name (30_encoding.md R60, R61). -/
def decode (w : Word) : Except IllegalWord Instr :=
  if zeroField w ≠ 0#24 then .error .zeroField
  else match lookupOpcode (opcField w) with
    | some i => .ok i
    | none => .error .opcode

/-- The opcode of a command (30_encoding.md R58). -/
def Instr.opcode : Instr → BitVec 8
  | .nop => 0x00#8
  | .cfg => 0x01#8
  | .abort => 0x02#8
  | .endStream => 0x03#8
  | .sreset => 0x04#8
  | .sample => 0x10#8
  | .cmbclr => 0x20#8
  | .cmbdin => 0x21#8
  | .cmbsym => 0x22#8
  | .ldsol => 0x23#8
  | .encode => 0x24#8
  | .insrow => 0x30#8
  | .insesi => 0x31#8
  | .backsub => 0x32#8

/-- The command word of a command: `ZERO` all zero above its opcode (30_encoding.md R56, R58). -/
def encode (i : Instr) : Word := 0#24 ++ i.opcode

/-- The word that the `nbits` low bits of `w` make, the bits above them zero; nothing when it does not fit the one
32-bit format (30_encoding.md R56). -/
def tableWord (nbits w : Nat) : Option Word :=
  if w % 2 ^ nbits < 2 ^ 32 then some (BitVec.ofNat 32 (w % 2 ^ nbits)) else none

/-- The command the decoder reads from a word numbered as the opcode table numbers it. -/
def decodeTableWord (nbits w : Nat) : Option Instr :=
  match tableWord nbits w with
  | none => none
  | some word => (decode word).toOption

end Sys2Proof
end

