-- ==== Sys2Proof/Machine/State.lean ====
section
/-! DEFINITION. The state of one FFG2 instance (10_state.md R15 to R32), the host side of its port, the reasons a step
can stop, and the state after hardware reset (10_state.md R36). -/

namespace Sys2Proof.Machine

open Sys2Proof

/-- `STATE` (10_state.md R16). Values 5 to 7 of the 3-bit register never occur, so the type has five values (log 15). -/
inductive Phase where
  | unconfigured
  | collecting
  | solvable
  | recovered
  | aborted
deriving DecidableEq, Repr

/-- The conditions a command can raise (60_exceptions.md R116). `precodeFailure` is the host's: no command of the block
raises it (60_exceptions.md R118). -/
inductive Condition where
  | invalidParameters
  | insufficientSymbols
  | precodeFailure
  | illegalCommand
deriving DecidableEq, Repr

/-- A cell of the admission table (40_control.md R68): `E`, `I` or `X`. -/
inductive Admission where
  | executes
  | ignored
  | illegal
deriving DecidableEq, Repr

/-- The answer to a port transaction (20_memory.md R41). -/
inductive BusStatus where
  | okay
  | slverr
deriving DecidableEq, Repr

/-- What the host got back from its last transaction: a read returns a word and a status, a write a status
(20_memory.md R41). -/
inductive Response where
  | ofRead (status : BusStatus) (data : Word)
  | ofWrite (status : BusStatus)
deriving DecidableEq, Repr

/-- The bit-vector part of a row, bit `c` for column `c` (00_scope.md R13): as wide as any instance's, the bits at columns
`>= L_MAX` zero (log 14). -/
abbrev RowBits := BitVec Config.lCap

/-- A symbol in its store (10_state.md R26), as wide as any instance's: byte `i` is bits `8i+7 .. 8i`, and the bytes at
positions `>= T` are zero. DESIGN CHOICE: log 13; safe. -/
abbrev Symbol := BitVec (8 * Config.symCap)

/-- A row `(bits, val)` (00_scope.md R13). -/
structure Row where
  bits : RowBits
  val : Symbol
deriving DecidableEq, Repr

/-- A table of `n` entries. A list of fixed length, so that two tables are compared entry by entry (log 14). -/
abbrev Table (α : Type) (n : Nat) := { entries : List α // entries.length = n }

/-- `PIVOT` (10_state.md R26): `none` is an entry with `valid = 0`, whose contents no rule reads (log 9). -/
abbrev Pivots := Table (Option Row) Config.lCap

/-- The state of one instance, which instance it is, and the host side of its port. -/
structure State where
  /-- The instance's build parameters, which no step changes (00_scope.md R8, log 1). -/
  build : Build
  /-- `STATE` (10_state.md R16). -/
  phase : Phase
  /-- `KREG`, 9 bits (10_state.md R19). -/
  kreg : BitVec 9
  /-- `LREG`, 12 bits (10_state.md R19). -/
  lreg : BitVec 12
  /-- `TREG`, 13 bits (10_state.md R19). -/
  treg : BitVec 13
  /-- `RANK`, 12 bits (10_state.md R20). -/
  rank : BitVec 12
  /-- The flag `ABSORBED`, `STATUS[3]` (10_state.md R21). -/
  absorbed : Bool
  /-- The flag `DUP`, `STATUS[4]` (10_state.md R21). -/
  dup : Bool
  /-- The flag `IGNORED`, `STATUS[5]` (10_state.md R21). -/
  ignored : Bool
  /-- `RESULT` (10_state.md R22). -/
  result : Word
  /-- `ERR`, bits 2..0 (10_state.md R23). -/
  err : BitVec 3
  /-- `ESTICKY` (10_state.md R24). -/
  esticky : Word
  /-- `EINFO0` (10_state.md R25). -/
  einfo0 : Word
  /-- `EINFO1` (10_state.md R25). -/
  einfo1 : Word
  /-- `ARG0` (10_state.md R17). -/
  arg0 : Word
  /-- `ARG1` (10_state.md R17). -/
  arg1 : Word
  /-- `ARG2` (10_state.md R17). -/
  arg2 : Word
  /-- `PIVOT` (10_state.md R26). -/
  pivot : Pivots
  /-- `SEEN`: the `esi` whose bit is one, ascending (10_state.md R27, log 22). -/
  seen : List Nat
  /-- `REC`, bit `c` for column `c` (10_state.md R28). -/
  recFlags : RowBits
  /-- `ACC` (10_state.md R30). -/
  acc : Symbol
  /-- `DIN`, by the words the host writes (10_state.md R31, 20_memory.md R43). -/
  din : Table Word (Config.symCap / 4)
  /-- `ROWBUF`, by the words the host writes (10_state.md R32, 20_memory.md R44). -/
  rowbuf : Table Word (Config.lCap / 32)
  /-- The model's own: how many hardware resets there were after the first (log 8). -/
  resets : Nat
  /-- The model's own: the events the host has not caused yet, oldest first (log 5). -/
  pending : List HostEvent
  /-- The model's own: the answer to the host's last transaction (log 6). -/
  response : Option Response
deriving DecidableEq, Repr

/-- Reasons the machine stops with a fault. There is none: FFG2 never halts (70_reset_and_hazards.md R139), a failed
command is reported in registers (60_exceptions.md R120) and a bad transaction is answered `SLVERR` (20_memory.md R41). -/
inductive Fault
deriving DecidableEq, Repr

/-- Reasons a step is refused. -/
inductive Refusal where
  /-- An instruction that has no meaning in the model; raised by `exec` only, safe. No instruction is in that case. -/
  | notModelled (mnemonic : String)
deriving DecidableEq, Repr

/-- A buffer of `n` words given word by word. -/
def State.buffer (n : Nat) (f : Nat → Word) : Table Word n :=
  ⟨(List.range n).map f, by rw [List.length_map, List.length_range]⟩

/-- The state of an instance after hardware reset, where `n` picks the unspecified contents of `DIN` and `ROWBUF`
(10_state.md R36); nothing pending and nothing answered. DESIGN CHOICE: the contents are picked by `n` and the word index
alone, so two instances have equal buffers after resets of one number, where the spec leaves each instance's open
(60_exceptions.md R128); a claim about two instances takes an `n` for each (log 7). -/
def State.afterReset (b : Build) (n : Nat) : State where
  build := b
  phase := .unconfigured
  kreg := 0
  lreg := 0
  treg := 0
  rank := 0
  absorbed := false
  dup := false
  ignored := false
  result := 0
  err := 0
  esticky := 0
  einfo0 := 0
  einfo1 := 0
  arg0 := 0
  arg1 := 0
  arg2 := 0
  pivot := ⟨List.replicate Config.lCap none, List.length_replicate⟩
  seen := []
  recFlags := 0
  acc := 0
  din := State.buffer (Config.symCap / 4) (Config.dinAtReset n)
  rowbuf := State.buffer (Config.lCap / 32) (Config.rowbufAtReset n)
  resets := n
  pending := []
  response := none

/-- The default instance right after (the first) hardware reset (10_state.md R36, 70_reset_and_hazards.md R130). -/
def State.reset : State := State.afterReset Config.build 0

end Sys2Proof.Machine
end

