-- ==== Sys2Proof/Machine/Operands.lean ====
section
/-! DEFINITION. The operands of a command: the registers at full width (30_encoding.md R57), the symbol in `DIN`
(20_memory.md R43, R48), the row in `ROWBUF` (20_memory.md R44), the block parameters (10_state.md R19) and the solved
symbols (10_state.md R29). -/

namespace Sys2Proof.Machine

open Sys2Proof

/-- Byte `i` of a word, little-endian (20_memory.md R43). -/
def byteOfWord (w : Word) (i : Nat) : Byte := w.extractLsb' (8 * i) 8

/-- The word of four bytes, the first the least significant (20_memory.md R43). -/
def wordOfBytes (b0 b1 b2 b3 : Byte) : Word := b3 ++ b2 ++ b1 ++ b0

/-- Word `w` of a buffer. A word index outside the buffer names no cell (20_memory.md R42). -/
def wordAt {n : Nat} (buf : Table Word n) (w : Nat) : Word := buf.val[w]?.getD 0

/-- A table with entry `i` replaced. An index outside the table names no entry, and changes none. -/
def setEntry {α : Type} {n : Nat} (t : Table α n) (i : Nat) (a : α) : Table α n :=
  ⟨t.val.set i a, by rw [List.length_set, t.property]⟩

/-- The symbol of the first `n` of the bytes given, zero beyond them. -/
def Symbol.ofBytes (bytes : Nat → Byte) : Nat → Symbol
  | 0 => 0
  | n + 1 => Symbol.ofBytes bytes n ||| ((bytes n).setWidth (8 * Config.symCap) <<< (8 * n))

/-- Byte `i` of a symbol. -/
def Symbol.byte (a : Symbol) (i : Nat) : Byte := a.extractLsb' (8 * i) 8

/-- The row of the first `n` of the words given: column `c` is bit `c mod 32` of word `c div 32` (20_memory.md R44). -/
def RowBits.ofWords (words : Nat → Word) : Nat → RowBits
  | 0 => 0
  | n + 1 => RowBits.ofWords words n ||| ((words n).setWidth Config.lCap <<< (32 * n))

/-- `unit(c)`: bit `c` one, every other bit zero (00_scope.md R13). -/
def unitRow (c : Nat) : RowBits := BitVec.twoPow Config.lCap c

/-- The bits of the columns below `l`. -/
def columnsBelow (l : Nat) : RowBits := BitVec.ofNat Config.lCap (2 ^ l - 1)

/-- No bit is set at a column `>= l`. -/
def RowBits.below (b : RowBits) (l : Nat) : Bool := b >>> l == 0

/-- `K` (10_state.md R19). -/
def State.k (s : State) : Nat := s.kreg.toNat

/-- `L` (10_state.md R19). -/
def State.l (s : State) : Nat := s.lreg.toNat

/-- `T` (10_state.md R19). -/
def State.t (s : State) : Nat := s.treg.toNat

/-- The operand `x[0]`, unsigned, at full width (30_encoding.md R57). -/
def State.x0 (s : State) : Nat := s.arg0.toNat

/-- The operand `x[1]` (30_encoding.md R57). -/
def State.x1 (s : State) : Nat := s.arg1.toNat

/-- The operand `x[2]` (30_encoding.md R57). -/
def State.x2 (s : State) : Nat := s.arg2.toNat

/-- Byte `i` of `DIN` (20_memory.md R43). -/
def State.dinByte (s : State) (i : Nat) : Byte := byteOfWord (wordAt s.din (i / 4)) (i % 4)

/-- The symbol `DIN[0 .. T-1]`; the bytes at positions `>= T` are ignored (20_memory.md R48). -/
def State.dinSymbol (s : State) : Symbol := Symbol.ofBytes s.dinByte s.t

/-- The `L_MAX`-bit vector in `ROWBUF` (20_memory.md R44, 43_solver.md R103). -/
def State.rowbufRow (s : State) : RowBits := RowBits.ofWords (wordAt s.rowbuf) s.build.rowWords

/-- Entry `c` of `PIVOT`, if it is valid (10_state.md R26). -/
def pivotAt (p : Pivots) (c : Nat) : Option Row := p.val[c]?.getD none

/-- `SOL[c]`, the value of `PIVOT[c]` (10_state.md R29). The commands read it only in R, where every `PIVOT[c]` with
`c < L` is valid (10_state.md R35). DESIGN CHOICE: in a state that no run reaches, where it is not, zero (log 11). -/
def solAt (p : Pivots) (c : Nat) : Symbol :=
  match pivotAt p c with
  | some r => r.val
  | none => 0

end Sys2Proof.Machine
end

