-- ==== Sys2Proof/Machine/Flags.lean ====
section
/-! DEFINITION. The result registers: the codes (10_state.md R16, 60_exceptions.md R116), the flags and `STATUS`
(10_state.md R21), and the prologue of every command (40_control.md R67). -/

namespace Sys2Proof.Machine

open Sys2Proof

/-- The code of a state, `STATUS[2:0]` (10_state.md R16). -/
def Phase.code : Phase → BitVec 3
  | .unconfigured => 0
  | .collecting => 1
  | .solvable => 2
  | .recovered => 3
  | .aborted => 4

/-- The code of a condition (60_exceptions.md R116). -/
def Condition.code : Condition → BitVec 3
  | .invalidParameters => 1
  | .insufficientSymbols => 2
  | .precodeFailure => 3
  | .illegalCommand => 4

/-- `STATUS`: `STATE` in bits 2..0, `ABSORBED` in 3, `DUP` in 4, `IGNORED` in 5, zero above (10_state.md R21). -/
def State.statusWord (s : State) : Word :=
  0#26 ++ BitVec.ofBool s.ignored ++ BitVec.ofBool s.dup ++ BitVec.ofBool s.absorbed ++ s.phase.code

/-- The prologue: the three flags, `RESULT` and `ERR` are cleared (40_control.md R67). -/
def State.prologue (s : State) : State :=
  { s with absorbed := false, dup := false, ignored := false, result := 0, err := 0 }

/-- `RESULT <- v`. -/
def State.setResult (s : State) (v : Word) : State := { s with result := v }

/-- `RESULT <- RANK`, zero-extended (30_encoding.md R59). -/
def State.resultRank (s : State) : State := s.setResult (s.rank.setWidth 32)

/-- `DUP <- 1`. -/
def State.setDup (s : State) : State := { s with dup := true }

/-- `IGNORED <- 1`. -/
def State.setIgnored (s : State) : State := { s with ignored := true }

end Sys2Proof.Machine
end

