-- ==== Sys2Proof/Machine/Ops.lean ====
section
/-! DEFINITION. The operations the commands share: raising a condition (60_exceptions.md R120), the frame of a command
(40_control.md R67, R68), the solver's two algorithms (43_solver.md R100, R102), the equation of an encoding symbol
(41_sampler.md R85, R87), the degree sampler (41_sampler.md R79 to R81), and the port (20_memory.md R41 to R49). -/

namespace Sys2Proof.Machine

open Sys2Proof

/-! ### Raising a condition -/

/-- `raise X(info)`: the block's whole trap entry (60_exceptions.md R120). The command ends, and nothing else changes. -/
def State.raise (s : State) (c : Condition) : State :=
  { s with
    err := c.code
    esticky := s.esticky ||| BitVec.twoPow 32 c.code.toNat
    einfo0 := match c with
      | .insufficientSymbols => s.rank.setWidth 32
      | .invalidParameters | .precodeFailure | .illegalCommand => s.einfo0
    einfo1 := match c with
      | .insufficientSymbols => s.lreg.setWidth 32
      | .invalidParameters | .precodeFailure | .illegalCommand => s.einfo1 }

/-! ### The frame of a command -/

/-- The row of the admission table for a command, one cell for each state (40_control.md R68). -/
def admission : Instr → Phase → Admission
  | .nop, _ => .executes
  | .cfg, .unconfigured => .executes
  | .cfg, .collecting => .illegal
  | .cfg, .solvable => .illegal
  | .cfg, .recovered => .executes
  | .cfg, .aborted => .executes
  | .abort, .unconfigured => .ignored
  | .abort, .collecting => .executes
  | .abort, .solvable => .executes
  | .abort, .recovered => .ignored
  | .abort, .aborted => .ignored
  | .endStream, .unconfigured => .illegal
  | .endStream, .collecting => .executes
  | .endStream, .solvable => .ignored
  | .endStream, .recovered => .ignored
  | .endStream, .aborted => .ignored
  | .sreset, _ => .executes
  | .sample, _ => .executes
  | .cmbclr, .unconfigured => .illegal
  | .cmbclr, _ => .executes
  | .cmbdin, .unconfigured => .illegal
  | .cmbdin, _ => .executes
  | .cmbsym, .recovered => .executes
  | .cmbsym, _ => .illegal
  | .ldsol, .recovered => .executes
  | .ldsol, _ => .illegal
  | .encode, .recovered => .executes
  | .encode, _ => .illegal
  | .insrow, .unconfigured => .illegal
  | .insrow, .collecting => .executes
  | .insrow, .solvable => .ignored
  | .insrow, .recovered => .ignored
  | .insrow, .aborted => .ignored
  | .insesi, .unconfigured => .illegal
  | .insesi, .collecting => .executes
  | .insesi, .solvable => .ignored
  | .insesi, .recovered => .ignored
  | .insesi, .aborted => .ignored
  | .backsub, .unconfigured => .illegal
  | .backsub, .collecting => .illegal
  | .backsub, .solvable => .executes
  | .backsub, .recovered => .ignored
  | .backsub, .aborted => .illegal

/-- A legal command word: the prologue, `IllegalCommand` where the admission table has `X`, else the command's rule on
the state after the prologue (40_control.md R67). -/
def command (i : Instr) (rule : State → State) (s : State) : Host.Outcome State Fault Refusal :=
  match admission i s.phase with
  | .illegal => .next (s.prologue.raise .illegalCommand)
  | .executes => .next (rule s.prologue)
  | .ignored => .next (rule s.prologue)

/-- An illegal command word: the prologue, then `IllegalCommand` (40_control.md R67, 30_encoding.md R60). -/
def State.illegalWord (s : State) : State := s.prologue.raise .illegalCommand

/-! ### Updates of the solver's state and of the accumulator -/

/-- The system with no row in it. -/
def noPivots : Pivots := ⟨List.replicate Config.lCap none, List.length_replicate⟩

/-- Every row, `REC` flag and `SEEN` bit released and `RANK` zero (40_control.md R70, R71). -/
def State.releaseSystem (s : State) : State := { s with pivot := noPivots, recFlags := 0, seen := [], rank := 0 }

/-- `ACC <- a`. -/
def State.setAcc (s : State) (a : Symbol) : State := { s with acc := a }

/-- An ascending list with a number put in at its place, once. -/
def addSeen (e : Nat) : List Nat → List Nat
  | [] => [e]
  | d :: ds => if e < d then e :: d :: ds else if e = d then d :: ds else d :: addSeen e ds

/-- `SEEN[e] <- 1`. -/
def State.markSeen (s : State) (e : Nat) : State := { s with seen := addSeen e s.seen }

/-! ### TryInsert -/

/-- The least of the columns below `n` whose bit is one. -/
def lowestBelow (b : RowBits) (n : Nat) : Option Nat := (List.range n).find? fun c => b.getLsbD c

/-- `lsb(bits)`: the least column whose bit is one (00_scope.md R13). Irreducible, so that elaboration does not search
every column of an unknown row; the kernel evaluates it all the same. -/
@[irreducible] def lowestColumn (b : RowBits) : Option Nat := lowestBelow b Config.lCap

/-- `PIVOT[c].valid <- 1; PIVOT[c].bits, PIVOT[c].val <- r`. -/
def setPivot (p : Pivots) (c : Nat) (r : Row) : Pivots := setEntry p c (some r)

/-- The XOR of two rows (00_scope.md R13). -/
def Row.xor (a b : Row) : Row := ⟨a.bits ^^^ b.bits, a.val ^^^ b.val⟩

/-- The loop of `TryInsert` (43_solver.md R100), for at most `passes` passes: where it ends in case (b) the new pivot's
column and row, in case (a) nothing. -/
def insertLoop (p : Pivots) : Nat → Row → Option (Nat × Row)
  | 0, _ => none
  | passes + 1, r =>
    match lowestColumn r.bits with
    | none => none
    | some c =>
      match pivotAt p c with
      | some q => insertLoop p passes (r.xor q)
      | none => some (c, r)

/-- `ABSORBED <- TryInsert(b, v)` (43_solver.md R100). DEDUCED: the loop is given the `L` passes after which
43_solver.md R101 says it has ended; only a state outside the invariants could show a difference (log 10). -/
def State.tryInsert (s : State) (r : Row) : State :=
  match insertLoop s.pivot s.l r with
  | none => { s with absorbed := false }
  | some (c, q) => { s with absorbed := true, pivot := setPivot s.pivot c q, rank := s.rank + 1 }

/-! ### BackSub -/

/-- The inner loop of `BackSub` on the row of one column (43_solver.md R102), over the columns listed. DESIGN CHOICE: a
column without a row, which `RANK = L` rules out, is passed over (log 12). -/
def reduceRow (p : Pivots) : List Nat → Row → Row
  | [], r => r
  | j :: js, r =>
    match r.bits.getLsbD j, pivotAt p j with
    | true, some q => reduceRow p js (r.xor q)
    | _, _ => reduceRow p js r

/-- The columns `c+1 .. l-1`, ascending. -/
def columnsAbove (c l : Nat) : List Nat := List.range' (c + 1) (l - (c + 1))

/-- The outer loop of `BackSub`, for the columns `n-1` down to 0 (43_solver.md R102). -/
def backSubLoop (l : Nat) : Nat → Pivots → Pivots
  | 0, p => p
  | c + 1, p =>
    match pivotAt p c with
    | some r => backSubLoop l c (setPivot p c (reduceRow p (columnsAbove c l) r))
    | none => backSubLoop l c p

/-- `BackSub()` (43_solver.md R102), then `STATE <- R` (43_solver.md R104, R105). -/
def State.backSubstitute (s : State) : State :=
  { s with pivot := backSubLoop s.l s.l s.pivot, recFlags := s.recFlags ||| columnsBelow s.l, phase := .recovered }

/-! ### The equation of an encoding symbol -/

/-- The validity of an `IDXGEN` answer (41_sampler.md R85). -/
def answerValid (l : Nat) (a : IdxAnswer) : Bool :=
  decide (1 ≤ a.degree) && decide (a.degree ≤ l) && decide (a.indices.length = a.degree) &&
    (a.indices.all fun i => decide (i < l)) && decide a.indices.Nodup

/-- `bits(I)` (41_sampler.md R85). -/
def RowBits.ofColumns (columns : List Nat) : RowBits := columns.foldl (fun b c => b ||| unitRow c) 0

/-- `EqRow(esi)`; nothing where the answer of `IDXGEN` is not valid (41_sampler.md R87). -/
def eqRow (gen : IdxGen) (k l esi : Nat) : Option RowBits :=
  if esi < k then some (unitRow esi)
  else if answerValid l (gen k l esi) then some (RowBits.ofColumns (gen k l esi).indices)
  else none

/-- The XOR of the symbols `f i` over a list of indices (00_scope.md R12). -/
def xorOver (f : Nat → Symbol) (columns : List Nat) : Symbol := columns.foldl (fun a c => a ^^^ f c) 0

/-! ### The degree sampler -/

/-- `Deg(v)`: the degree of the first row whose breakpoint lies above the draw (41_sampler.md R80). The last breakpoint
is 2^20, so a draw below it always finds a row; the zero is for a table with none (log 20). -/
def degreeOf : List DegRow → Nat → Nat
  | [], _ => 0
  | r :: rest, v => if v < r.breakpoint then r.degree else degreeOf rest v

/-- The normalised draw `random_value[19:0]` (41_sampler.md R79). -/
def drawOf (randomValue : Word) : Nat := (randomValue.extractLsb' 0 20).toNat

/-- `Sample(K, random_value)` over a degree table (41_sampler.md R81). -/
def sampleDegree (table : List DegRow) (k : Nat) (randomValue : Word) : Nat := min (degreeOf table (drawOf randomValue)) k

/-- `K` outside 4..256 (40_control.md R70, 41_sampler.md R82). -/
def kOutOfRange (b : Build) (k : Nat) : Bool := decide (k < b.kMin) || decide (b.kMax < k)

/-! ### The port -/

/-- The byte offset of a cell (20_memory.md R42). -/
def cellOffset : Cell → Nat
  | .cmd => 0x0000
  | .status => 0x0004
  | .rank => 0x0008
  | .err => 0x000C
  | .esticky => 0x0010
  | .einfo0 => 0x0014
  | .einfo1 => 0x0018
  | .result => 0x001C
  | .arg0 => 0x0020
  | .arg1 => 0x0024
  | .arg2 => 0x0028
  | .kreg => 0x002C
  | .lreg => 0x0030
  | .treg => 0x0034
  | .rowbuf w => 0x0100 + 4 * w
  | .recmap w => 0x0200 + 4 * w
  | .din w => 0x1000 + 4 * w
  | .dout w => 0x2000 + 4 * w

/-- The registers of the map, which have one word each (20_memory.md R42). -/
def registerCells : List Cell :=
  [.cmd, .status, .rank, .err, .esticky, .einfo0, .einfo1, .result, .arg0, .arg1, .arg2, .kreg, .lreg, .treg]

/-- The word index of an offset in a window of `n` words at `base`, if it lies in it. -/
def windowIndex (base n off : Nat) : Option Nat :=
  if base ≤ off ∧ off < base + 4 * n ∧ (off - base) % 4 = 0 then some ((off - base) / 4) else none

/-- The cell an instance maps at a byte offset, if there is one (20_memory.md R42). -/
def cellAt (b : Build) (off : Nat) : Option Cell :=
  match registerCells.find? fun c => cellOffset c == off with
  | some c => some c
  | none =>
    match windowIndex 0x0100 b.rowWords off with
    | some w => some (.rowbuf w)
    | none =>
      match windowIndex 0x0200 b.rowWords off with
      | some w => some (.recmap w)
      | none =>
        match windowIndex 0x1000 b.symWords off with
        | some w => some (.din w)
        | none =>
          match windowIndex 0x2000 b.symWords off with
          | some w => some (.dout w)
          | none => none

/-- Word `w` of `DOUT`: the bytes `4w .. 4w+3` of `ACC`, zero at positions `>= T` and in state U (20_memory.md R49). -/
def State.doutWord (s : State) (w : Nat) : Word :=
  let byte := fun i => if i < s.t ∧ s.phase ≠ .unconfigured then Symbol.byte s.acc i else 0
  wordOfBytes (byte (4 * w)) (byte (4 * w + 1)) (byte (4 * w + 2)) (byte (4 * w + 3))

/-- Word `w` of `RECMAP` (20_memory.md R44). -/
def State.recWord (s : State) (w : Nat) : Word := s.recFlags.extractLsb' (32 * w) 32

/-- What a cell reads as; nothing for the write-only `CMD` (20_memory.md R42, R46). -/
def readCell (s : State) : Cell → Option Word
  | .cmd => none
  | .status => some s.statusWord
  | .rank => some (s.rank.setWidth 32)
  | .err => some (s.err.setWidth 32)
  | .esticky => some s.esticky
  | .einfo0 => some s.einfo0
  | .einfo1 => some s.einfo1
  | .result => some s.result
  | .arg0 => some s.arg0
  | .arg1 => some s.arg1
  | .arg2 => some s.arg2
  | .kreg => some (s.kreg.setWidth 32)
  | .lreg => some (s.lreg.setWidth 32)
  | .treg => some (s.treg.setWidth 32)
  | .rowbuf w => some (wordAt s.rowbuf w)
  | .recmap w => some (s.recWord w)
  | .din w => some (wordAt s.din w)
  | .dout w => some (s.doutWord w)

/-- The state after a word is stored in a read-write cell; nothing for the other cells (20_memory.md R42, R46). -/
def storeCell (s : State) (v : Word) : Cell → Option State
  | .arg0 => some { s with arg0 := v }
  | .arg1 => some { s with arg1 := v }
  | .arg2 => some { s with arg2 := v }
  | .rowbuf w => some { s with rowbuf := setEntry s.rowbuf w v }
  | .din w => some { s with din := setEntry s.din w v }
  | .cmd | .status | .rank | .err | .esticky | .einfo0 | .einfo1 | .result | .kreg | .lreg | .treg | .recmap _
  | .dout _ => none

/-- The cell of a well-formed access, if one is mapped there (20_memory.md R41, R45). -/
def accessedCell (b : Build) (addr size : Nat) : Option Cell :=
  if size = 4 ∧ addr % 4 = 0 then cellAt b addr else none

/-- What the port answers to `MemRead(addr, size)`: the word and `OKAY`, or 0 and `SLVERR` (20_memory.md R41). -/
def portRead (s : State) (addr size : Nat) : Response :=
  match (accessedCell s.build addr size).bind (readCell s) with
  | some v => .ofRead .okay v
  | none => .ofRead .slverr 0

/-- What a host event comes to at the port. -/
inductive PortEffect where
  /-- The event is done, and this is the state after it. -/
  | done (s : State)
  /-- A legal write to `CMD`: the word is to be executed as a command in this state (20_memory.md R47). -/
  | command (s : State) (w : Word)
deriving DecidableEq, Repr

/-- The answer recorded for the host (log 6). -/
def State.answer (s : State) (r : Response) : State := { s with response := some r }

/-- One event of the host (20_memory.md R41, R46, R47; 70_reset_and_hazards.md R130, log 8). -/
def portEffect (s : State) : HostEvent → PortEffect
  | .memRead addr size => .done (s.answer (portRead s addr size))
  | .memWrite addr size v =>
    match accessedCell s.build addr size with
    | some .cmd => .command (s.answer (.ofWrite .okay)) v
    | some c =>
      match storeCell s v c with
      | some s' => .done (s'.answer (.ofWrite .okay))
      | none => .done (s.answer (.ofWrite .slverr))
    | none => .done (s.answer (.ofWrite .slverr))
  | .hardReset => .done { State.afterReset s.build (s.resets + 1) with pending := s.pending }

/-- The next event of the host and the state in which it arrives; nothing when the host has none to cause (log 5). -/
def State.nextEvent (s : State) : Option (HostEvent × State) :=
  match s.pending with
  | [] => none
  | e :: rest => some (e, { s with pending := rest })

/-- The state in which a command word is the host's next event (log 5). -/
def State.issueWord (s : State) (w : Word) : State :=
  { s with pending := .memWrite (cellOffset .cmd) 4 w :: s.pending }

end Sys2Proof.Machine
end

