-- ==== Sys2Proof/Machine/Combiner.lean ====
section
/-! DEFINITION. The combiner's commands (42_combiner.md R90 to R94). -/

namespace Sys2Proof.Machine

open Sys2Proof

/-- `CMBCLR` (42_combiner.md R90). -/
def execCmbclr (s : State) : Host.Outcome State Fault Refusal := command .cmbclr (fun p => p.setAcc 0) s

/-- The rule of `CMBDIN` (42_combiner.md R91). -/
def cmbdinRule (s : State) : State :=
  if s.x1 ≠ s.t then s.raise .invalidParameters
  else s.setAcc (s.acc ^^^ s.dinSymbol)

/-- `CMBDIN len` (42_combiner.md R91). -/
def execCmbdin (s : State) : Host.Outcome State Fault Refusal := command .cmbdin cmbdinRule s

/-- The rule of `CMBSYM` (42_combiner.md R92). -/
def cmbsymRule (s : State) : State :=
  if s.l ≤ s.x0 then s.raise .invalidParameters
  else s.setAcc (s.acc ^^^ solAt s.pivot s.x0)

/-- `CMBSYM idx` (42_combiner.md R92). -/
def execCmbsym (s : State) : Host.Outcome State Fault Refusal := command .cmbsym cmbsymRule s

/-- The rule of `LDSOL` (42_combiner.md R93). -/
def ldsolRule (s : State) : State :=
  if s.l ≤ s.x0 then s.raise .invalidParameters
  else s.setAcc (solAt s.pivot s.x0)

/-- `LDSOL idx` (42_combiner.md R93). -/
def execLdsol (s : State) : Host.Outcome State Fault Refusal := command .ldsol ldsolRule s

/-- The rule of `ENCODE` with the generator `gen` (42_combiner.md R94). -/
def encodeRule (gen : IdxGen) (s : State) : State :=
  if s.build.esiBound ≤ s.x0 then s.raise .invalidParameters
  else if s.x0 < s.k then (s.setAcc (solAt s.pivot s.x0)).setResult 1
  else
    let a := gen s.k s.l s.x0
    if answerValid s.l a then (s.setAcc (xorOver (solAt s.pivot) a.indices)).setResult (BitVec.ofNat 32 a.degree)
    else s.raise .invalidParameters

/-- `ENCODE esi` (42_combiner.md R94). -/
def execEncode (s : State) : Host.Outcome State Fault Refusal := command .encode (encodeRule s.build.idxgen) s

end Sys2Proof.Machine
end

