-- ==== Sys2Proof/Machine/Control.lean ====
section
/-! DEFINITION. The control commands (40_control.md R69 to R73). -/

namespace Sys2Proof.Machine

open Sys2Proof

/-- `NOP`: nothing after the prologue (40_control.md R69). -/
def execNop (s : State) : Host.Outcome State Fault Refusal := command .nop (fun p => p) s

/-- The registers `CFG` loads, the new empty system, `ACC <- 0^T` and `STATE <- C` (40_control.md R70). -/
def State.configure (s : State) : State :=
  { s.releaseSystem with
    kreg := s.arg0.setWidth 9
    lreg := s.arg1.setWidth 12
    treg := s.arg2.setWidth 13
    acc := 0
    phase := .collecting }

/-- The rule of `CFG` (40_control.md R70). -/
def cfgRule (s : State) : State :=
  if kOutOfRange s.build s.x0 then s.raise .invalidParameters
  else if s.x1 ≤ s.x0 ∨ s.build.lMax < s.x1 then s.raise .invalidParameters
  else if s.x2 = 0 ∨ s.build.symMax < s.x2 then s.raise .invalidParameters
  else s.configure

/-- `CFG k, l, t` (40_control.md R70). -/
def execCfg (s : State) : Host.Outcome State Fault Refusal := command .cfg cfgRule s

/-- The rule of `ABORT` (40_control.md R71). -/
def abortRule (s : State) : State :=
  match s.phase with
  | .collecting | .solvable => { s.releaseSystem with phase := .aborted }
  | .unconfigured | .recovered | .aborted => s.setIgnored

/-- `ABORT` (40_control.md R71). -/
def execAbort (s : State) : Host.Outcome State Fault Refusal := command .abort abortRule s

/-- The rule of `END` (40_control.md R72). -/
def endRule (s : State) : State :=
  match s.phase with
  | .collecting => s.raise .insufficientSymbols
  | .unconfigured | .solvable | .recovered | .aborted => s.setIgnored.resultRank

/-- `END` (40_control.md R72). -/
def execEnd (s : State) : Host.Outcome State Fault Refusal := command .endStream endRule s

/-- The rule of `SRESET`: the state after reset, with `DIN` and `ROWBUF` kept (40_control.md R73, 10_state.md R36). The
host side of the port is not the block's and stays. -/
def sresetRule (s : State) : State :=
  { State.afterReset s.build s.resets with
    din := s.din
    rowbuf := s.rowbuf
    pending := s.pending
    response := s.response }

/-- `SRESET` (40_control.md R73). -/
def execSreset (s : State) : Host.Outcome State Fault Refusal := command .sreset sresetRule s

end Sys2Proof.Machine
end

