-- ==== Sys2Proof/Machine/Sampler.lean ====
section
/-! DEFINITION. The sampler's command (41_sampler.md R82). -/

namespace Sys2Proof.Machine

open Sys2Proof

/-- The rule of `SAMPLE` (41_sampler.md R82). -/
def sampleRule (s : State) : State :=
  if kOutOfRange s.build s.x0 then s.raise .invalidParameters
  else s.setResult (BitVec.ofNat 32 (sampleDegree s.build.degTable s.x0 s.arg1))

/-- `SAMPLE k, random_value` (41_sampler.md R82). -/
def execSample (s : State) : Host.Outcome State Fault Refusal := command .sample sampleRule s

end Sys2Proof.Machine
end

