-- ==== Sys2Proof/Machine/Solver.lean ====
section
/-! DEFINITION. The solver's commands (43_solver.md R103 to R105). -/

namespace Sys2Proof.Machine

open Sys2Proof

/-- `if RANK = L: STATE <- S` (43_solver.md R103). -/
def State.solvableAtFullRank (s : State) : State :=
  if s.rank = s.lreg then { s with phase := .solvable } else s

/-- `if RANK = L: STATE <- S; BackSub(); STATE <- R` (43_solver.md R104); the passage through S is within the command. -/
def State.recoverAtFullRank (s : State) : State :=
  if s.rank = s.lreg then s.backSubstitute else s

/-- The rule of `INSROW` (43_solver.md R103). -/
def insrowRule (s : State) : State :=
  if s.x1 ≠ s.t then s.raise .invalidParameters
  else if s.rowbufRow.below s.l = false then s.raise .invalidParameters
  else if s.phase ≠ .collecting then s.setIgnored.resultRank
  else (s.tryInsert ⟨s.rowbufRow, s.dinSymbol⟩).solvableAtFullRank.resultRank

/-- `INSROW len` (43_solver.md R103). -/
def execInsrow (s : State) : Host.Outcome State Fault Refusal := command .insrow insrowRule s

/-- The rule of `INSESI` with the generator `gen` (43_solver.md R104). -/
def insesiRule (gen : IdxGen) (s : State) : State :=
  if s.build.esiBound ≤ s.x0 then s.raise .invalidParameters
  else if s.x1 ≠ s.t then s.raise .invalidParameters
  else if s.phase ≠ .collecting then s.setIgnored.resultRank
  else if s.x0 ∈ s.seen then s.setDup.resultRank
  else match eqRow gen s.k s.l s.x0 with
    | none => s.raise .invalidParameters
    | some b => ((s.markSeen s.x0).tryInsert ⟨b, s.dinSymbol⟩).recoverAtFullRank.resultRank

/-- `INSESI esi, len` (43_solver.md R104). -/
def execInsesi (s : State) : Host.Outcome State Fault Refusal := command .insesi (insesiRule s.build.idxgen) s

/-- The rule of `BACKSUB` (43_solver.md R105). -/
def backsubRule (s : State) : State :=
  match s.phase with
  | .solvable => s.backSubstitute.resultRank
  | .unconfigured | .collecting | .recovered | .aborted => s.setIgnored.resultRank

/-- `BACKSUB` (43_solver.md R105). -/
def execBacksub (s : State) : Host.Outcome State Fault Refusal := command .backsub backsubRule s

end Sys2Proof.Machine
end

