-- ==== Sys2Proof/Machine/Dispatch.lean ====
section
/-! DEFINITION. One arm per command (30_encoding.md R58). -/

namespace Sys2Proof.Machine

open Sys2Proof

def exec (i : Instr) (s : State) : Host.Outcome State Fault Refusal :=
  match i with
  | .nop => Sys2Proof.Machine.execNop s
  | .cfg => Sys2Proof.Machine.execCfg s
  | .abort => Sys2Proof.Machine.execAbort s
  | .endStream => Sys2Proof.Machine.execEnd s
  | .sreset => Sys2Proof.Machine.execSreset s
  | .sample => Sys2Proof.Machine.execSample s
  | .cmbclr => Sys2Proof.Machine.execCmbclr s
  | .cmbdin => Sys2Proof.Machine.execCmbdin s
  | .cmbsym => Sys2Proof.Machine.execCmbsym s
  | .ldsol => Sys2Proof.Machine.execLdsol s
  | .encode => Sys2Proof.Machine.execEncode s
  | .insrow => Sys2Proof.Machine.execInsrow s
  | .insesi => Sys2Proof.Machine.execInsesi s
  | .backsub => Sys2Proof.Machine.execBacksub s

end Sys2Proof.Machine
end

