-- ==== Sys2Proof/Machine/Step.lean ====
section
/-! DEFINITION. One step: the host's next event, whole (20_memory.md R50, R51). -/

namespace Sys2Proof.Machine

open Sys2Proof

/-- One step of the machine. With no event pending the block is idle and holds its state (60_exceptions.md R127); a
legal write to `CMD` executes the command of its word (20_memory.md R47, 40_control.md R67). -/
def step (s : State) : Host.Outcome State Fault Refusal :=
  match s.nextEvent with
  | none => .next s
  | some (e, s') =>
    match portEffect s' e with
    | .done t => .next t
    | .command t w =>
      match decode w with
      | .ok i => exec i t
      | .error _ => .next t.illegalWord

/-- The state in which a write of the command word to `CMD` is the host's next event (log 5). -/
def State.withFetchWord (s : State) (nbits w : Nat) : State := s.issueWord (BitVec.ofNat 32 (w % 2 ^ nbits))

end Sys2Proof.Machine
end

