-- ==== Sys2Proof/Machine/Script.lean ====
section
/-! DEFINITION. The script notation of FFG2: the port events a script line stands for (30_encoding.md R62 to R64). -/

namespace Sys2Proof.Machine

open Sys2Proof

/-- `MemWrite(offset of the cell, 4, v)`. -/
def writeTo (c : Cell) (v : Word) : HostEvent := .memWrite (cellOffset c) 4 v

/-- `MemRead(offset of the cell, 4)`. -/
def readFrom (c : Cell) : HostEvent := .memRead (cellOffset c) 4

/-- The write of a command word to `CMD` (30_encoding.md R63). -/
def issue (i : Instr) : HostEvent := writeTo .cmd (encode i)

/-- `LOADSYM b0 b1 ...`: the words of the bytes, little-endian, absent bytes taken as 0 (30_encoding.md R64). -/
def loadSymbol (bytes : List Byte) : List HostEvent :=
  (List.range ((bytes.length + 3) / 4)).map fun w =>
    writeTo (.din w) (wordOfBytes (bytes.getD (4 * w) 0) (bytes.getD (4 * w + 1) 0) (bytes.getD (4 * w + 2) 0)
      (bytes.getD (4 * w + 3) 0))

/-- The word `w` of the row with the columns listed: bit `c mod 32` for each `c` with `c div 32 = w` (30_encoding.md
R64). -/
def rowWord (columns : List Nat) (w : Nat) : Word :=
  columns.foldl (fun v c => if c / 32 = w then v ||| BitVec.twoPow 32 (c % 32) else v) 0

/-- `LOADROW {c1, c2, ...}`: every word of `ROWBUF` is written (30_encoding.md R64). -/
def loadRow (b : Build) (columns : List Nat) : List HostEvent :=
  (List.range b.rowWords).map fun w => writeTo (.rowbuf w) (rowWord columns w)

/-- `READSYM`: the reads of the first `n` bytes of `DOUT` (30_encoding.md R64). -/
def readSymbol (n : Nat) : List HostEvent := (List.range ((n + 3) / 4)).map fun w => readFrom (.dout w)

/-- The length a pseudo-command states for its bytes. -/
def lengthOf (bytes : List Byte) : Word := BitVec.ofNat 32 bytes.length

/-- The events of a script line, in order (30_encoding.md R63, R64). -/
def expand (b : Build) : ScriptLine → List HostEvent
  | .nop => [issue .nop]
  | .cfg k l t => [writeTo .arg0 k, writeTo .arg1 l, writeTo .arg2 t, issue .cfg]
  | .abort => [issue .abort]
  | .endStream => [issue .endStream]
  | .sreset => [issue .sreset]
  | .sample k rv => [writeTo .arg0 k, writeTo .arg1 rv, issue .sample]
  | .cmbclr => [issue .cmbclr]
  | .cmbdin len => [writeTo .arg1 len, issue .cmbdin]
  | .cmbsym idx => [writeTo .arg0 idx, issue .cmbsym]
  | .ldsol idx => [writeTo .arg0 idx, issue .ldsol]
  | .encode esi => [writeTo .arg0 esi, issue .encode]
  | .insrow len => [writeTo .arg1 len, issue .insrow]
  | .insesi esi len => [writeTo .arg0 esi, writeTo .arg1 len, issue .insesi]
  | .backsub => [issue .backsub]
  | .loadsym bs => loadSymbol bs
  | .loadrow cs => loadRow b cs
  | .recv esi bs => loadSymbol bs ++ [writeTo .arg0 esi, writeTo .arg1 (lengthOf bs), issue .insesi]
  | .row cs bs => loadRow b cs ++ loadSymbol bs ++ [writeTo .arg1 (lengthOf bs), issue .insrow]
  | .readsym n => readSymbol n
  | .getsym idx n => writeTo .arg0 idx :: issue .ldsol :: readSymbol n
  | .expect c => [readFrom c]

/-- The events of a script, in order (30_encoding.md R62). -/
def expandScript (b : Build) (lines : List ScriptLine) : List HostEvent := (lines.map (expand b)).flatten

/-- The state in which a script is what the host does next (log 5). -/
def State.withScript (s : State) (lines : List ScriptLine) : State := { s with pending := expandScript s.build lines ++ s.pending }

end Sys2Proof.Machine
end

