-- ==== Sys2Proof/Safety.lean ====
section
/-! DEFINITION. The terms claims are stated in: the invariants of 10_state.md R35, what a command leaves when it raises
nothing or a condition (40_control.md R67, 60_exceptions.md R120), spans of rows (43_solver.md R106), consistency with an
assignment of symbols (43_solver.md R108), and runs. -/

namespace Sys2Proof.Machine

open Sys2Proof

/-! ### What a command leaves -/

/-- The state in which a command raised nothing, set no flag and returned `v` (40_control.md R67, 10_state.md R22). -/
def State.completed (s : State) (v : Word) : State :=
  { s with absorbed := false, dup := false, ignored := false, result := v, err := 0 }

/-- The state in which a command raised the condition of a code and did nothing else (60_exceptions.md R120). -/
def State.rejected (s : State) (code : BitVec 3) : State :=
  { s with absorbed := false, dup := false, ignored := false, result := 0, err := code
           esticky := s.esticky ||| (1#32 <<< code.toNat) }

/-- The values of 10_state.md R36 after hardware reset, for all of the block's state but `DIN` and `ROWBUF`. -/
structure State.HasResetValues (s : State) : Prop where
  phase : s.phase = .unconfigured
  parameters : s.kreg = 0 ∧ s.lreg = 0 ∧ s.treg = 0
  rank : s.rank = 0
  flags : s.absorbed = false ∧ s.dup = false ∧ s.ignored = false
  result : s.result = 0
  report : s.err = 0 ∧ s.esticky = 0 ∧ s.einfo0 = 0 ∧ s.einfo1 = 0
  arguments : s.arg0 = 0 ∧ s.arg1 = 0 ∧ s.arg2 = 0
  pivot : ∀ c, pivotAt s.pivot c = none
  seen : ∀ e, e ∉ s.seen
  recFlags : ∀ c, s.recFlags.getLsbD c = false
  dout : ∀ w, s.doutWord w = 0

/-! ### The port's access rights and the admission table, as the spec's tables have them -/

/-- A cell the host may read: every cell but `CMD` (20_memory.md R42). -/
def hostReads (c : Cell) : Prop := c ≠ .cmd

/-- A cell the host may write: `CMD`, the operand registers, `ROWBUF` and `DIN` (20_memory.md R42). -/
def hostWrites (c : Cell) : Prop :=
  c = .cmd ∨ c = .arg0 ∨ c = .arg1 ∨ c = .arg2 ∨ (∃ w, c = .rowbuf w) ∨ ∃ w, c = .din w

/-- The admission table, cell by cell (40_control.md R68): in the order of the states U, C, S, R, A. -/
def admissionTable : List (Instr × List Admission) :=
  let E := Admission.executes
  let I := Admission.ignored
  let X := Admission.illegal
  [(.nop, [E, E, E, E, E]), (.cfg, [E, X, X, E, E]), (.abort, [I, E, E, I, I]), (.endStream, [X, E, I, I, I]),
   (.sreset, [E, E, E, E, E]), (.sample, [E, E, E, E, E]), (.cmbclr, [X, E, E, E, E]), (.cmbdin, [X, E, E, E, E]),
   (.cmbsym, [X, X, X, E, X]), (.ldsol, [X, X, X, E, X]), (.encode, [X, X, X, E, X]), (.insrow, [X, E, I, I, I]),
   (.insesi, [X, E, I, I, I]), (.backsub, [X, X, E, I, X])]

/-- The states in the order of the admission table's columns (40_control.md R68). -/
def admissionColumns : List Phase :=
  [.unconfigured, .collecting, .solvable, .recovered, .aborted]

/-! ### The invariants of R35 -/

/-- A symbol with its bytes at positions `>= t` all zero (log 13). -/
def Symbol.Fits (a : Symbol) (t : Nat) : Prop := ∀ j, 8 * t ≤ j → a.getLsbD j = false

/-- How many entries of `PIVOT` are valid. -/
def validCount (p : Pivots) : Nat := (List.range Config.lCap).countP fun c => (pivotAt p c).isSome

/-- `lsb` of a row is the column it is kept at, and no bit is at a column `>= l` (10_state.md R35, INV1). -/
def Echelon (l : Nat) (p : Pivots) : Prop :=
  ∀ c r, pivotAt p c = some r →
    c < l ∧ r.bits.getLsbD c = true ∧ ∀ j, j < c ∨ l ≤ j → r.bits.getLsbD j = false

/-- No row, no `SEEN` bit, no `REC` bit, `RANK = 0` (10_state.md R35, INV3 for U and A). -/
def State.SystemEmpty (s : State) : Prop :=
  s.rank = 0 ∧ (∀ c, pivotAt s.pivot c = none) ∧ s.seen = [] ∧ s.recFlags = 0

/-- What holds in each state (10_state.md R35, INV3). -/
def State.PhaseHolds (s : State) : Prop :=
  match s.phase with
  | .unconfigured => s.SystemEmpty
  | .collecting => s.rank.toNat < s.l
  | .solvable => s.rank.toNat = s.l
  | .recovered => s.rank.toNat = s.l ∧
      ∀ c, c < s.l → (pivotAt s.pivot c).map Row.bits = some (unitRow c) ∧ s.recFlags.getLsbD c = true
  | .aborted => s.SystemEmpty

/-- The block parameters are legal exactly when there are any (10_state.md R19). -/
def State.ParametersLegal (s : State) : Prop :=
  if s.phase = .unconfigured then s.kreg = 0 ∧ s.lreg = 0 ∧ s.treg = 0
  else s.build.kMin ≤ s.k ∧ s.k ≤ s.build.kMax ∧ s.k < s.l ∧ s.l ≤ s.build.lMax ∧ 1 ≤ s.t ∧ s.t ≤ s.build.symMax

/-- The report registers hold only what the block writes in them (10_state.md R21, R23, R24). -/
def State.ReportLegal (s : State) : Prop :=
  (s.err = 0 ∨ s.err = 1 ∨ s.err = 2 ∨ s.err = 4) ∧ s.esticky &&& ~~~0x16#32 = 0 ∧
    (s.absorbed && s.dup) = false ∧ (s.absorbed && s.ignored) = false ∧ (s.dup && s.ignored) = false

/-- The invariant of the machine: INV1 to INV4 of 10_state.md R35, with the ranges of 10_state.md R19, R21, R23, R24,
R27, R28, and the form of `SEEN` and of the symbols (logs 13, 22). -/
structure State.Inv (s : State) : Prop where
  echelon : Echelon s.l s.pivot
  rankCounts : s.rank.toNat = validCount s.pivot
  phaseHolds : s.PhaseHolds
  recoveredFlags : ∀ c, s.recFlags.getLsbD c = true → s.phase = .recovered ∧ c < s.l
  parametersLegal : s.ParametersLegal
  seenLegal : s.seen.Pairwise (· < ·) ∧ ∀ e ∈ s.seen, e < s.build.esiBound
  reportLegal : s.ReportLegal
  accFits : Symbol.Fits s.acc s.t
  valuesFit : ∀ c r, pivotAt s.pivot c = some r → Symbol.Fits r.val s.t

/-! ### Values -/

/-- Two states that differ in the values of symbols only: the contents of `DIN`, `ACC` and the values of the rows. -/
def State.SameButValues (s s' : State) : Prop :=
  s' = { s with din := s'.din, acc := s'.acc, pivot := s'.pivot } ∧
  ∀ c, (pivotAt s.pivot c).map Row.bits = (pivotAt s'.pivot c).map Row.bits

/-! ### Spans and consistency -/

/-- The XOR of the bit-vectors of the rows kept at the columns listed. -/
def sumOfRows (p : Pivots) (columns : List Nat) : RowBits :=
  (columns.filterMap (pivotAt p)).foldl (fun b r => b ^^^ r.bits) 0

/-- The GF(2) span of the bit-vectors of the rows of `PIVOT` (43_solver.md R106). -/
def InSpan (p : Pivots) (b : RowBits) : Prop := ∃ columns, sumOfRows p columns = b

/-- No sum of one or more different rows of `PIVOT` is zero (10_state.md R35, INV5). -/
def Independent (p : Pivots) : Prop :=
  ∀ columns : List Nat, columns.Nodup → (∀ c ∈ columns, (pivotAt p c).isSome) → sumOfRows p columns = 0 → columns = []

/-- `XOR_{c : b[c] = 1} x[c]` (00_scope.md R12). -/
def combination (b : RowBits) (x : Nat → Symbol) : Symbol :=
  xorOver x ((List.range Config.lCap).filter fun c => b.getLsbD c)

/-- A row consistent with an assignment of symbols (43_solver.md R108). -/
def Consistent (x : Nat → Symbol) (r : Row) : Prop := r.val = combination r.bits x

/-- Every row stored in `PIVOT` is consistent with the assignment (43_solver.md R108). -/
def AllConsistent (x : Nat → Symbol) (p : Pivots) : Prop := ∀ c r, pivotAt p c = some r → Consistent x r

/-- If the command, executed in this state, inserts a row, the row it inserts is consistent with the assignment
(43_solver.md R108): for `INSROW` the row in `ROWBUF` and `DIN` (43_solver.md R103), for `INSESI` the equation of its
`esi` with `DIN` (43_solver.md R104). Ignored, duplicate and rejected commands insert nothing. -/
def OffersConsistent (x : Nat → Symbol) (i : Instr) (s : State) : Prop :=
  match i with
  | .insrow => s.phase = .collecting → s.x1 = s.t → s.rowbufRow.below s.l = true →
      Consistent x ⟨s.rowbufRow, s.dinSymbol⟩
  | .insesi => s.phase = .collecting → s.x1 = s.t → s.x0 < s.build.esiBound → s.x0 ∉ s.seen →
      ∀ b, eqRow s.build.idxgen s.k s.l s.x0 = some b → Consistent x ⟨b, s.dinSymbol⟩
  | .nop | .cfg | .abort | .endStream | .sreset | .sample | .cmbclr | .cmbdin | .cmbsym | .ldsol | .encode | .backsub => True

/-- The same of the next event of the host: if it is a command word, of its command. -/
def NextOffersConsistent (x : Nat → Symbol) (s : State) : Prop :=
  ∀ w rest i, s.pending = .memWrite (cellOffset .cmd) 4 w :: rest → decode w = .ok i → OffersConsistent x i s

/-! ### Runs -/

/-- The states a run of the machine goes through from a state, each step of it offering only rows consistent with the
assignment. -/
inductive ConsistentRun (x : Nat → Symbol) : State → State → Prop where
  | refl (s : State) : ConsistentRun x s s
  | step {s t u : State} : ConsistentRun x s t → NextOffersConsistent x t → Machine.step t = .next u → ConsistentRun x s u

/-- `CMBSYM i` for each index of a list in turn, as the host issues them (42_combiner.md R96). -/
def mixSymbols : List Nat → State → Option State
  | [], s => some s
  | i :: rest, s =>
    match exec .cmbsym { s with arg0 := BitVec.ofNat 32 i } with
    | .next t => mixSymbols rest t
    | .fault _ => none
    | .refused _ => none

end Sys2Proof.Machine
end

