-- ==== Sys2Proof/Certificates/Slice0/Obligations.lean ====
section
/-! DEFINITION. The statements about the model, each with the rule of the spec it formalises. A state names its instance,
`s.build`, so a statement about every state is one about every instance with legal build parameters (00_scope.md R8, R9,
log 1), and the generator `IDXGEN` is whatever function `s.build.idxgen` or the variable `gen` is (log 3). -/

open Sys2Proof Sys2Proof.Machine

/-! ### Command words -/

/-- The 14 command words decode to their commands (30_encoding.md R58). -/
def Obligations.CommandWordsAsTabulated : Prop :=
  decode 0x00000000#32 = .ok .nop ∧ decode 0x00000001#32 = .ok .cfg ∧ decode 0x00000002#32 = .ok .abort ∧
  decode 0x00000003#32 = .ok .endStream ∧ decode 0x00000004#32 = .ok .sreset ∧ decode 0x00000010#32 = .ok .sample ∧
  decode 0x00000020#32 = .ok .cmbclr ∧ decode 0x00000021#32 = .ok .cmbdin ∧ decode 0x00000022#32 = .ok .cmbsym ∧
  decode 0x00000023#32 = .ok .ldsol ∧ decode 0x00000024#32 = .ok .encode ∧ decode 0x00000030#32 = .ok .insrow ∧
  decode 0x00000031#32 = .ok .insesi ∧ decode 0x00000032#32 = .ok .backsub

/-- A word decodes to a command exactly when it is that command's word (30_encoding.md R58, R61): decoding an encoded
command gives it back, and no other word stands for it. -/
def Obligations.DecodeAndEncodeAgree : Prop :=
  ∀ (w : Word) (i : Instr), i.wf = true → (decode w = .ok i ↔ w = encode i)

/-- The decoder rejects a word for its field `ZERO` or for its opcode, and no other word (30_encoding.md R60, R61). -/
def Obligations.DecoderRejectsByName : Prop :=
  ∀ w : Word,
    (decode w = .error .zeroField ↔ 256 ≤ w.toNat) ∧
    (decode w = .error .opcode ↔ w.toNat < 256 ∧
      w.toNat ∉ [0x00, 0x01, 0x02, 0x03, 0x04, 0x10, 0x20, 0x21, 0x22, 0x23, 0x24, 0x30, 0x31, 0x32])

/-! ### The step and the port -/

/-- A step whose event is a write to `CMD` of a word that decodes runs that command (20_memory.md R47, 40_control.md
R67). The step adds the popping of the event and the write's answer `OKAY` (logs 5, 6). -/
def Obligations.StepRunsDecodedCommand : Prop :=
  ∀ (s : State) (w : Word) (rest : List HostEvent) (i : Instr),
    s.pending = .memWrite 0x0000 4 w :: rest → decode w = .ok i →
    step s = exec i { s with pending := rest, response := some (.ofWrite .okay) }

/-- A write to `CMD` of a word with a bit set above bit 7, or whose opcode is not one of the 14, raises `IllegalCommand`
(code 4) and has no effect but the prologue and the report (30_encoding.md R60). -/
def Obligations.StepRejectsIllegalWord : Prop :=
  ∀ (s : State) (w : Word) (rest : List HostEvent),
    s.pending = .memWrite 0x0000 4 w :: rest →
    (256 ≤ w.toNat ∨
      w.toNat ∉ [0x00, 0x01, 0x02, 0x03, 0x04, 0x10, 0x20, 0x21, 0x22, 0x23, 0x24, 0x30, 0x31, 0x32]) →
    step s = .next ({ s with pending := rest, response := some (.ofWrite .okay) }.rejected 4)

/-- With no event of the host the block holds its state (60_exceptions.md R127, 70_reset_and_hazards.md R139). That a
run ends in an idle step is the model's form of it (log 5). -/
def Obligations.IdleStepHoldsState : Prop :=
  ∀ s : State, s.pending = [] → step s = .next s

/-- A read answers and changes nothing else (20_memory.md R47). -/
def Obligations.ReadAnswersAndChangesNothing : Prop :=
  ∀ (s : State) (addr size : Nat) (rest : List HostEvent),
    s.pending = .memRead addr size :: rest →
    ∃ r, step s = .next { s with pending := rest, response := some r } ∧ r = portRead s addr size ∧
      portRead { s with pending := rest, response := some r } addr size = r

/-- Every cell has its own offset, and an offset is mapped exactly when it is some cell's (20_memory.md R42). -/
def Obligations.AddressMapIsOneToOne : Prop :=
  ∀ b : Build,
    (∀ c : Cell, c.wf b = true → cellAt b (cellOffset c) = some c) ∧
    (∀ (off : Nat) (c : Cell), cellAt b off = some c → c.wf b = true ∧ cellOffset c = off ∧ off % 4 = 0 ∧ off < 0x3000)

/-- What a 32-bit read returns at each mapped offset (20_memory.md R42): the registers zero-extended, the words of
`ROWBUF`, `RECMAP`, `DIN` and `DOUT`, and `SLVERR` for the write-only `CMD`. -/
def Obligations.CellsReadAtTheirOffsets : Prop :=
  ∀ s : State,
    portRead s 0x0000 4 = .ofRead .slverr 0 ∧
    portRead s 0x0004 4 = .ofRead .okay s.statusWord ∧
    portRead s 0x0008 4 = .ofRead .okay (s.rank.setWidth 32) ∧
    portRead s 0x000C 4 = .ofRead .okay (s.err.setWidth 32) ∧
    portRead s 0x0010 4 = .ofRead .okay s.esticky ∧
    portRead s 0x0014 4 = .ofRead .okay s.einfo0 ∧
    portRead s 0x0018 4 = .ofRead .okay s.einfo1 ∧
    portRead s 0x001C 4 = .ofRead .okay s.result ∧
    portRead s 0x0020 4 = .ofRead .okay s.arg0 ∧
    portRead s 0x0024 4 = .ofRead .okay s.arg1 ∧
    portRead s 0x0028 4 = .ofRead .okay s.arg2 ∧
    portRead s 0x002C 4 = .ofRead .okay (s.kreg.setWidth 32) ∧
    portRead s 0x0030 4 = .ofRead .okay (s.lreg.setWidth 32) ∧
    portRead s 0x0034 4 = .ofRead .okay (s.treg.setWidth 32) ∧
    (∀ w, w < s.build.rowWords → portRead s (0x0100 + 4 * w) 4 = .ofRead .okay (wordAt s.rowbuf w)) ∧
    (∀ w, w < s.build.rowWords → portRead s (0x0200 + 4 * w) 4 = .ofRead .okay (s.recWord w)) ∧
    (∀ w, w < s.build.symWords → portRead s (0x1000 + 4 * w) 4 = .ofRead .okay (wordAt s.din w)) ∧
    (∀ w, w < s.build.symWords → portRead s (0x2000 + 4 * w) 4 = .ofRead .okay (s.doutWord w))

/-- A transaction is legal when it is 32 bits wide, aligned, on a mapped cell and within the cell's access right; a legal
one answers `OKAY`, an illegal read 0 with `SLVERR`, an illegal write `SLVERR`, and an illegal one changes nothing
(20_memory.md R41, R45, 60_exceptions.md R129). -/
def Obligations.PortAnswersTransactions : Prop :=
  ∀ (s : State) (addr size : Nat) (v : Word) (rest : List HostEvent),
    (s.pending = .memRead addr size :: rest →
      ((size = 4 ∧ addr % 4 = 0 ∧ ∃ c, cellAt s.build addr = some c ∧ hostReads c) →
        ∃ d, step s = .next { s with pending := rest, response := some (.ofRead .okay d) }) ∧
      (¬ (size = 4 ∧ addr % 4 = 0 ∧ ∃ c, cellAt s.build addr = some c ∧ hostReads c) →
        step s = .next { s with pending := rest, response := some (.ofRead .slverr 0) })) ∧
    (s.pending = .memWrite addr size v :: rest →
      ((size = 4 ∧ addr % 4 = 0 ∧ ∃ c, cellAt s.build addr = some c ∧ hostWrites c) →
        ∃ t, step s = .next t ∧ t.pending = rest ∧ t.response = some (.ofWrite .okay)) ∧
      (¬ (size = 4 ∧ addr % 4 = 0 ∧ ∃ c, cellAt s.build addr = some c ∧ hostWrites c) →
        step s = .next { s with pending := rest, response := some (.ofWrite .slverr) }))

/-- A write to `ARGn`, `ROWBUF[w]` or `DIN[w]` stores all 32 bits, a read of the cell then returns them, every other cell
reads as before, no command runs and nothing of the block's other state changes (20_memory.md R46, R47). -/
def Obligations.WritesStoreTheWord : Prop :=
  ∀ (s : State) (c : Cell) (v : Word) (rest : List HostEvent),
    c.wf s.build = true → hostWrites c → c ≠ .cmd → s.pending = .memWrite (cellOffset c) 4 v :: rest →
    ∃ t, step s = .next t ∧ portRead t (cellOffset c) 4 = .ofRead .okay v ∧
      (∀ c', c' ≠ c → readCell t c' = readCell s c') ∧
      t = { s with arg0 := t.arg0, arg1 := t.arg1, arg2 := t.arg2, rowbuf := t.rowbuf, din := t.din
                   pending := rest, response := some (.ofWrite .okay) }

/-- The fields of `STATUS` and the codes of `STATE` in it (10_state.md R16, R21). -/
def Obligations.StatusWordLayout : Prop :=
  ∀ s : State,
    s.statusWord.toNat % 8 = (match s.phase with
      | .unconfigured => 0 | .collecting => 1 | .solvable => 2 | .recovered => 3 | .aborted => 4) ∧
    s.statusWord.getLsbD 3 = s.absorbed ∧ s.statusWord.getLsbD 4 = s.dup ∧ s.statusWord.getLsbD 5 = s.ignored ∧
    ∀ i, 6 ≤ i → s.statusWord.getLsbD i = false

/-- `DOUT[w]` returns the bytes `4w .. 4w+3` of `ACC`, byte `4w` the least significant, every byte at a position `>= T`
zero, and zero in state U (20_memory.md R43, R49). -/
def Obligations.DoutWindowShowsAcc : Prop :=
  ∀ (s : State) (w i : Nat), i < 4 →
    (s.doutWord w).extractLsb' (8 * i) 8 =
      if s.phase ≠ .unconfigured ∧ 4 * w + i < s.t then s.acc.extractLsb' (8 * (4 * w + i)) 8 else 0

/-- A command that takes a symbol from `DIN` takes the bytes `DIN[0 .. T-1]`, byte `i` from bits `8(i mod 4)+7 ..
8(i mod 4)` of word `i div 4`, and ignores the bytes from `T` on (20_memory.md R43, R48). -/
def Obligations.DinSymbolTakesTBytes : Prop :=
  ∀ (s : State) (i : Nat), i < s.build.symMax →
    s.dinSymbol.extractLsb' (8 * i) 8 =
      if i < s.t then (wordAt s.din (i / 4)).extractLsb' (8 * (i % 4)) 8 else 0

/-- Column `c` is bit `c mod 32` of word `c div 32`, in `ROWBUF` and in `RECMAP` (20_memory.md R44). -/
def Obligations.RowBitsLittleEndian : Prop :=
  ∀ (s : State) (c : Nat), c < s.build.lMax →
    s.rowbufRow.getLsbD c = (wordAt s.rowbuf (c / 32)).getLsbD (c % 32) ∧
    s.recFlags.getLsbD c = (s.recWord (c / 32)).getLsbD (c % 32)

/-! ### Reset and the invariant -/

/-- After hardware reset of an instance, the first one or any later one, every piece of state but `DIN` and `ROWBUF` has
its reset value; `SRESET` gives the same with `DIN` and `ROWBUF` kept; both leave the instance as it was built
(70_reset_and_hazards.md R130, 10_state.md R36, 00_scope.md R8). The machine starts as the default instance (log 1). -/
def Obligations.ResetGivesResetValues : Prop :=
  State.reset = State.afterReset Config.build 0 ∧
  (∀ (b : Build) (n : Nat), (State.afterReset b n).HasResetValues ∧ (State.afterReset b n).build = b) ∧
  (∀ (s : State) (rest : List HostEvent), s.pending = .hardReset :: rest →
    ∃ t, step s = .next t ∧ t.HasResetValues ∧ t.build = s.build ∧ t.pending = rest) ∧
  (∀ s : State, ∃ t, exec .sreset s = .next t ∧ t.HasResetValues ∧ t.build = s.build ∧ t.din = s.din ∧ t.rowbuf = s.rowbuf)

/-- The invariant holds right after reset, of every instance (10_state.md R35). -/
def Obligations.ResetMeetsInvariant : Prop := State.reset.Inv ∧ ∀ (b : Build) (n : Nat), (State.afterReset b n).Inv

/-- Every step from a state that meets the invariant leads to one that meets it (10_state.md R35). -/
def Obligations.StepKeepsInvariant : Prop :=
  ∀ s t : State, s.Inv → step s = .next t → t.Inv

/-- Every step answers a next state, of the same instance: FFG2 never halts, no command or transaction ends in a fault or
a refusal (70_reset_and_hazards.md R139), and the build parameters never change at run time (00_scope.md R8). -/
def Obligations.EveryStepAnswers : Prop := ∀ s : State, ∃ t, step s = .next t ∧ t.build = s.build

/-! ### Rules about every command -/

/-- The transition relation of `STATE`, each row of 40_control.md R74 both ways: from a state that meets the invariant, the
`STATE` a command leaves is the one the table gives, given by the command, the `STATE` before it, whether the operands of
`CFG` are legal and whether `RANK` is `L` afterwards; every command and state not in the table leaves `STATE` unchanged;
and hardware reset leads to U. -/
def Obligations.StateTransitionRelation : Prop :=
  (∀ (i : Instr) (s t : State), s.Inv → exec i s = .next t →
    t.phase =
      match i, s.phase with
      | .cfg, .unconfigured | .cfg, .recovered | .cfg, .aborted =>
        if 4 ≤ s.x0 ∧ s.x0 ≤ 256 ∧ s.x0 < s.x1 ∧ s.x1 ≤ s.build.lMax ∧ 1 ≤ s.x2 ∧ s.x2 ≤ s.build.symMax then .collecting
        else s.phase
      | .insrow, .collecting => if t.rank = t.lreg then .solvable else .collecting
      | .insesi, .collecting => if t.rank = t.lreg then .recovered else .collecting
      | .backsub, .solvable => .recovered
      | .abort, .collecting | .abort, .solvable => .aborted
      | .sreset, _ => .unconfigured
      | _, p => p) ∧
  ∀ (s t : State) (rest : List HostEvent), s.pending = .hardReset :: rest → step s = .next t → t.phase = .unconfigured

/-- Which commands write each piece of state, as listed; a command not listed for an item leaves it unchanged
(10_state.md R37). The host's side of the port is written by no command. -/
def Obligations.WritersOfState : Prop :=
  ∀ (i : Instr) (s t : State), exec i s = .next t →
    (i ∉ [.cfg, .abort, .insrow, .insesi, .backsub, .sreset] → t.phase = s.phase) ∧
    (i ∉ [.cfg, .sreset] → t.kreg = s.kreg ∧ t.lreg = s.lreg ∧ t.treg = s.treg) ∧
    (i ∉ [.insrow, .insesi, .cfg, .abort, .sreset] → t.rank = s.rank) ∧
    (i ∉ [.insrow, .insesi] → t.absorbed = false) ∧
    (i ≠ .insesi → t.dup = false) ∧
    (i ∉ [.abort, .endStream, .insrow, .insesi, .backsub] → t.ignored = false) ∧
    (i ∉ [.endStream, .sample, .encode, .insrow, .insesi, .backsub] → t.result = 0) ∧
    (t.err = 0 → i ≠ .sreset → t.esticky = s.esticky) ∧
    (t.err ≠ 2 → i ≠ .sreset → t.einfo0 = s.einfo0 ∧ t.einfo1 = s.einfo1) ∧
    (i ≠ .sreset → t.arg0 = s.arg0 ∧ t.arg1 = s.arg1 ∧ t.arg2 = s.arg2) ∧
    (i ∉ [.insrow, .insesi, .backsub, .cfg, .abort, .sreset] → t.pivot = s.pivot) ∧
    (i ∉ [.insesi, .cfg, .abort, .sreset] → t.seen = s.seen) ∧
    (i ∉ [.insesi, .backsub, .cfg, .abort, .sreset] → t.recFlags = s.recFlags) ∧
    (i ∉ [.cmbclr, .cmbdin, .cmbsym, .ldsol, .encode, .cfg, .sreset] → t.acc = s.acc) ∧
    t.build = s.build ∧ t.din = s.din ∧ t.rowbuf = s.rowbuf ∧
    t.resets = s.resets ∧ t.pending = s.pending ∧ t.response = s.response

/-- A command that raises changes exactly the prologue's registers, `ERR`, the one bit of `ESTICKY` that its code names,
and for `InsufficientSymbols` the two `EINFO` registers (60_exceptions.md R120). -/
def Obligations.RaiseChangesOnlyTheReport : Prop :=
  ∀ (i : Instr) (s t : State), exec i s = .next t → t.err ≠ 0 →
    t = { s.rejected t.err with
          einfo0 := if t.err = 2 then s.rank.setWidth 32 else s.einfo0
          einfo1 := if t.err = 2 then s.lreg.setWidth 32 else s.einfo1 }

/-- The admission table holds (40_control.md R68): in an `X` cell the command raises `IllegalCommand` and does nothing
else; in an `I` cell it raises `InvalidParameters` or does nothing but set `IGNORED` and, except `ABORT`, return `RANK`;
in an `E` cell it neither is ignored nor raises `IllegalCommand`. -/
def Obligations.AdmissionTableHolds : Prop :=
  ∀ (i : Instr) (cells : List Admission) (col : Nat) (s : State) (a : Admission),
    (i, cells) ∈ admissionTable → admissionColumns[col]? = some s.phase → cells[col]? = some a →
    match a with
    | .illegal => exec i s = .next (s.rejected 4)
    | .ignored => exec i s = .next (s.rejected 1) ∨
        exec i s = .next { s.completed (if i = .abort then 0 else s.rank.setWidth 32) with ignored := true }
    | .executes => ∃ t, exec i s = .next t ∧ t.ignored = false ∧ t.err ≠ 4

/-- `ESTICKY` records each condition raised, and no command but `SRESET` clears a bit of it; the block sets only the bits
1, 2 and 4 (10_state.md R24). -/
def Obligations.StickyBitsRecordConditions : Prop :=
  ∀ (i : Instr) (s t : State), exec i s = .next t → i ≠ .sreset → ∀ n,
    t.esticky.getLsbD n = (s.esticky.getLsbD n || decide (t.err.toNat = n ∧ (n = 1 ∨ n = 2 ∨ n = 4)))

/-- `InsufficientSymbols` is raised by `END` in C and by nothing else, and carries `RANK` and `L`; the block never raises
`PrecodeFailure` (60_exceptions.md R118, R119). -/
def Obligations.SourcesOfInsufficientSymbols : Prop :=
  ∀ (i : Instr) (s t : State), exec i s = .next t →
    t.err ≠ 3 ∧
    (t.err = 2 ↔ i = .endStream ∧ s.phase = .collecting) ∧
    (t.err = 2 → t.einfo0.toNat = s.rank.toNat ∧ t.einfo1.toNat = s.l ∧ t.phase = .collecting ∧ t.rank = s.rank)

/-- The complete list of the causes of `InvalidParameters`, for a command the state admits (60_exceptions.md R117): an
invalid `IDXGEN` answer is one for which `eqRow` is nothing (41_sampler.md R85, R87). -/
def Obligations.CausesOfInvalidParameters : Prop :=
  ∀ (i : Instr) (s t : State), exec i s = .next t →
    (t.err = 1 ↔
      (i = .cfg ∧ (s.phase = .unconfigured ∨ s.phase = .recovered ∨ s.phase = .aborted) ∧
        (s.x0 < 4 ∨ 256 < s.x0 ∨ s.x1 ≤ s.x0 ∨ s.build.lMax < s.x1 ∨ s.x2 = 0 ∨ s.build.symMax < s.x2)) ∨
      (i = .sample ∧ (s.x0 < 4 ∨ 256 < s.x0)) ∨
      (i = .cmbdin ∧ s.phase ≠ .unconfigured ∧ s.x1 ≠ s.t) ∨
      ((i = .cmbsym ∨ i = .ldsol) ∧ s.phase = .recovered ∧ s.l ≤ s.x0) ∨
      (i = .encode ∧ s.phase = .recovered ∧
        (s.build.esiBound ≤ s.x0 ∨ eqRow s.build.idxgen s.k s.l s.x0 = none)) ∨
      (i = .insrow ∧ s.phase ≠ .unconfigured ∧
        (s.x1 ≠ s.t ∨ ∃ j, s.l ≤ j ∧ s.rowbufRow.getLsbD j = true)) ∨
      (i = .insesi ∧ s.phase ≠ .unconfigured ∧
        (s.build.esiBound ≤ s.x0 ∨ s.x1 ≠ s.t ∨
          (s.phase = .collecting ∧ s.x0 ∉ s.seen ∧ eqRow s.build.idxgen s.k s.l s.x0 = none))))

/-- A command's outcome does not depend on the flags, `RESULT` and `ERR` that the command before it left: the prologue
clears them, and no command reads them (40_control.md R67, 10_state.md R21). -/
def Obligations.OutcomeIgnoresEarlierReport : Prop :=
  ∀ (i : Instr) (s : State) (a d g : Bool) (r : Word) (e : BitVec 3),
    exec i { s with absorbed := a, dup := d, ignored := g, result := r, err := e } = exec i s

/-! ### The control commands -/

/-- `NOP` clears the flags, `RESULT` and `ERR`, and nothing else (40_control.md R69). -/
def Obligations.NopClearsReport : Prop :=
  encode .nop = 0x00000000#32 ∧ ∀ s : State, exec .nop s = .next (s.completed 0)

/-- `CFG` loads `K`, `L` and `T` at their full value and starts with an empty system, `ACC = 0^T` and state C; it raises
`InvalidParameters` on an operand out of range and `IllegalCommand` in C and S (40_control.md R70). -/
def Obligations.CfgStartsTransfer : Prop :=
  encode .cfg = 0x00000001#32 ∧ ∀ s : State,
    ((s.phase = .collecting ∨ s.phase = .solvable) → exec .cfg s = .next (s.rejected 4)) ∧
    ((s.phase = .unconfigured ∨ s.phase = .recovered ∨ s.phase = .aborted) →
      ((s.x0 < 4 ∨ 256 < s.x0 ∨ s.x1 ≤ s.x0 ∨ s.build.lMax < s.x1 ∨ s.x2 = 0 ∨ s.build.symMax < s.x2) →
        exec .cfg s = .next (s.rejected 1)) ∧
      ((4 ≤ s.x0 ∧ s.x0 ≤ 256 ∧ s.x0 < s.x1 ∧ s.x1 ≤ s.build.lMax ∧ 1 ≤ s.x2 ∧ s.x2 ≤ s.build.symMax) →
        ∃ t, exec .cfg s = .next t ∧ t.k = s.x0 ∧ t.l = s.x1 ∧ t.t = s.x2 ∧
          t = { s.completed 0 with
                kreg := t.kreg, lreg := t.lreg, treg := t.treg
                pivot := noPivots, recFlags := 0, seen := [], rank := 0, acc := 0, phase := .collecting } ∧
          ∀ c, pivotAt t.pivot c = none))

/-- `ABORT` in C and S releases the rows, `RANK`, `SEEN` and `REC` and enters A, keeping `KREG`, `LREG`, `TREG` and `ACC`;
in U, R and A it only sets `IGNORED` (40_control.md R71). -/
def Obligations.AbortReleasesSystem : Prop :=
  encode .abort = 0x00000002#32 ∧ ∀ s : State,
    ((s.phase = .collecting ∨ s.phase = .solvable) →
      exec .abort s = .next
        { s.completed 0 with pivot := noPivots, recFlags := 0, seen := [], rank := 0, phase := .aborted }) ∧
    ((s.phase = .unconfigured ∨ s.phase = .recovered ∨ s.phase = .aborted) →
      exec .abort s = .next { s.completed 0 with ignored := true })

/-- `END` in C raises `InsufficientSymbols` with `RANK` and `L`, and `STATE` stays C; in S, R and A it sets `IGNORED` and
returns `RANK`; in U it raises `IllegalCommand` (40_control.md R72). -/
def Obligations.EndReportsInsufficientSymbols : Prop :=
  encode .endStream = 0x00000003#32 ∧ ∀ s : State,
    (s.phase = .collecting →
      exec .endStream s = .next
        { s.rejected 2 with einfo0 := s.rank.setWidth 32, einfo1 := s.lreg.setWidth 32 }) ∧
    ((s.phase = .solvable ∨ s.phase = .recovered ∨ s.phase = .aborted) →
      exec .endStream s = .next { s.completed (s.rank.setWidth 32) with ignored := true }) ∧
    (s.phase = .unconfigured → exec .endStream s = .next (s.rejected 4))

/-- `SRESET` is admitted in every state, gives every piece of state the value it has after hardware reset and keeps `DIN`
and `ROWBUF` (40_control.md R73); the instance and the host's side of the port stay (logs 1, 5). -/
def Obligations.SresetRestoresResetState : Prop :=
  ∀ s : State,
    exec .sreset s = .next
      { State.reset with
        build := s.build, din := s.din, rowbuf := s.rowbuf, resets := s.resets, pending := s.pending, response := s.response }

/-! ### The sampler -/

/-- `SAMPLE` returns the lesser of `K` and the degree of the least table row whose breakpoint lies above the low 20 bits
of the draw, and raises `InvalidParameters` for `K` outside 4..256, in every state (41_sampler.md R82). -/
def Obligations.SampleLooksUpDegree : Prop :=
  encode .sample = 0x00000010#32 ∧ ∀ s : State,
    ((s.x0 < 4 ∨ 256 < s.x0) → exec .sample s = .next (s.rejected 1)) ∧
    ((4 ≤ s.x0 ∧ s.x0 ≤ 256) →
      ∃ (j : Nat) (r : DegRow), s.build.degTable[j]? = some r ∧ s.x1 % 2 ^ 20 < r.breakpoint ∧
        (∀ j' r', j' < j → s.build.degTable[j']? = some r' → r'.breakpoint ≤ s.x1 % 2 ^ 20) ∧
        exec .sample s = .next (s.completed (BitVec.ofNat 32 (min r.degree s.x0))))

/-- Properties of `Sample` (41_sampler.md R83): over every legal degree table the range `1 .. K` and the dependence on the
low 20 bits alone; over the default table, which is general knowledge and no rule of a source (log 2), also that it does
not decrease with the draw, and the values it takes. -/
def Obligations.SampleProperties : Prop :=
  ∀ (b : Build) (k : Nat) (rv rv' : Word), 4 ≤ k → k ≤ 256 →
    1 ≤ sampleDegree b.degTable k rv ∧ sampleDegree b.degTable k rv ≤ k ∧
    sampleDegree b.degTable k rv = sampleDegree b.degTable k (BitVec.ofNat 32 (rv.toNat % 2 ^ 20)) ∧
    (b.degTable = Config.params.degTable →
      (rv.toNat % 2 ^ 20 ≤ rv'.toNat % 2 ^ 20 → sampleDegree b.degTable k rv ≤ sampleDegree b.degTable k rv') ∧
      sampleDegree b.degTable k rv ∈ [1, 2, 3, 4, min 10 k, min 11 k, min 40 k])

/-! ### The combiner -/

/-- `CMBCLR` sets `ACC` to zero, and is illegal in U (42_combiner.md R90). -/
def Obligations.CmbclrClearsAcc : Prop :=
  encode .cmbclr = 0x00000020#32 ∧ ∀ s : State,
    (s.phase = .unconfigured → exec .cmbclr s = .next (s.rejected 4)) ∧
    (s.phase ≠ .unconfigured → exec .cmbclr s = .next { s.completed 0 with acc := 0 })

/-- `CMBDIN` XORs `DIN[0 .. T-1]` into `ACC`; with a length other than `T` it raises `InvalidParameters`; issued twice
with the same `DIN` it restores `ACC` (42_combiner.md R91). -/
def Obligations.CmbdinMixesDin : Prop :=
  encode .cmbdin = 0x00000021#32 ∧ ∀ s : State,
    (s.phase = .unconfigured → exec .cmbdin s = .next (s.rejected 4)) ∧
    (s.phase ≠ .unconfigured →
      (s.x1 ≠ s.t → exec .cmbdin s = .next (s.rejected 1)) ∧
      (s.x1 = s.t →
        ∃ t u, exec .cmbdin s = .next t ∧ t = { s.completed 0 with acc := s.acc ^^^ s.dinSymbol } ∧
          exec .cmbdin t = .next u ∧ u.acc = s.acc))

/-- `CMBSYM` XORs `SOL[idx]` into `ACC` in R; `idx >= L` raises `InvalidParameters`, and outside R it raises
`IllegalCommand` (42_combiner.md R92). -/
def Obligations.CmbsymMixesSolution : Prop :=
  encode .cmbsym = 0x00000022#32 ∧ ∀ s : State,
    (s.phase ≠ .recovered → exec .cmbsym s = .next (s.rejected 4)) ∧
    (s.phase = .recovered →
      (s.l ≤ s.x0 → exec .cmbsym s = .next (s.rejected 1)) ∧
      (s.x0 < s.l → exec .cmbsym s = .next { s.completed 0 with acc := s.acc ^^^ solAt s.pivot s.x0 }))

/-- `LDSOL` loads `SOL[idx]` into `ACC` in R; `idx >= L` raises `InvalidParameters`, and outside R it raises
`IllegalCommand` (42_combiner.md R93). -/
def Obligations.LdsolLoadsSolution : Prop :=
  encode .ldsol = 0x00000023#32 ∧ ∀ s : State,
    (s.phase ≠ .recovered → exec .ldsol s = .next (s.rejected 4)) ∧
    (s.phase = .recovered →
      (s.l ≤ s.x0 → exec .ldsol s = .next (s.rejected 1)) ∧
      (s.x0 < s.l → exec .ldsol s = .next { s.completed 0 with acc := solAt s.pivot s.x0 }))

/-- `ENCODE` returns source symbol `esi` unchanged with degree 1 for `esi < K`, whatever `IDXGEN` is; `esi >= ESI_BOUND`
raises `InvalidParameters`, and outside R it raises `IllegalCommand` (42_combiner.md R94, first branch). -/
def Obligations.EncodeIsSystematic : Prop :=
  ∀ s : State,
    (s.phase ≠ .recovered → exec .encode s = .next (s.rejected 4)) ∧
    (s.phase = .recovered →
      (s.build.esiBound ≤ s.x0 → exec .encode s = .next (s.rejected 1)) ∧
      (s.x0 < s.build.esiBound → s.x0 < s.k →
        exec .encode s = .next { s.completed 1 with acc := solAt s.pivot s.x0 }))

/-- `ENCODE` of `esi >= K` with any generator: a valid answer `(d, I)` gives the XOR of the solved symbols at `I` and
returns `d`; an answer that is not valid raises `InvalidParameters` and leaves `ACC` (42_combiner.md R94, 41_sampler.md
R85). The command the machine executes is the one with the generator of its instance. -/
def Obligations.EncodeCombinesGeneratedIndices : Prop :=
  (∀ s : State, exec .encode s = command .encode (encodeRule s.build.idxgen) s) ∧
  ∀ (gen : IdxGen) (s : State), s.phase = .recovered → s.k ≤ s.x0 → s.x0 < s.build.esiBound →
    let a := gen s.k s.l s.x0
    ((1 ≤ a.degree ∧ a.degree ≤ s.l ∧ a.indices.length = a.degree ∧ (∀ i ∈ a.indices, i < s.l) ∧ a.indices.Nodup) →
      command .encode (encodeRule gen) s = .next
        { s.completed (BitVec.ofNat 32 a.degree) with acc := xorOver (solAt s.pivot) a.indices }) ∧
    (¬ (1 ≤ a.degree ∧ a.degree ≤ s.l ∧ a.indices.length = a.degree ∧ (∀ i ∈ a.indices, i < s.l) ∧ a.indices.Nodup) →
      command .encode (encodeRule gen) s = .next (s.rejected 1))

/-- In both branches of `ENCODE`, `ACC` is the XOR of `SOL[c]` over the columns of `EqRow(esi)` (42_combiner.md R94,
41_sampler.md R87). -/
def Obligations.EncodeFollowsEquation : Prop :=
  ∀ (gen : IdxGen) (s t : State) (b : RowBits), s.Inv → s.phase = .recovered → s.x0 < s.build.esiBound →
    eqRow gen s.k s.l s.x0 = some b → command .encode (encodeRule gen) s = .next t →
    t.err = 0 ∧ t.acc = combination b (solAt s.pivot)

/-- Two instances in R with the same `ESI_BOUND`, `K`, `L`, solved symbols and operand give, with the same generator, the
same `RESULT` and `ERR` for `ENCODE` and the same `ACC` where it succeeds, whatever else differs (42_combiner.md R95,
60_exceptions.md R128). -/
def Obligations.EncodeDependsOnlyOnSolution : Prop :=
  ∀ (gen : IdxGen) (s s' t t' : State), s.phase = .recovered → s'.phase = .recovered →
    s.build.esiBound = s'.build.esiBound →
    s.kreg = s'.kreg → s.lreg = s'.lreg → s.k ≤ s.l → (∀ c, c < s.l → solAt s.pivot c = solAt s'.pivot c) →
    s.arg0 = s'.arg0 →
    command .encode (encodeRule gen) s = .next t → command .encode (encodeRule gen) s' = .next t' →
    t.result = t'.result ∧ t.err = t'.err ∧ (t.err = 0 → t.acc = t'.acc)

/-- `CMBCLR` and then `CMBSYM` for each index of a list leaves `ACC` the XOR of the solved symbols at the list, in any
order of the list; if the list is a valid answer of the generator, that is the `ACC` of `ENCODE` (42_combiner.md R96). -/
def Obligations.StreamingMatchesEncode : Prop :=
  ∀ (gen : IdxGen) (s : State) (columns columns' : List Nat), s.phase = .recovered →
    (∀ c ∈ columns, c < s.l) → columns'.Perm columns →
    ∃ t u, exec .cmbclr s = .next t ∧ mixSymbols columns' t = some u ∧
      u.acc = xorOver (solAt s.pivot) columns ∧
      ∀ v, s.k ≤ s.x0 → s.x0 < s.build.esiBound → columns = (gen s.k s.l s.x0).indices →
        answerValid s.l (gen s.k s.l s.x0) = true → command .encode (encodeRule gen) s = .next v → v.acc = u.acc

/-! ### The solver -/

/-- `INSROW` (43_solver.md R103): illegal in U; `InvalidParameters` for a length other than `T` or a bit at a column
`>= L`; ignored with `RESULT = RANK` in S, R and A; in C the row of `ROWBUF` and `DIN` goes through the loop of
`TryInsert`, and full rank leads to S. -/
def Obligations.InsrowInsertsRow : Prop :=
  encode .insrow = 0x00000030#32 ∧ ∀ s : State,
    (s.phase = .unconfigured → exec .insrow s = .next (s.rejected 4)) ∧
    (s.phase ≠ .unconfigured →
      ((s.x1 ≠ s.t ∨ ∃ j, s.l ≤ j ∧ s.rowbufRow.getLsbD j = true) → exec .insrow s = .next (s.rejected 1)) ∧
      ((s.x1 = s.t ∧ ∀ j, s.l ≤ j → s.rowbufRow.getLsbD j = false) →
        (s.phase ≠ .collecting →
          exec .insrow s = .next { s.completed (s.rank.setWidth 32) with ignored := true }) ∧
        (s.phase = .collecting →
          (∀ c r, insertLoop s.pivot s.l ⟨s.rowbufRow, s.dinSymbol⟩ = some (c, r) →
            exec .insrow s = .next
              { s.completed ((s.rank + 1).setWidth 32) with
                absorbed := true, pivot := setPivot s.pivot c r, rank := s.rank + 1
                phase := if s.rank + 1 = s.lreg then .solvable else .collecting }) ∧
          (insertLoop s.pivot s.l ⟨s.rowbufRow, s.dinSymbol⟩ = none →
            exec .insrow s = .next
              { s.completed (s.rank.setWidth 32) with
                phase := if s.rank = s.lreg then .solvable else .collecting }))))

/-- `INSESI` where no generator is asked (43_solver.md R104): illegal in U; `InvalidParameters` for `esi >= ESI_BOUND` or
a length other than `T`; ignored in S, R and A; a duplicate by `esi` alone changes nothing but `DUP` and `RESULT`; and
for a new `esi < K` that does not complete the system, the row `unit(esi)` with the payload goes through the loop and
`SEEN[esi]` is set. -/
def Obligations.InsesiTakesSystematicSymbol : Prop :=
  (∀ (e d : Nat) (seen : List Nat), d ∈ addSeen e seen ↔ d = e ∨ d ∈ seen) ∧
  ∀ s : State,
    (s.phase = .unconfigured → exec .insesi s = .next (s.rejected 4)) ∧
    (s.phase ≠ .unconfigured →
      ((s.build.esiBound ≤ s.x0 ∨ s.x1 ≠ s.t) → exec .insesi s = .next (s.rejected 1)) ∧
      ((s.x0 < s.build.esiBound ∧ s.x1 = s.t) →
        (s.phase ≠ .collecting →
          exec .insesi s = .next { s.completed (s.rank.setWidth 32) with ignored := true }) ∧
        (s.phase = .collecting →
          (s.x0 ∈ s.seen → exec .insesi s = .next { s.completed (s.rank.setWidth 32) with dup := true }) ∧
          (s.x0 ∉ s.seen → s.x0 < s.k →
            (∀ c r, insertLoop s.pivot s.l ⟨unitRow s.x0, s.dinSymbol⟩ = some (c, r) → s.rank + 1 ≠ s.lreg →
              exec .insesi s = .next
                { s.completed ((s.rank + 1).setWidth 32) with
                  absorbed := true, pivot := setPivot s.pivot c r, rank := s.rank + 1
                  seen := addSeen s.x0 s.seen }) ∧
            (insertLoop s.pivot s.l ⟨unitRow s.x0, s.dinSymbol⟩ = none → s.rank ≠ s.lreg →
              exec .insesi s = .next
                { s.completed (s.rank.setWidth 32) with
                  seen := addSeen s.x0 s.seen })))))

/-- `INSESI` of a new `esi` in C with any generator (43_solver.md R104): no equation raises `InvalidParameters` and
`SEEN[esi]` stays; an equation marks `SEEN[esi]`, goes through the loop with the payload, and the insertion that brings
`RANK` to `L` back-substitutes within the command and leads to R. The command the machine executes is the one with the
generator of its instance. -/
def Obligations.InsesiInsertsEquation : Prop :=
  (∀ s : State, exec .insesi s = command .insesi (insesiRule s.build.idxgen) s) ∧
  ∀ (gen : IdxGen) (s : State), s.phase = .collecting → s.x0 < s.build.esiBound → s.x1 = s.t →
    s.x0 ∉ s.seen → s.rank ≠ s.lreg →
    (eqRow gen s.k s.l s.x0 = none → command .insesi (insesiRule gen) s = .next (s.rejected 1)) ∧
    (∀ b, eqRow gen s.k s.l s.x0 = some b →
      (insertLoop s.pivot s.l ⟨b, s.dinSymbol⟩ = none →
        command .insesi (insesiRule gen) s = .next
          { s.completed (s.rank.setWidth 32) with seen := addSeen s.x0 s.seen }) ∧
      (∀ c r, insertLoop s.pivot s.l ⟨b, s.dinSymbol⟩ = some (c, r) →
        (s.rank + 1 ≠ s.lreg →
          command .insesi (insesiRule gen) s = .next
            { s.completed ((s.rank + 1).setWidth 32) with
              absorbed := true, pivot := setPivot s.pivot c r, rank := s.rank + 1
              seen := addSeen s.x0 s.seen }) ∧
        (s.rank + 1 = s.lreg →
          command .insesi (insesiRule gen) s = .next
            { s.completed ((s.rank + 1).setWidth 32) with
              absorbed := true, pivot := backSubLoop s.l s.l (setPivot s.pivot c r), rank := s.rank + 1
              seen := addSeen s.x0 s.seen
              recFlags := s.recFlags ||| columnsBelow s.l, phase := .recovered })))

/-- `BACKSUB` in S back-substitutes, sets every `REC[c]` with `c < L` and no other, enters R and returns `RANK`; in R it is
ignored and returns `RANK`; in U, C and A it raises `IllegalCommand` (43_solver.md R105). -/
def Obligations.BacksubRecovers : Prop :=
  encode .backsub = 0x00000032#32 ∧ ∀ s : State,
    (s.phase = .solvable →
      ∃ t, exec .backsub s = .next t ∧
        t = { s.completed (s.rank.setWidth 32) with
              pivot := backSubLoop s.l s.l s.pivot, recFlags := t.recFlags, phase := .recovered } ∧
        ∀ c, t.recFlags.getLsbD c = (s.recFlags.getLsbD c || decide (c < s.l ∧ c < Config.lCap))) ∧
    (s.phase = .recovered →
      exec .backsub s = .next { s.completed (s.rank.setWidth 32) with ignored := true }) ∧
    ((s.phase = .unconfigured ∨ s.phase = .collecting ∨ s.phase = .aborted) →
      exec .backsub s = .next (s.rejected 4))

/-- The loop of `TryInsert` as its pseudocode has it, for a row with no bit at a column `>= L` (43_solver.md R100): an
empty row is discarded; with `c` the lowest set bit, a row over a valid `PIVOT[c]` is XORed with it and goes on, and a row
over a free column is the new pivot there. That the `L` passes the model gives the loop are enough is 43_solver.md R101
(log 10). -/
def Obligations.InsertionLoopUnfolds : Prop :=
  ∀ (s : State) (r : Row), s.Inv → (∀ j, s.l ≤ j → r.bits.getLsbD j = false) →
    (r.bits = 0 → insertLoop s.pivot s.l r = none) ∧
    ∀ c, r.bits.getLsbD c = true → (∀ j, j < c → r.bits.getLsbD j = false) →
      (∀ q, pivotAt s.pivot c = some q →
        insertLoop s.pivot s.l r = insertLoop s.pivot s.l ⟨r.bits ^^^ q.bits, r.val ^^^ q.val⟩) ∧
      (pivotAt s.pivot c = none → insertLoop s.pivot s.l r = some (c, r))

/-- `TryInsert` discards a row exactly when its bit-vector is in the span of the rows stored (43_solver.md R106). -/
def Obligations.InsertionDecidesSpan : Prop :=
  ∀ (s : State) (r : Row), s.Inv → (∀ j, s.l ≤ j → r.bits.getLsbD j = false) →
    (insertLoop s.pivot s.l r = none ↔ InSpan s.pivot r.bits)

/-- A row taken in by `TryInsert` extends the span by its bit-vector and by nothing else (10_state.md R35, INV5). -/
def Obligations.InsertionExtendsSpan : Prop :=
  ∀ (s : State) (r q : Row) (c : Nat), s.Inv → (∀ j, s.l ≤ j → r.bits.getLsbD j = false) →
    insertLoop s.pivot s.l r = some (c, q) →
    ∀ b, InSpan (setPivot s.pivot c q) b ↔ (InSpan s.pivot b ∨ InSpan s.pivot (b ^^^ r.bits))

/-- The rows held in `PIVOT` are linearly independent over GF(2) (10_state.md R35, INV5). -/
def Obligations.StoredRowsIndependent : Prop := ∀ s : State, s.Inv → Independent s.pivot

/-- Rank laws of one command (43_solver.md R106): `RANK` grows by at most one, it grows exactly when `ABSORBED` is set,
and it falls only by `CFG`, `ABORT` and `SRESET`, which set it to zero. -/
def Obligations.RankGrowsByAbsorption : Prop :=
  ∀ (i : Instr) (s t : State), s.Inv → exec i s = .next t →
    (t.absorbed = true ∧ t.rank.toNat = s.rank.toNat + 1) ∨
    (t.absorbed = false ∧ t.rank = s.rank) ∨
    (t.absorbed = false ∧ t.rank = 0 ∧ (i = .cfg ∨ i = .abort ∨ i = .sreset))

/-- `BackSub` at full rank (43_solver.md R102): every row becomes the unit row of its column, the values satisfy every
equation that was stored, and any values that satisfy them all are these. -/
def Obligations.BackSubstitutionSolves : Prop :=
  ∀ s : State, s.Inv → s.rank.toNat = s.l →
    let p := backSubLoop s.l s.l s.pivot
    (∀ c, c < s.l → pivotAt p c = some ⟨unitRow c, solAt p c⟩) ∧
    (∀ c r, pivotAt s.pivot c = some r → r.val = combination r.bits (solAt p)) ∧
    ∀ x : Nat → Symbol, (∀ c r, pivotAt s.pivot c = some r → r.val = combination r.bits x) →
      ∀ c, c < s.l → solAt p c = x c

/-- A second `INSROW` with the same row changes nothing but `ABSORBED = 0` and `RESULT`, and a second `INSESI` with the
same `esi` nothing but `DUP` and `RESULT`, while the system is not solved (43_solver.md R107). -/
def Obligations.DuplicatesChangeNothing : Prop :=
  ∀ s t : State, s.Inv → t.err = 0 → t.phase = .collecting →
    (exec .insrow s = .next t → exec .insrow t = .next (t.completed (t.rank.setWidth 32))) ∧
    (exec .insesi s = .next t → exec .insesi t = .next { t.completed (t.rank.setWidth 32) with dup := true })

/-- If every row stored is consistent with an assignment of symbols, then a step that offers no inconsistent row keeps
the invariant and leaves every row stored consistent with it (43_solver.md R108). -/
def Obligations.ConsistencyIsKept : Prop :=
  ∀ (x : Nat → Symbol) (s t : State), s.Inv → AllConsistent x s.pivot → NextOffersConsistent x s →
    step s = .next t → t.Inv ∧ AllConsistent x t.pivot

/-- In every run from an empty system in which each row inserted is consistent with one assignment, whatever the order,
the duplicates and the other transactions, the solved symbols in R are that assignment (43_solver.md R108). -/
def Obligations.RecoveredSymbolsAreTheAssignment : Prop :=
  ∀ (x : Nat → Symbol) (s t : State), s.Inv → s.rank = 0 → ConsistentRun x s t → t.phase = .recovered →
    ∀ c, c < t.l → solAt t.pivot c = x c

/-- No command looks at the value of a symbol (43_solver.md R109): two states that differ only in `DIN`, `ACC` and the
values of the rows stored still differ only in those after any one command, so that `STATE`, `RANK`, the flags, `RESULT`,
`ERR`, `ESTICKY`, `EINFO0/1`, `SEEN`, `REC` and the columns of every row are the same. -/
def Obligations.ValuesDecideNothing : Prop :=
  ∀ (i : Instr) (s s' t t' : State), s.SameButValues s' → exec i s = .next t → exec i s' = .next t' → t.SameButValues t'

/-- The round trip (43_solver.md R108): when the payload in a decoder's `DIN` is the `ACC` an `ENCODE` of the same `esi`
left on an instance with the same `K`, `L`, `T` and the same generator, the row the decoder's `INSESI` inserts is
consistent with the encoder's solved symbols. -/
def Obligations.EncodedSymbolIsConsistent : Prop :=
  ∀ (gen : IdxGen) (e e' d : State) (b : RowBits), e.Inv → e.phase = .recovered → e.x0 < e.build.esiBound →
    command .encode (encodeRule gen) e = .next e' → e'.err = 0 →
    d.kreg = e.kreg → d.lreg = e.lreg → d.treg = e.treg → d.arg0 = e.arg0 →
    (∀ i, i < d.t → d.dinByte i = Symbol.byte e'.acc i) →
    eqRow gen d.k d.l d.x0 = some b →
    Consistent (solAt e.pivot) ⟨b, d.dinSymbol⟩

/-! ### The script notation -/

/-- The events of `LOADSYM` put the bytes, in order, in `DIN`, the bytes absent from the last word zero; every later word
of `DIN` stays, and nothing else of the block changes (30_encoding.md R64). -/
def Obligations.LoadsymFillsDin : Prop :=
  ∀ (s : State) (bytes : List Byte) (rest : List HostEvent), bytes.length ≤ s.build.symMax →
    s.pending = expand s.build (.loadsym bytes) ++ rest →
    ∃ t, Host.Core.run Sys2Proof.core (expand s.build (.loadsym bytes)).length s = .next t ∧
      (∀ i, i < bytes.length → t.dinByte i = bytes.getD i 0) ∧
      (∀ i, bytes.length ≤ i → i < 4 * ((bytes.length + 3) / 4) → t.dinByte i = 0) ∧
      (∀ w, (bytes.length + 3) / 4 ≤ w → wordAt t.din w = wordAt s.din w) ∧
      t = { s with din := t.din, pending := rest, response := t.response }

/-- The events of `LOADROW` leave in `ROWBUF` exactly the columns listed, whatever it held, and change nothing else of
the block (30_encoding.md R64). -/
def Obligations.LoadrowFillsRowbuf : Prop :=
  ∀ (s : State) (columns : List Nat) (rest : List HostEvent), (∀ c ∈ columns, c < s.build.lMax) →
    s.pending = expand s.build (.loadrow columns) ++ rest →
    ∃ t, Host.Core.run Sys2Proof.core (expand s.build (.loadrow columns)).length s = .next t ∧
      (∀ c, t.rowbufRow.getLsbD c = decide (c ∈ columns)) ∧
      (∀ w, s.build.rowWords ≤ w → wordAt t.rowbuf w = wordAt s.rowbuf w) ∧
      t = { s with rowbuf := t.rowbuf, pending := rest, response := t.response }
end

