-- ==== Sys2Proof/Laws/Bits.lean ====
section
/-! SUPPORT. The build parameters' bounds, and what the bit-level operations on rows and symbols say bit by bit. -/

namespace Sys2Proof

/-! ### The build parameters (00_scope.md R9) -/

theorem lCap_lt : Config.lCap < 2 ^ 12 := by decide

theorem symCap_lt : Config.symCap < 2 ^ 13 := by decide

namespace Build

variable (b : Build)

/-- Everything the constraints say of an instance, but for its degree table. -/
theorem bounds : b.kMin = 4 ∧ b.kMax = 256 ∧ b.lMax % 32 = 0 ∧ 288 ≤ b.lMax ∧ b.lMax ≤ Config.lCap ∧
    b.symMax % 4 = 0 ∧ 4 ≤ b.symMax ∧ b.symMax ≤ Config.symCap ∧ b.kMax < b.esiBound ∧ b.esiBound ≤ 2 ^ 32 := by
  have h := b.property
  simp only [Params.wf, Bool.and_eq_true, decide_eq_true_eq] at h
  obtain ⟨⟨⟨⟨⟨⟨⟨⟨⟨⟨h1, h2⟩, h3⟩, h4⟩, h5⟩, h6⟩, h7⟩, h8⟩, h9⟩, h10⟩, -⟩ := h
  exact ⟨h1, h2, h3, h4, h5, h6, h7, h8, h9, h10⟩

/-- What the constraints say of its degree table. -/
theorem degTable_wf : degTableWf b.degTable = true := by
  have h := b.property
  rw [Params.wf, Bool.and_eq_true] at h
  exact h.2

theorem kMin_eq : b.kMin = 4 := b.bounds.1

theorem kMax_eq : b.kMax = 256 := b.bounds.2.1

theorem lMax_le : b.lMax ≤ Config.lCap := b.bounds.2.2.2.2.1

theorem symMax_le : b.symMax ≤ Config.symCap := b.bounds.2.2.2.2.2.2.2.1

theorem kMax_lt_esiBound : b.kMax < b.esiBound := b.bounds.2.2.2.2.2.2.2.2.1

theorem rowWords_mul : 32 * b.rowWords = b.lMax := by
  have h := b.bounds.2.2.1
  rw [rowWords]
  omega

theorem symWords_mul : 4 * b.symWords = b.symMax := by
  have h := b.bounds.2.2.2.2.2.1
  rw [symWords]
  omega

/-- The windows of the buffers lie within the tables that hold them. -/
theorem rowWords_le : b.rowWords ≤ Config.lCap / 32 := Nat.div_le_div_right b.lMax_le

theorem symWords_le : b.symWords ≤ Config.symCap / 4 := Nat.div_le_div_right b.symMax_le

end Build

end Sys2Proof

namespace Sys2Proof.Machine

open Sys2Proof

/-! ### SEEN (10_state.md R27) -/

@[simp] theorem mem_addSeen (e d : Nat) (seen : List Nat) : d ∈ addSeen e seen ↔ d = e ∨ d ∈ seen := by
  induction seen with
  | nil => simp [addSeen]
  | cons c cs ih =>
    rw [addSeen]
    split
    · rw [List.mem_cons]
    · split
      · next h => simp [h]
      · rw [List.mem_cons, ih, List.mem_cons]
        tauto

theorem pairwise_addSeen (e : Nat) {seen : List Nat} (h : seen.Pairwise (· < ·)) : (addSeen e seen).Pairwise (· < ·) := by
  induction seen with
  | nil => simp [addSeen]
  | cons c cs ih =>
    obtain ⟨h1, h2⟩ := List.pairwise_cons.1 h
    rw [addSeen]
    split
    · next he =>
      refine List.pairwise_cons.2 ⟨fun d hd => ?_, h⟩
      rcases List.mem_cons.1 hd with rfl | hd
      · exact he
      · exact Nat.lt_trans he (h1 d hd)
    · split
      · exact h
      · refine List.pairwise_cons.2 ⟨fun d hd => ?_, ih h2⟩
        rcases (mem_addSeen e d cs).1 hd with rfl | hd
        · omega
        · exact h1 d hd

/-! ### Single bits -/

theorem getLsbD_unitRow (c j : Nat) : (unitRow c).getLsbD j = decide (j = c ∧ c < Config.lCap) := by
  rw [unitRow, BitVec.getLsbD_twoPow]
  by_cases h : j = c <;> by_cases h' : c < Config.lCap <;> simp [h, h', eq_comm]; omega

theorem getLsbD_columnsBelow (l c : Nat) : (columnsBelow l).getLsbD c = decide (c < l ∧ c < Config.lCap) := by
  rw [columnsBelow, BitVec.getLsbD_ofNat, Nat.testBit_two_pow_sub_one]
  by_cases h : c < l <;> by_cases h' : c < Config.lCap <;> simp [h, h']

theorem rowBits_ext {a b : RowBits} (h : ∀ c, a.getLsbD c = b.getLsbD c) : a = b :=
  BitVec.eq_of_getLsbD_eq fun c _ => h c

theorem symbol_ext {a b : Symbol} (h : ∀ c, a.getLsbD c = b.getLsbD c) : a = b :=
  BitVec.eq_of_getLsbD_eq fun c _ => h c

theorem below_iff (b : RowBits) (l : Nat) : b.below l = true ↔ ∀ j, l ≤ j → b.getLsbD j = false := by
  rw [RowBits.below, beq_iff_eq]
  constructor
  · intro h j hj
    have := congrArg (fun v : RowBits => v.getLsbD (j - l)) h
    simpa [Nat.add_sub_cancel' hj] using this
  · intro h
    apply rowBits_ext
    intro c
    simp [h (l + c) (by omega)]

theorem below_eq_false_iff (b : RowBits) (l : Nat) : b.below l = false ↔ ∃ j, l ≤ j ∧ b.getLsbD j = true := by
  rw [← Bool.not_eq_true, below_iff]
  push Not
  simp

theorem lowestBelow_eq_some (b : RowBits) (n c : Nat) :
    lowestBelow b n = some c ↔ c < n ∧ b.getLsbD c = true ∧ ∀ j, j < c → b.getLsbD j = false := by
  rw [lowestBelow, List.find?_range_eq_some]
  constructor
  · rintro ⟨h, hc, hj⟩
    exact ⟨List.mem_range.1 hc, h, fun j hj' => by simpa using hj j hj'⟩
  · rintro ⟨hn, h, hj⟩
    exact ⟨h, List.mem_range.2 hn, fun j hj' => by simp [hj j hj']⟩

theorem lowestBelow_eq_none (b : RowBits) (n : Nat) : lowestBelow b n = none ↔ ∀ c, c < n → b.getLsbD c = false := by
  rw [lowestBelow, List.find?_eq_none]
  simp

theorem lowestColumn_eq (b : RowBits) : lowestColumn b = lowestBelow b Config.lCap := by delta lowestColumn; rfl

/-- `lsb` finds the least bit that is one. -/
theorem lowestColumn_eq_some (b : RowBits) (c : Nat) :
    lowestColumn b = some c ↔ b.getLsbD c = true ∧ ∀ j, j < c → b.getLsbD j = false := by
  rw [lowestColumn_eq, lowestBelow_eq_some]
  exact ⟨And.right, fun h => ⟨BitVec.lt_of_getLsbD h.1, h⟩⟩

theorem lowestColumn_eq_none (b : RowBits) : lowestColumn b = none ↔ b = 0 := by
  rw [lowestColumn_eq, lowestBelow_eq_none]
  constructor
  · intro h
    apply rowBits_ext
    intro c
    by_cases hc : c < Config.lCap
    · simpa using h c hc
    · simp [BitVec.getLsbD_of_ge b c (by omega)]
  · rintro rfl
    simp

theorem getLsbD_ofColumns_foldl (columns : List Nat) (b : RowBits) (c : Nat) :
    (columns.foldl (fun b c => b ||| unitRow c) b).getLsbD c = (b.getLsbD c || decide (c ∈ columns ∧ c < Config.lCap)) := by
  induction columns generalizing b with
  | nil => simp
  | cons d ds ih =>
    rw [List.foldl_cons, ih, BitVec.getLsbD_or, getLsbD_unitRow]
    by_cases h : c = d
    · subst h
      by_cases h' : c < Config.lCap <;> simp [h']
    · simp [h]

theorem getLsbD_ofColumns (columns : List Nat) (c : Nat) :
    (RowBits.ofColumns columns).getLsbD c = decide (c ∈ columns ∧ c < Config.lCap) := by
  simp [RowBits.ofColumns, getLsbD_ofColumns_foldl]

/-! ### Words and bytes within buffers -/

theorem getLsbD_ofWords (words : Nat → Word) (n c : Nat) :
    (RowBits.ofWords words n).getLsbD c =
      (decide (c < Config.lCap) && decide (c < 32 * n) && (words (c / 32)).getLsbD (c % 32)) := by
  induction n with
  | zero => simp [RowBits.ofWords]
  | succ n ih =>
    rw [RowBits.ofWords, BitVec.getLsbD_or, ih, BitVec.getLsbD_shiftLeft, BitVec.getLsbD_setWidth]
    by_cases h1 : c < Config.lCap
    · by_cases h2 : c < 32 * n
      · have h3 : c < 32 * (n + 1) := by omega
        simp [h1, h2, h3]
      · by_cases h3 : c < 32 * (n + 1)
        · have h4 : c / 32 = n := by omega
          have h5 : c % 32 = c - 32 * n := by omega
          have h6 : c - 32 * n < Config.lCap := by omega
          simp [h1, h2, h3, h4, h5, h6]
        · have h4 : 32 ≤ c - 32 * n := by omega
          simp [h1, h2, h3, BitVec.getLsbD_of_ge (words n) _ h4]
    · simp [h1]

theorem getLsbD_rowbufRow (s : State) (c : Nat) :
    s.rowbufRow.getLsbD c = (decide (c < s.build.lMax) && (wordAt s.rowbuf (c / 32)).getLsbD (c % 32)) := by
  have h := s.build.lMax_le
  rw [State.rowbufRow, getLsbD_ofWords, s.build.rowWords_mul]
  by_cases hc : c < s.build.lMax
  · simp [hc, show c < Config.lCap by omega]
  · simp [hc]

theorem getLsbD_symbolOfBytes (bytes : Nat → Byte) (n j : Nat) :
    (Symbol.ofBytes bytes n).getLsbD j =
      (decide (j < 8 * Config.symCap) && decide (j < 8 * n) && (bytes (j / 8)).getLsbD (j % 8)) := by
  induction n with
  | zero => simp [Symbol.ofBytes]
  | succ n ih =>
    rw [Symbol.ofBytes, BitVec.getLsbD_or, ih, BitVec.getLsbD_shiftLeft, BitVec.getLsbD_setWidth]
    by_cases h1 : j < 8 * Config.symCap
    · by_cases h2 : j < 8 * n
      · have h3 : j < 8 * (n + 1) := by omega
        simp [h1, h2, h3]
      · by_cases h3 : j < 8 * (n + 1)
        · have h4 : j / 8 = n := by omega
          have h5 : j % 8 = j - 8 * n := by omega
          have h6 : j - 8 * n < 8 * Config.symCap := by omega
          simp [h1, h2, h3, h4, h5, h6]
        · have h4 : 8 ≤ j - 8 * n := by omega
          simp [h1, h2, h3, BitVec.getLsbD_of_ge (bytes n) _ h4]
    · simp [h1]

/-- A word of four bytes has them in order, the first the least significant (20_memory.md R43). -/
theorem byteOfWord_wordOfBytes (b : Nat → Byte) (i : Nat) (hi : i < 4) :
    byteOfWord (wordOfBytes (b 0) (b 1) (b 2) (b 3)) i = b i := by
  apply BitVec.eq_of_getLsbD_eq
  intro j hj
  rw [byteOfWord, wordOfBytes, BitVec.getLsbD_extractLsb']
  simp only [BitVec.getLsbD_append]
  obtain rfl | rfl | rfl | rfl : i = 0 ∨ i = 1 ∨ i = 2 ∨ i = 3 := by omega
  · have h1 : j < 32 := by omega
    simp [hj]
  · simp [hj, show ¬ (8 + j < 8) by omega]
  · simp [hj, show ¬ (16 + j < 8) by omega, show ¬ (16 + j - 8 < 8) by omega, show 16 + j - 8 - 8 = j by omega]
  · simp [hj, show ¬ (24 + j < 8) by omega, show ¬ (24 + j - 8 < 8) by omega, show ¬ (24 + j - 8 - 8 < 8) by omega,
      show 24 + j - 8 - 8 - 8 = j by omega]

/-! ### Buffers -/

theorem wordAt_buffer (n : Nat) (f : Nat → Word) (w : Nat) (hw : w < n) : wordAt (State.buffer n f) w = f w := by
  simp [wordAt, State.buffer, hw]

theorem wordAt_set {n : Nat} (buf : Table Word n) (w w' : Nat) (v : Word) (hw : w < n) :
    wordAt (setEntry buf w v) w' = if w' = w then v else wordAt buf w' := by
  by_cases h : w' = w
  · subst h
    simp [wordAt, setEntry, buf.property, hw]
  · simp [wordAt, setEntry, List.getElem?_set_ne, h, Ne.symm h]

end Sys2Proof.Machine
end

