-- ==== Sys2Proof/Laws/Rows.lean ====
section
/-! SUPPORT. Rows over GF(2): entries of `PIVOT`, sums of symbols and of rows, what the loop of `TryInsert` does to a row
(43_solver.md R100, R101, R106) and what `BackSub` does to the system (43_solver.md R102). -/

namespace Sys2Proof.Machine

open Sys2Proof

/-! ### Entries of PIVOT -/

theorem pivotAt_of_ge (p : Pivots) (c : Nat) (h : Config.lCap ≤ c) : pivotAt p c = none := by
  rw [pivotAt, List.getElem?_eq_none (by rw [p.property]; exact h)]
  rfl

theorem lt_of_pivotAt {p : Pivots} {c : Nat} {r : Row} (h : pivotAt p c = some r) : c < Config.lCap := by
  by_contra hc
  rw [pivotAt_of_ge p c (by omega)] at h
  cases h

theorem pivotAt_setPivot (p : Pivots) (c d : Nat) (r : Row) (hc : c < Config.lCap) :
    pivotAt (setPivot p c r) d = if d = c then some r else pivotAt p d := by
  by_cases h : d = c
  · subst h
    simp [pivotAt, setPivot, setEntry, p.property, hc]
  · simp [pivotAt, setPivot, setEntry, List.getElem?_set_ne, h, Ne.symm h]

@[simp] theorem pivotAt_noPivots (c : Nat) : pivotAt noPivots c = none := by
  by_cases h : c < Config.lCap
  · simp [pivotAt, noPivots, h]
  · exact pivotAt_of_ge _ _ (by omega)

/-! ### Sums of symbols -/

theorem foldl_xor_init {w : Nat} (f : Nat → BitVec w) (l : List Nat) (a : BitVec w) :
    l.foldl (fun a c => a ^^^ f c) a = a ^^^ l.foldl (fun a c => a ^^^ f c) 0 := by
  induction l generalizing a with
  | nil => simp
  | cons c l ih =>
    rw [List.foldl_cons, List.foldl_cons, ih, ih (0 ^^^ f c)]
    simp [BitVec.xor_assoc]

@[simp] theorem xorOver_nil (f : Nat → Symbol) : xorOver f [] = 0 := rfl

@[simp] theorem xorOver_cons (f : Nat → Symbol) (c : Nat) (l : List Nat) : xorOver f (c :: l) = f c ^^^ xorOver f l := by
  rw [xorOver, List.foldl_cons, foldl_xor_init, xorOver]
  simp

theorem xorOver_append (f : Nat → Symbol) (l l' : List Nat) : xorOver f (l ++ l') = xorOver f l ^^^ xorOver f l' := by
  induction l with
  | nil => simp
  | cons c l ih => simp [ih, BitVec.xor_assoc]

theorem xorOver_perm (f : Nat → Symbol) {l l' : List Nat} (h : l.Perm l') : xorOver f l = xorOver f l' := by
  induction h with
  | nil => rfl
  | cons c _ ih => simp [ih]
  | swap c d l => simp only [xorOver_cons, ← BitVec.xor_assoc, BitVec.xor_comm (f d)]
  | trans _ _ ih ih' => rw [ih, ih']

theorem xorOver_congr {f g : Nat → Symbol} {l : List Nat} (h : ∀ c ∈ l, f c = g c) : xorOver f l = xorOver g l := by
  induction l with
  | nil => rfl
  | cons c l ih =>
    rw [xorOver_cons, xorOver_cons, h c (by simp), ih fun d hd => h d (by simp [hd])]

theorem xorOver_filter_xor (x : Nat → Symbol) (p q : Nat → Bool) (l : List Nat) :
    xorOver x (l.filter fun c => p c ^^ q c) = xorOver x (l.filter p) ^^^ xorOver x (l.filter q) := by
  induction l with
  | nil => simp
  | cons c l ih =>
    cases hp : p c <;> cases hq : q c <;> simp only [List.filter_cons, hp, hq, Bool.xor_false, Bool.xor_true,
      Bool.not_true, Bool.not_false, if_true, if_false, Bool.false_eq_true, xorOver_cons, ih]
    · rw [← BitVec.xor_assoc, ← BitVec.xor_assoc, BitVec.xor_comm (x c)]
    · rw [BitVec.xor_assoc]
    · rw [BitVec.xor_comm (x c) (xorOver x (l.filter p)), BitVec.xor_assoc, ← BitVec.xor_assoc (x c), BitVec.xor_self,
        BitVec.zero_xor]

/-- The sum over a bit-vector is linear in it. -/
theorem combination_xor (a b : RowBits) (x : Nat → Symbol) :
    combination (a ^^^ b) x = combination a x ^^^ combination b x := by
  rw [combination, combination, combination, ← xorOver_filter_xor]
  exact congrArg (xorOver x) (List.filter_congr fun c _ => BitVec.getLsbD_xor)

@[simp] theorem combination_zero (x : Nat → Symbol) : combination 0 x = 0 := by simp [combination]

theorem combination_ofColumns (columns : List Nat) (x : Nat → Symbol) (hn : columns.Nodup)
    (hc : ∀ c ∈ columns, c < Config.lCap) : combination (RowBits.ofColumns columns) x = xorOver x columns := by
  rw [combination]
  apply xorOver_perm
  rw [List.perm_ext_iff_of_nodup (List.nodup_range.filter _) hn]
  intro c
  simp only [List.mem_filter, List.mem_range, getLsbD_ofColumns, decide_eq_true_eq]
  constructor
  · rintro ⟨_, h, _⟩
    exact h
  · intro h
    exact ⟨hc c h, h, hc c h⟩

@[simp] theorem ofColumns_singleton (c : Nat) : RowBits.ofColumns [c] = unitRow c := by
  simp [RowBits.ofColumns]

theorem combination_unitRow (c : Nat) (x : Nat → Symbol) (hc : c < Config.lCap) : combination (unitRow c) x = x c := by
  rw [← ofColumns_singleton, combination_ofColumns [c] x (by simp) (by simpa using hc)]
  simp

theorem combination_congr {b : RowBits} {x y : Nat → Symbol} (h : ∀ c, b.getLsbD c = true → x c = y c) :
    combination b x = combination b y := by
  apply xorOver_congr
  intro c hc
  exact h c (List.mem_filter.1 hc).2

/-! ### Consistency -/

theorem consistent_xor_iff {x : Nat → Symbol} {r q : Row} (hq : Consistent x q) :
    Consistent x (r.xor q) ↔ Consistent x r := by
  rw [Consistent] at hq
  rw [Consistent, Consistent, Row.xor, combination_xor, ← hq]
  constructor
  · intro h
    have := congrArg (· ^^^ q.val) h
    simpa [BitVec.xor_assoc] using this
  · intro h
    rw [h]

/-! ### Sums of rows -/

/-- The bit-vector kept at a column, zero where no row is. -/
def bitsAt (p : Pivots) (c : Nat) : RowBits := ((pivotAt p c).map Row.bits).getD 0

theorem sumOfRows_eq (p : Pivots) (columns : List Nat) :
    sumOfRows p columns = columns.foldl (fun b c => b ^^^ bitsAt p c) 0 := by
  rw [sumOfRows]
  generalize (0 : RowBits) = a
  induction columns generalizing a with
  | nil => rfl
  | cons c l ih =>
    cases h : pivotAt p c with
    | none => simp [h, ih, bitsAt]
    | some r => simp [h, ih, bitsAt]

@[simp] theorem sumOfRows_nil (p : Pivots) : sumOfRows p [] = 0 := rfl

@[simp] theorem sumOfRows_cons (p : Pivots) (c : Nat) (l : List Nat) :
    sumOfRows p (c :: l) = bitsAt p c ^^^ sumOfRows p l := by
  rw [sumOfRows_eq, List.foldl_cons, foldl_xor_init, sumOfRows_eq]
  simp

theorem sumOfRows_append (p : Pivots) (l l' : List Nat) :
    sumOfRows p (l ++ l') = sumOfRows p l ^^^ sumOfRows p l' := by
  induction l with
  | nil => simp
  | cons c l ih => simp [ih, BitVec.xor_assoc]

theorem sumOfRows_perm (p : Pivots) {l l' : List Nat} (h : l.Perm l') : sumOfRows p l = sumOfRows p l' := by
  induction h with
  | nil => rfl
  | cons c _ ih => simp [ih]
  | swap c d l => simp only [sumOfRows_cons, ← BitVec.xor_assoc, BitVec.xor_comm (bitsAt p d)]
  | trans _ _ ih ih' => rw [ih, ih']

theorem InSpan.zero (p : Pivots) : InSpan p 0 := ⟨[], rfl⟩

theorem InSpan.xor {p : Pivots} {a b : RowBits} : InSpan p a → InSpan p b → InSpan p (a ^^^ b) := by
  rintro ⟨l, rfl⟩ ⟨l', rfl⟩
  exact ⟨l ++ l', sumOfRows_append p l l'⟩

theorem InSpan.of_pivotAt {p : Pivots} {c : Nat} {r : Row} (h : pivotAt p c = some r) : InSpan p r.bits :=
  ⟨[c], by simp [bitsAt, h]⟩

/-- Every sum of rows is a sum of different valid rows. -/
theorem exists_nodup_sum (p : Pivots) (columns : List Nat) :
    ∃ l : List Nat, l.Nodup ∧ (∀ c ∈ l, (pivotAt p c).isSome) ∧ sumOfRows p l = sumOfRows p columns := by
  induction columns with
  | nil => exact ⟨[], by simp⟩
  | cons c cs ih =>
    obtain ⟨l, hn, hv, hs⟩ := ih
    by_cases hc : (pivotAt p c).isSome
    · by_cases hm : c ∈ l
      · refine ⟨l.erase c, hn.erase c, fun d hd => hv d (List.mem_of_mem_erase hd), ?_⟩
        rw [sumOfRows_cons, ← hs, sumOfRows_perm p (List.perm_cons_erase hm), sumOfRows_cons, ← BitVec.xor_assoc,
          BitVec.xor_self, BitVec.zero_xor]
      · refine ⟨c :: l, List.nodup_cons.2 ⟨hm, hn⟩, ?_, by simp [hs]⟩
        simpa [hc] using hv
    · have : bitsAt p c = 0 := by
        simp only [Bool.not_eq_true, Option.isSome_eq_false_iff, Option.isNone_iff_eq_none] at hc
        simp [bitsAt, hc]
      exact ⟨l, hn, hv, by simp [hs, this]⟩

theorem sum_zero_below {l : Nat} {p : Pivots} (he : Echelon l p) (m j : Nat) (hj : j ≤ m) (columns : List Nat)
    (h : ∀ c ∈ columns, m < c) : (sumOfRows p columns).getLsbD j = false := by
  induction columns with
  | nil => simp
  | cons c cs ih =>
    rw [sumOfRows_cons, BitVec.getLsbD_xor, ih fun d hd => h d (by simp [hd])]
    have hc := h c (by simp)
    cases hp : pivotAt p c with
    | none => simp [bitsAt, hp]
    | some r => simp [bitsAt, hp, (he c r hp).2.2 j (by omega)]

/-- The lowest bit of a sum of different rows of an echelon system is at a column that has a row. -/
theorem sum_lowest {l : Nat} {p : Pivots} (he : Echelon l p) (columns : List Nat) (hn : columns.Nodup)
    (hv : ∀ c ∈ columns, (pivotAt p c).isSome) (hne : columns ≠ []) :
    ∃ m ∈ columns, (sumOfRows p columns).getLsbD m = true ∧ ∀ j, j < m → (sumOfRows p columns).getLsbD j = false := by
  obtain ⟨m, hm, hmin⟩ : ∃ m ∈ columns, ∀ c ∈ columns, m ≤ c := by
    have : ∃ m, m ∈ columns := List.exists_mem_of_ne_nil _ hne
    exact ⟨Nat.find this, Nat.find_spec this, fun c hc => Nat.find_min' this hc⟩
  have hperm := List.perm_cons_erase hm
  have hgt : ∀ c ∈ columns.erase m, m < c := by
    intro c hc
    have h1 := hmin c (List.mem_of_mem_erase hc)
    have h2 : c ≠ m := by
      rintro rfl
      exact (List.Nodup.not_mem_erase hn) hc
    omega
  obtain ⟨r, hr⟩ := Option.isSome_iff_exists.1 (hv m hm)
  have hb : bitsAt p m = r.bits := by simp [bitsAt, hr]
  refine ⟨m, hm, ?_, ?_⟩
  · rw [sumOfRows_perm p hperm, sumOfRows_cons, BitVec.getLsbD_xor, sum_zero_below he m m (Nat.le_refl m) _ hgt, hb,
      (he m r hr).2.1]
    rfl
  · intro j hj
    rw [sumOfRows_perm p hperm, sumOfRows_cons, BitVec.getLsbD_xor, sum_zero_below he m j (by omega) _ hgt, hb,
      (he m r hr).2.2 j (Or.inl hj)]
    rfl

/-- A vector of the span whose lowest bit is at column `c` has a row at `c`. -/
theorem InSpan.lowest_valid {l : Nat} {p : Pivots} (he : Echelon l p) {b : RowBits} (hs : InSpan p b) {c : Nat}
    (hc : b.getLsbD c = true) (hlow : ∀ j, j < c → b.getLsbD j = false) : (pivotAt p c).isSome := by
  obtain ⟨cs, rfl⟩ := hs
  obtain ⟨cols, hn, hv, hsum⟩ := exists_nodup_sum p cs
  rw [← hsum] at hc hlow
  have hne : cols ≠ [] := by
    rintro rfl
    simp at hc
  obtain ⟨m, hm, hmt, hml⟩ := sum_lowest he cols hn hv hne
  rcases Nat.lt_trichotomy m c with h | h | h
  · rw [hlow m h] at hmt
    cases hmt
  · exact h ▸ hv m hm
  · rw [hml c h] at hc
    cases hc

/-! ### The loop of TryInsert -/

/-- XORing a row with the row kept at its lowest column clears that column and sets none below it or from `l` on. -/
theorem xor_pivot_bits {l : Nat} {p : Pivots} (he : Echelon l p) {r q : Row} {c : Nat} (hq : pivotAt p c = some q)
    (hc : r.bits.getLsbD c = true) (hlow : ∀ j, j < c → r.bits.getLsbD j = false)
    (hl : ∀ j, l ≤ j → r.bits.getLsbD j = false) :
    (∀ j, j < c + 1 → (r.xor q).bits.getLsbD j = false) ∧ ∀ j, l ≤ j → (r.xor q).bits.getLsbD j = false := by
  obtain ⟨_, hqc, hq0⟩ := he c q hq
  constructor
  · intro j hj
    rcases Nat.lt_or_ge j c with h | h
    · simp [Row.xor, hlow j h, hq0 j (Or.inl h)]
    · obtain rfl : j = c := by omega
      simp [Row.xor, hc, hqc]
  · intro j hj
    simp [Row.xor, hl j hj, hq0 j (Or.inr hj)]

theorem insertLoop_zero (p : Pivots) (r : Row) : insertLoop p 0 r = none := rfl

/-- Case (a): an empty row is discarded. -/
theorem insertLoop_empty (p : Pivots) (n : Nat) {r : Row} (h : r.bits = 0) : insertLoop p n r = none := by
  cases n with
  | zero => rfl
  | succ n => rw [insertLoop, (lowestColumn_eq_none r.bits).2 h]

/-- Case (b): a row over a free column is the new pivot there. -/
theorem insertLoop_free {p : Pivots} (n : Nat) {r : Row} {c : Nat} (hc : lowestColumn r.bits = some c)
    (hp : pivotAt p c = none) : insertLoop p (n + 1) r = some (c, r) := by
  rw [insertLoop, hc]
  simp only [hp]

/-- A row over a column that has one goes on as their sum. -/
theorem insertLoop_hit {p : Pivots} (n : Nat) {r q : Row} {c : Nat} (hc : lowestColumn r.bits = some c)
    (hp : pivotAt p c = some q) : insertLoop p (n + 1) r = insertLoop p n (r.xor q) := by
  rw [insertLoop, hc]
  simp only [hp]

/-- A row with no bit below `m` and none from `l` on is empty where `l <= m`. -/
theorem bits_eq_zero {b : RowBits} {m l : Nat} (hlow : ∀ j, j < m → b.getLsbD j = false)
    (hl : ∀ j, l ≤ j → b.getLsbD j = false) (h : l ≤ m) : b = 0 := by
  apply rowBits_ext
  intro j
  rcases Nat.lt_or_ge j m with h' | h'
  · simp [hlow j h']
  · simp [hl j (by omega)]

/-- What the loop does, all of it (43_solver.md R100), for a row with no bit below `m` or from `l` on and at least
`l - m` passes: in case (a) the row's bit-vector is a sum of rows stored; in case (b) the new row is the old one plus a sum
of rows stored, its lowest column is free and at least `m`. `S` is any property of rows that holds of the rows stored and
is kept by sums. -/
theorem insertLoop_spec {l : Nat} {p : Pivots} (he : Echelon l p) (S : Row → Prop) (hS : ∀ c q, pivotAt p c = some q → S q)
    (hxor : ∀ r q, S r → S q → S (r.xor q)) (n m : Nat) (r : Row) (hlow : ∀ j, j < m → r.bits.getLsbD j = false)
    (hl : ∀ j, l ≤ j → r.bits.getLsbD j = false) (hn : l ≤ m + n) (hr : S r) :
    (insertLoop p n r = none → InSpan p r.bits) ∧
    ∀ c q, insertLoop p n r = some (c, q) →
      m ≤ c ∧ c < l ∧ c < Config.lCap ∧ pivotAt p c = none ∧ q.bits.getLsbD c = true ∧
      (∀ j, j < c ∨ l ≤ j → q.bits.getLsbD j = false) ∧ InSpan p (q.bits ^^^ r.bits) ∧ S q := by
  induction n generalizing m r with
  | zero =>
    have hz := bits_eq_zero hlow hl (by omega)
    refine ⟨fun _ => hz ▸ InSpan.zero p, fun c q h => ?_⟩
    rw [insertLoop_zero] at h
    cases h
  | succ n ih =>
    cases hc : lowestColumn r.bits with
    | none =>
      have hz := (lowestColumn_eq_none r.bits).1 hc
      refine ⟨fun _ => hz ▸ InSpan.zero p, fun c q h => ?_⟩
      rw [insertLoop_empty p _ hz] at h
      cases h
    | some c =>
      obtain ⟨hcb, hcl⟩ := (lowestColumn_eq_some r.bits c).1 hc
      have hmc : m ≤ c := by
        by_contra h
        rw [hlow c (by omega)] at hcb
        cases hcb
      cases hp : pivotAt p c with
      | some q =>
        rw [insertLoop_hit n hc hp]
        obtain ⟨h1, h2⟩ := xor_pivot_bits he hp hcb hcl hl
        obtain ⟨ih1, ih2⟩ := ih (c + 1) (r.xor q) h1 h2 (by omega) (hxor _ _ hr (hS c q hp))
        have hspan := InSpan.of_pivotAt hp
        refine ⟨fun h => ?_, fun d t h => ?_⟩
        · have := (ih1 h).xor hspan
          simpa [Row.xor, BitVec.xor_assoc] using this
        · obtain ⟨a1, a2, a3, a4, a5, a6, a7, a8⟩ := ih2 d t h
          refine ⟨by omega, a2, a3, a4, a5, a6, ?_, a8⟩
          have := a7.xor hspan
          simpa [Row.xor, BitVec.xor_assoc] using this
      | none =>
        rw [insertLoop_free n hc hp]
        refine ⟨fun h => (by cases h), fun d t h => ?_⟩
        cases h
        have hlt : c < Config.lCap := BitVec.lt_of_getLsbD hcb
        have hcl' : c < l := by
          by_contra h
          rw [hl c (by omega)] at hcb
          cases hcb
        refine ⟨hmc, hcl', hlt, hp, hcb, fun j hj => hj.elim (hcl j) (hl j), ?_, hr⟩
        rw [BitVec.xor_self]
        exact InSpan.zero p

/-- The loop's number of passes does not matter once there are enough (43_solver.md R101). -/
theorem insertLoop_passes {l : Nat} {p : Pivots} (he : Echelon l p) (n n' m : Nat) (r : Row)
    (hlow : ∀ j, j < m → r.bits.getLsbD j = false) (hl : ∀ j, l ≤ j → r.bits.getLsbD j = false) (hn : l ≤ m + n)
    (hn' : l ≤ m + n') : insertLoop p n r = insertLoop p n' r := by
  induction n generalizing n' m r with
  | zero =>
    have hz := bits_eq_zero hlow hl (by omega)
    rw [insertLoop_empty p _ hz, insertLoop_empty p _ hz]
  | succ n ih =>
    cases n' with
    | zero =>
      have hz := bits_eq_zero hlow hl (by omega)
      rw [insertLoop_empty p _ hz, insertLoop_empty p _ hz]
    | succ n' =>
      cases hc : lowestColumn r.bits with
      | none =>
        have hz := (lowestColumn_eq_none r.bits).1 hc
        rw [insertLoop_empty p _ hz, insertLoop_empty p _ hz]
      | some c =>
        obtain ⟨hcb, hcl⟩ := (lowestColumn_eq_some r.bits c).1 hc
        have hmc : m ≤ c := by
          by_contra h
          rw [hlow c (by omega)] at hcb
          cases hcb
        cases hp : pivotAt p c with
        | none => rw [insertLoop_free n hc hp, insertLoop_free n' hc hp]
        | some q =>
          rw [insertLoop_hit n hc hp, insertLoop_hit n' hc hp]
          obtain ⟨h1, h2⟩ := xor_pivot_bits he hp hcb hcl hl
          exact ih n' (c + 1) (r.xor q) h1 h2 (by omega) (by omega)

/-! ### Storing a row -/

theorem echelon_setPivot {l : Nat} {p : Pivots} (he : Echelon l p) {c : Nat} {q : Row} (hcl : c < l)
    (hlt : c < Config.lCap) (hq : q.bits.getLsbD c = true) (h0 : ∀ j, j < c ∨ l ≤ j → q.bits.getLsbD j = false) :
    Echelon l (setPivot p c q) := by
  intro d r hd
  rw [pivotAt_setPivot p c d q hlt] at hd
  split at hd
  · next h =>
    cases hd
    subst h
    exact ⟨hcl, hq, h0⟩
  · exact he d r hd

/-- A row stored at a free column adds its bit-vector to the span, and nothing else. -/
theorem inSpan_setPivot (p : Pivots) (c : Nat) (q : Row) (hc : c < Config.lCap) (hp : pivotAt p c = none) (b : RowBits) :
    InSpan (setPivot p c q) b ↔ InSpan p b ∨ InSpan p (b ^^^ q.bits) := by
  have hat : ∀ d, bitsAt (setPivot p c q) d = if d = c then q.bits else bitsAt p d := by
    intro d
    rw [bitsAt, pivotAt_setPivot p c d q hc]
    split <;> rfl
  have hother : ∀ columns, InSpan p (sumOfRows p columns) := fun columns => ⟨columns, rfl⟩
  have hold : ∀ b, InSpan p b → InSpan (setPivot p c q) b := by
    rintro _ ⟨columns, rfl⟩
    refine ⟨columns.filter (· ≠ c), ?_⟩
    induction columns with
    | nil => rfl
    | cons d ds ih =>
      by_cases hd : d = c
      · subst hd
        simpa [List.filter_cons, bitsAt, hp] using ih
      · rw [List.filter_cons, if_pos (by simpa using hd), sumOfRows_cons, sumOfRows_cons, hat d, if_neg hd, ih]
  constructor
  · rintro ⟨columns, rfl⟩
    have : ∀ columns, sumOfRows (setPivot p c q) columns = sumOfRows p columns ∨
        sumOfRows (setPivot p c q) columns = sumOfRows p columns ^^^ q.bits := by
      intro columns
      induction columns with
      | nil => exact .inl rfl
      | cons d ds ih =>
        rw [sumOfRows_cons, sumOfRows_cons, hat d]
        by_cases hd : d = c
        · subst hd
          rw [if_pos rfl, show bitsAt p d = 0 by simp [bitsAt, hp]]
          rcases ih with h | h
          · right
            rw [h, BitVec.xor_comm]
            simp
          · left
            rw [h, BitVec.xor_comm, BitVec.xor_assoc]
            simp
        · rw [if_neg hd]
          rcases ih with h | h
          · exact .inl (by rw [h])
          · exact .inr (by rw [h, BitVec.xor_assoc])
    rcases this columns with h | h
    · exact .inl (h ▸ hother columns)
    · right
      rw [h, BitVec.xor_assoc, BitVec.xor_self, BitVec.xor_zero]
      exact hother columns
  · rintro (h | h)
    · exact hold b h
    · have hq : InSpan (setPivot p c q) q.bits := InSpan.of_pivotAt (c := c) (by rw [pivotAt_setPivot p c c q hc, if_pos rfl])
      have := (hold _ h).xor hq
      rwa [BitVec.xor_assoc, BitVec.xor_self, BitVec.xor_zero] at this

theorem countP_setPivot (p : Pivots) (c : Nat) (q : Row) (hc : c < Config.lCap) (hp : pivotAt p c = none) (n : Nat) :
    (List.range n).countP (fun d => (pivotAt (setPivot p c q) d).isSome) =
      (List.range n).countP (fun d => (pivotAt p d).isSome) + if c < n then 1 else 0 := by
  induction n with
  | zero => simp
  | succ n ih =>
    rw [List.range_succ, List.countP_append, List.countP_append, ih]
    simp only [List.countP_cons, List.countP_nil, pivotAt_setPivot p c n q hc]
    by_cases h : n = c
    · subst h
      simp [hp]
    · by_cases h' : c < n
      · simp [h, h', show c < n + 1 by omega]
        omega
      · simp [h, h', show ¬ c < n + 1 by omega]

theorem validCount_setPivot (p : Pivots) (c : Nat) (q : Row) (hc : c < Config.lCap) (hp : pivotAt p c = none) :
    validCount (setPivot p c q) = validCount p + 1 := by
  rw [validCount, countP_setPivot p c q hc hp, if_pos hc, validCount]

theorem validCount_congr {p q : Pivots} (h : ∀ c, (pivotAt p c).isSome = (pivotAt q c).isSome) :
    validCount p = validCount q := by
  rw [validCount, validCount]
  simp only [h]

theorem validCount_of_none {p : Pivots} (h : ∀ c, pivotAt p c = none) : validCount p = 0 := by
  simp [validCount, h]

theorem none_of_validCount {p : Pivots} (h : validCount p = 0) (c : Nat) : pivotAt p c = none := by
  by_cases hc : c < Config.lCap
  · rw [validCount, List.countP_eq_zero] at h
    simpa using h c (List.mem_range.2 hc)
  · exact pivotAt_of_ge p c (by omega)

theorem countP_range_lt (f : Nat → Bool) (l n : Nat) (hf : ∀ c, f c = true → c < l) (d : Nat) (hd : d < l)
    (hd' : f d = false) : (List.range n).countP f < l := by
  have h1 : (List.range n).countP f ≤ ((List.range l).filter (· ≠ d)).length := by
    rw [List.countP_eq_length_filter]
    apply List.Subperm.length_le
    apply List.subperm_of_subset (List.nodup_range.filter _)
    intro c hc
    have := (List.mem_filter.1 hc).2
    simp only [List.mem_filter, List.mem_range, decide_eq_true_eq]
    refine ⟨hf c this, ?_⟩
    rintro rfl
    rw [hd'] at this
    cases this
  have h2 : ((List.range l).filter (· ≠ d)).length < l := by
    have := List.length_filter_lt_length_iff_exists (l := List.range l) (p := fun c => decide (c ≠ d))
    rw [List.length_range] at this
    exact this.2 ⟨d, List.mem_range.2 hd, by simp⟩
  omega

/-- At full rank every column has a row. -/
theorem all_valid_of_count {l : Nat} {p : Pivots} (he : Echelon l p) (h : validCount p = l) (c : Nat) (hc : c < l) :
    ∃ r, pivotAt p c = some r := by
  by_contra hno
  have hnone : (pivotAt p c).isSome = false := by
    rw [Option.isSome_eq_false_iff, Option.isNone_iff_eq_none]
    cases hp : pivotAt p c with
    | none => rfl
    | some r => exact absurd ⟨r, hp⟩ hno
  have := countP_range_lt (fun d => (pivotAt p d).isSome) l Config.lCap
    (fun d hd => by
      obtain ⟨r, hr⟩ := Option.isSome_iff_exists.1 hd
      exact (he d r hr).1) c hc hnone
  rw [validCount] at h
  omega

/-! ### BackSub -/

/-- The inner loop of `BackSub` over different columns that hold unit rows clears those columns of the row. -/
theorem reduceRow_bits (p : Pivots) (js : List Nat) (r : Row) (hn : js.Nodup)
    (hu : ∀ j ∈ js, (pivotAt p j).map Row.bits = some (unitRow j)) (i : Nat) :
    (reduceRow p js r).bits.getLsbD i = (r.bits.getLsbD i && decide (i ∉ js)) := by
  induction js generalizing r with
  | nil => simp [reduceRow]
  | cons j js ih =>
    have hj := hu j (by simp)
    obtain ⟨hjn, hn'⟩ := List.nodup_cons.1 hn
    have hu' : ∀ k ∈ js, (pivotAt p k).map Row.bits = some (unitRow k) := fun k hk => hu k (by simp [hk])
    obtain ⟨q, hq, hqb⟩ := Option.map_eq_some_iff.1 hj
    rw [reduceRow]
    cases hb : r.bits.getLsbD j with
    | true =>
      simp only [hq]
      rw [ih _ hn' hu', Row.xor]
      simp only [BitVec.getLsbD_xor, hqb, getLsbD_unitRow]
      have hlt : j < Config.lCap := lt_of_pivotAt hq
      by_cases h : i = j
      · subst h
        simp [hb, hlt]
      · simp [h]
    | false =>
      rw [ih _ hn' hu']
      by_cases h : i = j
      · subst h
        simp [hb]
      · simp [h]

theorem reduceRow_consistent_iff {x : Nat → Symbol} (p : Pivots) (js : List Nat) (r : Row)
    (h : ∀ j ∈ js, ∀ q, pivotAt p j = some q → Consistent x q) :
    Consistent x (reduceRow p js r) ↔ Consistent x r := by
  induction js generalizing r with
  | nil => rfl
  | cons j js ih =>
    have h' : ∀ k ∈ js, ∀ q, pivotAt p k = some q → Consistent x q := fun k hk => h k (by simp [hk])
    rw [reduceRow]
    cases hb : r.bits.getLsbD j with
    | false => exact ih r h'
    | true =>
      cases hq : pivotAt p j with
      | none => exact ih r h'
      | some q => exact (ih _ h').trans (consistent_xor_iff (h j (by simp) q hq))

theorem reduceRow_property {S : Row → Prop} (hxor : ∀ r q, S r → S q → S (r.xor q)) (p : Pivots) (js : List Nat) (r : Row)
    (hr : S r) (h : ∀ j q, pivotAt p j = some q → S q) : S (reduceRow p js r) := by
  induction js generalizing r with
  | nil => exact hr
  | cons j js ih =>
    rw [reduceRow]
    cases hb : r.bits.getLsbD j with
    | false => exact ih r hr
    | true =>
      cases hq : pivotAt p j with
      | none => exact ih r hr
      | some q => exact ih _ (hxor _ _ hr (h j q hq))

theorem mem_columnsAbove (c l j : Nat) : j ∈ columnsAbove c l ↔ c < j ∧ j < l := by
  rw [columnsAbove, List.mem_range'_1]
  omega

theorem nodup_columnsAbove (c l : Nat) : (columnsAbove c l).Nodup := List.nodup_range'

/-- A column of an echelon row that is reduced by unit rows at all the columns above it becomes a unit row. -/
theorem reduceRow_unit {l : Nat} {p : Pivots} (he : Echelon l p) {c : Nat} {r : Row} (hr : pivotAt p c = some r)
    (hu : ∀ j, c < j → j < l → (pivotAt p j).map Row.bits = some (unitRow j)) :
    (reduceRow p (columnsAbove c l) r).bits = unitRow c := by
  apply rowBits_ext
  intro i
  obtain ⟨hcl, hc, h0⟩ := he c r hr
  rw [reduceRow_bits p _ r (nodup_columnsAbove c l) (fun j hj => hu j ((mem_columnsAbove c l j).1 hj).1
    ((mem_columnsAbove c l j).1 hj).2), getLsbD_unitRow]
  have hlt := lt_of_pivotAt hr
  simp only [mem_columnsAbove]
  rcases Nat.lt_trichotomy i c with h | h | h
  · rw [h0 i (Or.inl h)]
    simp [show i ≠ c by omega]
  · subst h
    simp [hc, hlt]
  · by_cases hil : i < l
    · simp [h, hil, show i ≠ c by omega]
    · rw [h0 i (Or.inr (by omega))]
      simp [show i ≠ c by omega]

/-- `BackSub`, all of it (43_solver.md R102): from an echelon system with a row at every column below `l`, whose rows at
the columns from `n` on are unit rows, the loop over the columns below `n` makes every row a unit row, keeps the system
echelon and the same columns valid, keeps every property of rows that sums keep, and changes which assignments are
consistent with the whole system not at all. -/
theorem backSubLoop_spec {l : Nat} (n : Nat) (hn : n ≤ l) (p : Pivots) (he : Echelon l p)
    (hv : ∀ c, c < l → ∃ r, pivotAt p c = some r)
    (hu : ∀ j, n ≤ j → j < l → (pivotAt p j).map Row.bits = some (unitRow j)) :
    Echelon l (backSubLoop l n p) ∧
    (∀ c, c < l → (pivotAt (backSubLoop l n p) c).map Row.bits = some (unitRow c)) ∧
    (∀ c, (pivotAt (backSubLoop l n p) c).isSome = (pivotAt p c).isSome) ∧
    (∀ S : Row → Prop, (∀ r q, S r → S q → S (r.xor q)) → (∀ c r, pivotAt p c = some r → S r) →
      ∀ c r, pivotAt (backSubLoop l n p) c = some r → S r) ∧
    ∀ x : Nat → Symbol, AllConsistent x (backSubLoop l n p) ↔ AllConsistent x p := by
  induction n generalizing p with
  | zero => exact ⟨he, fun c hc => hu c (by omega) hc, fun _ => rfl, fun _ _ h => h, fun _ => Iff.rfl⟩
  | succ c ih =>
    obtain ⟨r, hr⟩ := hv c (by omega)
    have hlt := lt_of_pivotAt hr
    have hunit := reduceRow_unit he hr fun j hj hj' => hu j (by omega) hj'
    set q := reduceRow p (columnsAbove c l) r with hqdef
    have hat := fun d => pivotAt_setPivot p c d q hlt
    have he' : Echelon l (setPivot p c q) := by
      apply echelon_setPivot he (by omega) hlt
      · rw [hunit, getLsbD_unitRow]
        simp [hlt]
      · intro j hj
        rw [hunit, getLsbD_unitRow]
        simp
        omega
    have hv' : ∀ d, d < l → ∃ t, pivotAt (setPivot p c q) d = some t := by
      intro d hd
      rw [hat d]
      split
      · exact ⟨q, rfl⟩
      · exact hv d hd
    have hu' : ∀ j, c ≤ j → j < l → (pivotAt (setPivot p c q) j).map Row.bits = some (unitRow j) := by
      intro j hj hjl
      rw [hat j]
      split
      · next h => simp [h, hunit]
      · exact hu j (by omega) hjl
    obtain ⟨i1, i2, i3, i4, i5⟩ := ih (by omega) (setPivot p c q) he' hv' hu'
    have hloop : backSubLoop l (c + 1) p = backSubLoop l c (setPivot p c q) := by
      rw [backSubLoop]
      simp only [hr, hqdef]
    rw [hloop]
    refine ⟨i1, i2, fun d => ?_, fun S hxor hS => i4 S hxor ?_, fun x => (i5 x).trans ?_⟩
    · rw [i3 d, hat d]
      split
      · next h => simp [h, hr]
      · rfl
    · intro d t hd
      rw [hat d] at hd
      split at hd
      · cases hd
        exact reduceRow_property hxor p _ r (hS c r hr) hS
      · exact hS d t hd
    · constructor
      · intro h d t hd
        have hother : ∀ j ∈ columnsAbove c l, ∀ q', pivotAt p j = some q' → Consistent x q' := by
          intro j hj q' hq'
          have hjc : j ≠ c := by
            have := (mem_columnsAbove c l j).1 hj
            omega
          exact h j q' (by rw [hat j, if_neg hjc]; exact hq')
        by_cases hdc : d = c
        · subst hdc
          rw [hr] at hd
          cases hd
          exact (reduceRow_consistent_iff p _ r hother).1 (h d q (by rw [hat d, if_pos rfl]))
        · exact h d t (by rw [hat d, if_neg hdc]; exact hd)
      · intro h d t hd
        rw [hat d] at hd
        split at hd
        · cases hd
          exact (reduceRow_consistent_iff p _ r fun j _ q' hq' => h j q' hq').2 (h c r hr)
        · exact h d t hd

/-! ### Symbols that fit -/

theorem fits_zero (t : Nat) : Symbol.Fits 0 t := fun j _ => by simp

theorem fits_xor {a b : Symbol} {t : Nat} (ha : Symbol.Fits a t) (hb : Symbol.Fits b t) : Symbol.Fits (a ^^^ b) t := by
  intro j hj
  simp [ha j hj, hb j hj]

theorem fits_ofBytes (bytes : Nat → Byte) (t : Nat) : Symbol.Fits (Symbol.ofBytes bytes t) t := by
  intro j hj
  rw [getLsbD_symbolOfBytes]
  simp [show ¬ j < 8 * t by omega]

theorem fits_solAt {p : Pivots} {t : Nat} (h : ∀ c r, pivotAt p c = some r → Symbol.Fits r.val t) (c : Nat) :
    Symbol.Fits (solAt p c) t := by
  rw [solAt]
  cases hp : pivotAt p c with
  | none => exact fits_zero t
  | some r => exact h c r hp

theorem fits_xorOver {f : Nat → Symbol} {t : Nat} (h : ∀ c, Symbol.Fits (f c) t) (l : List Nat) :
    Symbol.Fits (xorOver f l) t := by
  induction l with
  | nil => exact fits_zero t
  | cons c l ih =>
    rw [xorOver_cons]
    exact fits_xor (h c) ih

end Sys2Proof.Machine
end

