-- ==== Sys2Proof/Laws/State.lean ====
section
/-! SUPPORT. What each named update of State does to each field, so that no proof unfolds a record update. -/

namespace Sys2Proof.Machine

open Sys2Proof

variable (s : State)

/-! ### `State.prologue` -/

@[simp] theorem State.prologue_build : (s.prologue).build = s.build := rfl
@[simp] theorem State.prologue_phase : (s.prologue).phase = s.phase := rfl
@[simp] theorem State.prologue_kreg : (s.prologue).kreg = s.kreg := rfl
@[simp] theorem State.prologue_lreg : (s.prologue).lreg = s.lreg := rfl
@[simp] theorem State.prologue_treg : (s.prologue).treg = s.treg := rfl
@[simp] theorem State.prologue_rank : (s.prologue).rank = s.rank := rfl
@[simp] theorem State.prologue_absorbed : (s.prologue).absorbed = false := rfl
@[simp] theorem State.prologue_dup : (s.prologue).dup = false := rfl
@[simp] theorem State.prologue_ignored : (s.prologue).ignored = false := rfl
@[simp] theorem State.prologue_result : (s.prologue).result = 0 := rfl
@[simp] theorem State.prologue_err : (s.prologue).err = 0 := rfl
@[simp] theorem State.prologue_esticky : (s.prologue).esticky = s.esticky := rfl
@[simp] theorem State.prologue_einfo0 : (s.prologue).einfo0 = s.einfo0 := rfl
@[simp] theorem State.prologue_einfo1 : (s.prologue).einfo1 = s.einfo1 := rfl
@[simp] theorem State.prologue_arg0 : (s.prologue).arg0 = s.arg0 := rfl
@[simp] theorem State.prologue_arg1 : (s.prologue).arg1 = s.arg1 := rfl
@[simp] theorem State.prologue_arg2 : (s.prologue).arg2 = s.arg2 := rfl
@[simp] theorem State.prologue_pivot : (s.prologue).pivot = s.pivot := rfl
@[simp] theorem State.prologue_seen : (s.prologue).seen = s.seen := rfl
@[simp] theorem State.prologue_recFlags : (s.prologue).recFlags = s.recFlags := rfl
@[simp] theorem State.prologue_acc : (s.prologue).acc = s.acc := rfl
@[simp] theorem State.prologue_din : (s.prologue).din = s.din := rfl
@[simp] theorem State.prologue_rowbuf : (s.prologue).rowbuf = s.rowbuf := rfl
@[simp] theorem State.prologue_resets : (s.prologue).resets = s.resets := rfl
@[simp] theorem State.prologue_pending : (s.prologue).pending = s.pending := rfl
@[simp] theorem State.prologue_response : (s.prologue).response = s.response := rfl

/-! ### `State.setResult` -/

@[simp] theorem State.setResult_build (v : Word) : (s.setResult v).build = s.build := rfl
@[simp] theorem State.setResult_phase (v : Word) : (s.setResult v).phase = s.phase := rfl
@[simp] theorem State.setResult_kreg (v : Word) : (s.setResult v).kreg = s.kreg := rfl
@[simp] theorem State.setResult_lreg (v : Word) : (s.setResult v).lreg = s.lreg := rfl
@[simp] theorem State.setResult_treg (v : Word) : (s.setResult v).treg = s.treg := rfl
@[simp] theorem State.setResult_rank (v : Word) : (s.setResult v).rank = s.rank := rfl
@[simp] theorem State.setResult_absorbed (v : Word) : (s.setResult v).absorbed = s.absorbed := rfl
@[simp] theorem State.setResult_dup (v : Word) : (s.setResult v).dup = s.dup := rfl
@[simp] theorem State.setResult_ignored (v : Word) : (s.setResult v).ignored = s.ignored := rfl
@[simp] theorem State.setResult_result (v : Word) : (s.setResult v).result = v := rfl
@[simp] theorem State.setResult_err (v : Word) : (s.setResult v).err = s.err := rfl
@[simp] theorem State.setResult_esticky (v : Word) : (s.setResult v).esticky = s.esticky := rfl
@[simp] theorem State.setResult_einfo0 (v : Word) : (s.setResult v).einfo0 = s.einfo0 := rfl
@[simp] theorem State.setResult_einfo1 (v : Word) : (s.setResult v).einfo1 = s.einfo1 := rfl
@[simp] theorem State.setResult_arg0 (v : Word) : (s.setResult v).arg0 = s.arg0 := rfl
@[simp] theorem State.setResult_arg1 (v : Word) : (s.setResult v).arg1 = s.arg1 := rfl
@[simp] theorem State.setResult_arg2 (v : Word) : (s.setResult v).arg2 = s.arg2 := rfl
@[simp] theorem State.setResult_pivot (v : Word) : (s.setResult v).pivot = s.pivot := rfl
@[simp] theorem State.setResult_seen (v : Word) : (s.setResult v).seen = s.seen := rfl
@[simp] theorem State.setResult_recFlags (v : Word) : (s.setResult v).recFlags = s.recFlags := rfl
@[simp] theorem State.setResult_acc (v : Word) : (s.setResult v).acc = s.acc := rfl
@[simp] theorem State.setResult_din (v : Word) : (s.setResult v).din = s.din := rfl
@[simp] theorem State.setResult_rowbuf (v : Word) : (s.setResult v).rowbuf = s.rowbuf := rfl
@[simp] theorem State.setResult_resets (v : Word) : (s.setResult v).resets = s.resets := rfl
@[simp] theorem State.setResult_pending (v : Word) : (s.setResult v).pending = s.pending := rfl
@[simp] theorem State.setResult_response (v : Word) : (s.setResult v).response = s.response := rfl

/-! ### `State.resultRank` -/

@[simp] theorem State.resultRank_build : (s.resultRank).build = s.build := rfl
@[simp] theorem State.resultRank_phase : (s.resultRank).phase = s.phase := rfl
@[simp] theorem State.resultRank_kreg : (s.resultRank).kreg = s.kreg := rfl
@[simp] theorem State.resultRank_lreg : (s.resultRank).lreg = s.lreg := rfl
@[simp] theorem State.resultRank_treg : (s.resultRank).treg = s.treg := rfl
@[simp] theorem State.resultRank_rank : (s.resultRank).rank = s.rank := rfl
@[simp] theorem State.resultRank_absorbed : (s.resultRank).absorbed = s.absorbed := rfl
@[simp] theorem State.resultRank_dup : (s.resultRank).dup = s.dup := rfl
@[simp] theorem State.resultRank_ignored : (s.resultRank).ignored = s.ignored := rfl
@[simp] theorem State.resultRank_result : (s.resultRank).result = s.rank.setWidth 32 := rfl
@[simp] theorem State.resultRank_err : (s.resultRank).err = s.err := rfl
@[simp] theorem State.resultRank_esticky : (s.resultRank).esticky = s.esticky := rfl
@[simp] theorem State.resultRank_einfo0 : (s.resultRank).einfo0 = s.einfo0 := rfl
@[simp] theorem State.resultRank_einfo1 : (s.resultRank).einfo1 = s.einfo1 := rfl
@[simp] theorem State.resultRank_arg0 : (s.resultRank).arg0 = s.arg0 := rfl
@[simp] theorem State.resultRank_arg1 : (s.resultRank).arg1 = s.arg1 := rfl
@[simp] theorem State.resultRank_arg2 : (s.resultRank).arg2 = s.arg2 := rfl
@[simp] theorem State.resultRank_pivot : (s.resultRank).pivot = s.pivot := rfl
@[simp] theorem State.resultRank_seen : (s.resultRank).seen = s.seen := rfl
@[simp] theorem State.resultRank_recFlags : (s.resultRank).recFlags = s.recFlags := rfl
@[simp] theorem State.resultRank_acc : (s.resultRank).acc = s.acc := rfl
@[simp] theorem State.resultRank_din : (s.resultRank).din = s.din := rfl
@[simp] theorem State.resultRank_rowbuf : (s.resultRank).rowbuf = s.rowbuf := rfl
@[simp] theorem State.resultRank_resets : (s.resultRank).resets = s.resets := rfl
@[simp] theorem State.resultRank_pending : (s.resultRank).pending = s.pending := rfl
@[simp] theorem State.resultRank_response : (s.resultRank).response = s.response := rfl

/-! ### `State.setDup` -/

@[simp] theorem State.setDup_build : (s.setDup).build = s.build := rfl
@[simp] theorem State.setDup_phase : (s.setDup).phase = s.phase := rfl
@[simp] theorem State.setDup_kreg : (s.setDup).kreg = s.kreg := rfl
@[simp] theorem State.setDup_lreg : (s.setDup).lreg = s.lreg := rfl
@[simp] theorem State.setDup_treg : (s.setDup).treg = s.treg := rfl
@[simp] theorem State.setDup_rank : (s.setDup).rank = s.rank := rfl
@[simp] theorem State.setDup_absorbed : (s.setDup).absorbed = s.absorbed := rfl
@[simp] theorem State.setDup_dup : (s.setDup).dup = true := rfl
@[simp] theorem State.setDup_ignored : (s.setDup).ignored = s.ignored := rfl
@[simp] theorem State.setDup_result : (s.setDup).result = s.result := rfl
@[simp] theorem State.setDup_err : (s.setDup).err = s.err := rfl
@[simp] theorem State.setDup_esticky : (s.setDup).esticky = s.esticky := rfl
@[simp] theorem State.setDup_einfo0 : (s.setDup).einfo0 = s.einfo0 := rfl
@[simp] theorem State.setDup_einfo1 : (s.setDup).einfo1 = s.einfo1 := rfl
@[simp] theorem State.setDup_arg0 : (s.setDup).arg0 = s.arg0 := rfl
@[simp] theorem State.setDup_arg1 : (s.setDup).arg1 = s.arg1 := rfl
@[simp] theorem State.setDup_arg2 : (s.setDup).arg2 = s.arg2 := rfl
@[simp] theorem State.setDup_pivot : (s.setDup).pivot = s.pivot := rfl
@[simp] theorem State.setDup_seen : (s.setDup).seen = s.seen := rfl
@[simp] theorem State.setDup_recFlags : (s.setDup).recFlags = s.recFlags := rfl
@[simp] theorem State.setDup_acc : (s.setDup).acc = s.acc := rfl
@[simp] theorem State.setDup_din : (s.setDup).din = s.din := rfl
@[simp] theorem State.setDup_rowbuf : (s.setDup).rowbuf = s.rowbuf := rfl
@[simp] theorem State.setDup_resets : (s.setDup).resets = s.resets := rfl
@[simp] theorem State.setDup_pending : (s.setDup).pending = s.pending := rfl
@[simp] theorem State.setDup_response : (s.setDup).response = s.response := rfl

/-! ### `State.setIgnored` -/

@[simp] theorem State.setIgnored_build : (s.setIgnored).build = s.build := rfl
@[simp] theorem State.setIgnored_phase : (s.setIgnored).phase = s.phase := rfl
@[simp] theorem State.setIgnored_kreg : (s.setIgnored).kreg = s.kreg := rfl
@[simp] theorem State.setIgnored_lreg : (s.setIgnored).lreg = s.lreg := rfl
@[simp] theorem State.setIgnored_treg : (s.setIgnored).treg = s.treg := rfl
@[simp] theorem State.setIgnored_rank : (s.setIgnored).rank = s.rank := rfl
@[simp] theorem State.setIgnored_absorbed : (s.setIgnored).absorbed = s.absorbed := rfl
@[simp] theorem State.setIgnored_dup : (s.setIgnored).dup = s.dup := rfl
@[simp] theorem State.setIgnored_ignored : (s.setIgnored).ignored = true := rfl
@[simp] theorem State.setIgnored_result : (s.setIgnored).result = s.result := rfl
@[simp] theorem State.setIgnored_err : (s.setIgnored).err = s.err := rfl
@[simp] theorem State.setIgnored_esticky : (s.setIgnored).esticky = s.esticky := rfl
@[simp] theorem State.setIgnored_einfo0 : (s.setIgnored).einfo0 = s.einfo0 := rfl
@[simp] theorem State.setIgnored_einfo1 : (s.setIgnored).einfo1 = s.einfo1 := rfl
@[simp] theorem State.setIgnored_arg0 : (s.setIgnored).arg0 = s.arg0 := rfl
@[simp] theorem State.setIgnored_arg1 : (s.setIgnored).arg1 = s.arg1 := rfl
@[simp] theorem State.setIgnored_arg2 : (s.setIgnored).arg2 = s.arg2 := rfl
@[simp] theorem State.setIgnored_pivot : (s.setIgnored).pivot = s.pivot := rfl
@[simp] theorem State.setIgnored_seen : (s.setIgnored).seen = s.seen := rfl
@[simp] theorem State.setIgnored_recFlags : (s.setIgnored).recFlags = s.recFlags := rfl
@[simp] theorem State.setIgnored_acc : (s.setIgnored).acc = s.acc := rfl
@[simp] theorem State.setIgnored_din : (s.setIgnored).din = s.din := rfl
@[simp] theorem State.setIgnored_rowbuf : (s.setIgnored).rowbuf = s.rowbuf := rfl
@[simp] theorem State.setIgnored_resets : (s.setIgnored).resets = s.resets := rfl
@[simp] theorem State.setIgnored_pending : (s.setIgnored).pending = s.pending := rfl
@[simp] theorem State.setIgnored_response : (s.setIgnored).response = s.response := rfl

/-! ### `State.raise` -/

@[simp] theorem State.raise_build (c : Condition) : (s.raise c).build = s.build := rfl
@[simp] theorem State.raise_phase (c : Condition) : (s.raise c).phase = s.phase := rfl
@[simp] theorem State.raise_kreg (c : Condition) : (s.raise c).kreg = s.kreg := rfl
@[simp] theorem State.raise_lreg (c : Condition) : (s.raise c).lreg = s.lreg := rfl
@[simp] theorem State.raise_treg (c : Condition) : (s.raise c).treg = s.treg := rfl
@[simp] theorem State.raise_rank (c : Condition) : (s.raise c).rank = s.rank := rfl
@[simp] theorem State.raise_absorbed (c : Condition) : (s.raise c).absorbed = s.absorbed := rfl
@[simp] theorem State.raise_dup (c : Condition) : (s.raise c).dup = s.dup := rfl
@[simp] theorem State.raise_ignored (c : Condition) : (s.raise c).ignored = s.ignored := rfl
@[simp] theorem State.raise_result (c : Condition) : (s.raise c).result = s.result := rfl
@[simp] theorem State.raise_err (c : Condition) : (s.raise c).err = c.code := rfl
@[simp] theorem State.raise_esticky (c : Condition) : (s.raise c).esticky = s.esticky ||| BitVec.twoPow 32 c.code.toNat := rfl
@[simp] theorem State.raise_arg0 (c : Condition) : (s.raise c).arg0 = s.arg0 := rfl
@[simp] theorem State.raise_arg1 (c : Condition) : (s.raise c).arg1 = s.arg1 := rfl
@[simp] theorem State.raise_arg2 (c : Condition) : (s.raise c).arg2 = s.arg2 := rfl
@[simp] theorem State.raise_pivot (c : Condition) : (s.raise c).pivot = s.pivot := rfl
@[simp] theorem State.raise_seen (c : Condition) : (s.raise c).seen = s.seen := rfl
@[simp] theorem State.raise_recFlags (c : Condition) : (s.raise c).recFlags = s.recFlags := rfl
@[simp] theorem State.raise_acc (c : Condition) : (s.raise c).acc = s.acc := rfl
@[simp] theorem State.raise_din (c : Condition) : (s.raise c).din = s.din := rfl
@[simp] theorem State.raise_rowbuf (c : Condition) : (s.raise c).rowbuf = s.rowbuf := rfl
@[simp] theorem State.raise_resets (c : Condition) : (s.raise c).resets = s.resets := rfl
@[simp] theorem State.raise_pending (c : Condition) : (s.raise c).pending = s.pending := rfl
@[simp] theorem State.raise_response (c : Condition) : (s.raise c).response = s.response := rfl

/-! ### `State.releaseSystem` -/

@[simp] theorem State.releaseSystem_build : (s.releaseSystem).build = s.build := rfl
@[simp] theorem State.releaseSystem_phase : (s.releaseSystem).phase = s.phase := rfl
@[simp] theorem State.releaseSystem_kreg : (s.releaseSystem).kreg = s.kreg := rfl
@[simp] theorem State.releaseSystem_lreg : (s.releaseSystem).lreg = s.lreg := rfl
@[simp] theorem State.releaseSystem_treg : (s.releaseSystem).treg = s.treg := rfl
@[simp] theorem State.releaseSystem_rank : (s.releaseSystem).rank = 0 := rfl
@[simp] theorem State.releaseSystem_absorbed : (s.releaseSystem).absorbed = s.absorbed := rfl
@[simp] theorem State.releaseSystem_dup : (s.releaseSystem).dup = s.dup := rfl
@[simp] theorem State.releaseSystem_ignored : (s.releaseSystem).ignored = s.ignored := rfl
@[simp] theorem State.releaseSystem_result : (s.releaseSystem).result = s.result := rfl
@[simp] theorem State.releaseSystem_err : (s.releaseSystem).err = s.err := rfl
@[simp] theorem State.releaseSystem_esticky : (s.releaseSystem).esticky = s.esticky := rfl
@[simp] theorem State.releaseSystem_einfo0 : (s.releaseSystem).einfo0 = s.einfo0 := rfl
@[simp] theorem State.releaseSystem_einfo1 : (s.releaseSystem).einfo1 = s.einfo1 := rfl
@[simp] theorem State.releaseSystem_arg0 : (s.releaseSystem).arg0 = s.arg0 := rfl
@[simp] theorem State.releaseSystem_arg1 : (s.releaseSystem).arg1 = s.arg1 := rfl
@[simp] theorem State.releaseSystem_arg2 : (s.releaseSystem).arg2 = s.arg2 := rfl
@[simp] theorem State.releaseSystem_pivot : (s.releaseSystem).pivot = noPivots := rfl
@[simp] theorem State.releaseSystem_seen : (s.releaseSystem).seen = [] := rfl
@[simp] theorem State.releaseSystem_recFlags : (s.releaseSystem).recFlags = 0 := rfl
@[simp] theorem State.releaseSystem_acc : (s.releaseSystem).acc = s.acc := rfl
@[simp] theorem State.releaseSystem_din : (s.releaseSystem).din = s.din := rfl
@[simp] theorem State.releaseSystem_rowbuf : (s.releaseSystem).rowbuf = s.rowbuf := rfl
@[simp] theorem State.releaseSystem_resets : (s.releaseSystem).resets = s.resets := rfl
@[simp] theorem State.releaseSystem_pending : (s.releaseSystem).pending = s.pending := rfl
@[simp] theorem State.releaseSystem_response : (s.releaseSystem).response = s.response := rfl

/-! ### `State.setAcc` -/

@[simp] theorem State.setAcc_build (a : Symbol) : (s.setAcc a).build = s.build := rfl
@[simp] theorem State.setAcc_phase (a : Symbol) : (s.setAcc a).phase = s.phase := rfl
@[simp] theorem State.setAcc_kreg (a : Symbol) : (s.setAcc a).kreg = s.kreg := rfl
@[simp] theorem State.setAcc_lreg (a : Symbol) : (s.setAcc a).lreg = s.lreg := rfl
@[simp] theorem State.setAcc_treg (a : Symbol) : (s.setAcc a).treg = s.treg := rfl
@[simp] theorem State.setAcc_rank (a : Symbol) : (s.setAcc a).rank = s.rank := rfl
@[simp] theorem State.setAcc_absorbed (a : Symbol) : (s.setAcc a).absorbed = s.absorbed := rfl
@[simp] theorem State.setAcc_dup (a : Symbol) : (s.setAcc a).dup = s.dup := rfl
@[simp] theorem State.setAcc_ignored (a : Symbol) : (s.setAcc a).ignored = s.ignored := rfl
@[simp] theorem State.setAcc_result (a : Symbol) : (s.setAcc a).result = s.result := rfl
@[simp] theorem State.setAcc_err (a : Symbol) : (s.setAcc a).err = s.err := rfl
@[simp] theorem State.setAcc_esticky (a : Symbol) : (s.setAcc a).esticky = s.esticky := rfl
@[simp] theorem State.setAcc_einfo0 (a : Symbol) : (s.setAcc a).einfo0 = s.einfo0 := rfl
@[simp] theorem State.setAcc_einfo1 (a : Symbol) : (s.setAcc a).einfo1 = s.einfo1 := rfl
@[simp] theorem State.setAcc_arg0 (a : Symbol) : (s.setAcc a).arg0 = s.arg0 := rfl
@[simp] theorem State.setAcc_arg1 (a : Symbol) : (s.setAcc a).arg1 = s.arg1 := rfl
@[simp] theorem State.setAcc_arg2 (a : Symbol) : (s.setAcc a).arg2 = s.arg2 := rfl
@[simp] theorem State.setAcc_pivot (a : Symbol) : (s.setAcc a).pivot = s.pivot := rfl
@[simp] theorem State.setAcc_seen (a : Symbol) : (s.setAcc a).seen = s.seen := rfl
@[simp] theorem State.setAcc_recFlags (a : Symbol) : (s.setAcc a).recFlags = s.recFlags := rfl
@[simp] theorem State.setAcc_acc (a : Symbol) : (s.setAcc a).acc = a := rfl
@[simp] theorem State.setAcc_din (a : Symbol) : (s.setAcc a).din = s.din := rfl
@[simp] theorem State.setAcc_rowbuf (a : Symbol) : (s.setAcc a).rowbuf = s.rowbuf := rfl
@[simp] theorem State.setAcc_resets (a : Symbol) : (s.setAcc a).resets = s.resets := rfl
@[simp] theorem State.setAcc_pending (a : Symbol) : (s.setAcc a).pending = s.pending := rfl
@[simp] theorem State.setAcc_response (a : Symbol) : (s.setAcc a).response = s.response := rfl

/-! ### `State.markSeen` -/

@[simp] theorem State.markSeen_build (e : Nat) : (s.markSeen e).build = s.build := rfl
@[simp] theorem State.markSeen_phase (e : Nat) : (s.markSeen e).phase = s.phase := rfl
@[simp] theorem State.markSeen_kreg (e : Nat) : (s.markSeen e).kreg = s.kreg := rfl
@[simp] theorem State.markSeen_lreg (e : Nat) : (s.markSeen e).lreg = s.lreg := rfl
@[simp] theorem State.markSeen_treg (e : Nat) : (s.markSeen e).treg = s.treg := rfl
@[simp] theorem State.markSeen_rank (e : Nat) : (s.markSeen e).rank = s.rank := rfl
@[simp] theorem State.markSeen_absorbed (e : Nat) : (s.markSeen e).absorbed = s.absorbed := rfl
@[simp] theorem State.markSeen_dup (e : Nat) : (s.markSeen e).dup = s.dup := rfl
@[simp] theorem State.markSeen_ignored (e : Nat) : (s.markSeen e).ignored = s.ignored := rfl
@[simp] theorem State.markSeen_result (e : Nat) : (s.markSeen e).result = s.result := rfl
@[simp] theorem State.markSeen_err (e : Nat) : (s.markSeen e).err = s.err := rfl
@[simp] theorem State.markSeen_esticky (e : Nat) : (s.markSeen e).esticky = s.esticky := rfl
@[simp] theorem State.markSeen_einfo0 (e : Nat) : (s.markSeen e).einfo0 = s.einfo0 := rfl
@[simp] theorem State.markSeen_einfo1 (e : Nat) : (s.markSeen e).einfo1 = s.einfo1 := rfl
@[simp] theorem State.markSeen_arg0 (e : Nat) : (s.markSeen e).arg0 = s.arg0 := rfl
@[simp] theorem State.markSeen_arg1 (e : Nat) : (s.markSeen e).arg1 = s.arg1 := rfl
@[simp] theorem State.markSeen_arg2 (e : Nat) : (s.markSeen e).arg2 = s.arg2 := rfl
@[simp] theorem State.markSeen_pivot (e : Nat) : (s.markSeen e).pivot = s.pivot := rfl
@[simp] theorem State.markSeen_seen (e : Nat) : (s.markSeen e).seen = addSeen e s.seen := rfl
@[simp] theorem State.markSeen_recFlags (e : Nat) : (s.markSeen e).recFlags = s.recFlags := rfl
@[simp] theorem State.markSeen_acc (e : Nat) : (s.markSeen e).acc = s.acc := rfl
@[simp] theorem State.markSeen_din (e : Nat) : (s.markSeen e).din = s.din := rfl
@[simp] theorem State.markSeen_rowbuf (e : Nat) : (s.markSeen e).rowbuf = s.rowbuf := rfl
@[simp] theorem State.markSeen_resets (e : Nat) : (s.markSeen e).resets = s.resets := rfl
@[simp] theorem State.markSeen_pending (e : Nat) : (s.markSeen e).pending = s.pending := rfl
@[simp] theorem State.markSeen_response (e : Nat) : (s.markSeen e).response = s.response := rfl

/-! ### `State.backSubstitute` -/

@[simp] theorem State.backSubstitute_build : (s.backSubstitute).build = s.build := rfl
@[simp] theorem State.backSubstitute_phase : (s.backSubstitute).phase = .recovered := rfl
@[simp] theorem State.backSubstitute_kreg : (s.backSubstitute).kreg = s.kreg := rfl
@[simp] theorem State.backSubstitute_lreg : (s.backSubstitute).lreg = s.lreg := rfl
@[simp] theorem State.backSubstitute_treg : (s.backSubstitute).treg = s.treg := rfl
@[simp] theorem State.backSubstitute_rank : (s.backSubstitute).rank = s.rank := rfl
@[simp] theorem State.backSubstitute_absorbed : (s.backSubstitute).absorbed = s.absorbed := rfl
@[simp] theorem State.backSubstitute_dup : (s.backSubstitute).dup = s.dup := rfl
@[simp] theorem State.backSubstitute_ignored : (s.backSubstitute).ignored = s.ignored := rfl
@[simp] theorem State.backSubstitute_result : (s.backSubstitute).result = s.result := rfl
@[simp] theorem State.backSubstitute_err : (s.backSubstitute).err = s.err := rfl
@[simp] theorem State.backSubstitute_esticky : (s.backSubstitute).esticky = s.esticky := rfl
@[simp] theorem State.backSubstitute_einfo0 : (s.backSubstitute).einfo0 = s.einfo0 := rfl
@[simp] theorem State.backSubstitute_einfo1 : (s.backSubstitute).einfo1 = s.einfo1 := rfl
@[simp] theorem State.backSubstitute_arg0 : (s.backSubstitute).arg0 = s.arg0 := rfl
@[simp] theorem State.backSubstitute_arg1 : (s.backSubstitute).arg1 = s.arg1 := rfl
@[simp] theorem State.backSubstitute_arg2 : (s.backSubstitute).arg2 = s.arg2 := rfl
@[simp] theorem State.backSubstitute_pivot : (s.backSubstitute).pivot = backSubLoop s.l s.l s.pivot := rfl
@[simp] theorem State.backSubstitute_seen : (s.backSubstitute).seen = s.seen := rfl
@[simp] theorem State.backSubstitute_recFlags : (s.backSubstitute).recFlags = s.recFlags ||| columnsBelow s.l := rfl
@[simp] theorem State.backSubstitute_acc : (s.backSubstitute).acc = s.acc := rfl
@[simp] theorem State.backSubstitute_din : (s.backSubstitute).din = s.din := rfl
@[simp] theorem State.backSubstitute_rowbuf : (s.backSubstitute).rowbuf = s.rowbuf := rfl
@[simp] theorem State.backSubstitute_resets : (s.backSubstitute).resets = s.resets := rfl
@[simp] theorem State.backSubstitute_pending : (s.backSubstitute).pending = s.pending := rfl
@[simp] theorem State.backSubstitute_response : (s.backSubstitute).response = s.response := rfl

/-! ### `State.configure` -/

@[simp] theorem State.configure_build : (s.configure).build = s.build := rfl
@[simp] theorem State.configure_phase : (s.configure).phase = .collecting := rfl
@[simp] theorem State.configure_kreg : (s.configure).kreg = s.arg0.setWidth 9 := rfl
@[simp] theorem State.configure_lreg : (s.configure).lreg = s.arg1.setWidth 12 := rfl
@[simp] theorem State.configure_treg : (s.configure).treg = s.arg2.setWidth 13 := rfl
@[simp] theorem State.configure_rank : (s.configure).rank = 0 := rfl
@[simp] theorem State.configure_absorbed : (s.configure).absorbed = s.absorbed := rfl
@[simp] theorem State.configure_dup : (s.configure).dup = s.dup := rfl
@[simp] theorem State.configure_ignored : (s.configure).ignored = s.ignored := rfl
@[simp] theorem State.configure_result : (s.configure).result = s.result := rfl
@[simp] theorem State.configure_err : (s.configure).err = s.err := rfl
@[simp] theorem State.configure_esticky : (s.configure).esticky = s.esticky := rfl
@[simp] theorem State.configure_einfo0 : (s.configure).einfo0 = s.einfo0 := rfl
@[simp] theorem State.configure_einfo1 : (s.configure).einfo1 = s.einfo1 := rfl
@[simp] theorem State.configure_arg0 : (s.configure).arg0 = s.arg0 := rfl
@[simp] theorem State.configure_arg1 : (s.configure).arg1 = s.arg1 := rfl
@[simp] theorem State.configure_arg2 : (s.configure).arg2 = s.arg2 := rfl
@[simp] theorem State.configure_pivot : (s.configure).pivot = noPivots := rfl
@[simp] theorem State.configure_seen : (s.configure).seen = [] := rfl
@[simp] theorem State.configure_recFlags : (s.configure).recFlags = 0 := rfl
@[simp] theorem State.configure_acc : (s.configure).acc = 0 := rfl
@[simp] theorem State.configure_din : (s.configure).din = s.din := rfl
@[simp] theorem State.configure_rowbuf : (s.configure).rowbuf = s.rowbuf := rfl
@[simp] theorem State.configure_resets : (s.configure).resets = s.resets := rfl
@[simp] theorem State.configure_pending : (s.configure).pending = s.pending := rfl
@[simp] theorem State.configure_response : (s.configure).response = s.response := rfl

/-! ### `State.answer` -/

@[simp] theorem State.answer_build (r : Response) : (s.answer r).build = s.build := rfl
@[simp] theorem State.answer_phase (r : Response) : (s.answer r).phase = s.phase := rfl
@[simp] theorem State.answer_kreg (r : Response) : (s.answer r).kreg = s.kreg := rfl
@[simp] theorem State.answer_lreg (r : Response) : (s.answer r).lreg = s.lreg := rfl
@[simp] theorem State.answer_treg (r : Response) : (s.answer r).treg = s.treg := rfl
@[simp] theorem State.answer_rank (r : Response) : (s.answer r).rank = s.rank := rfl
@[simp] theorem State.answer_absorbed (r : Response) : (s.answer r).absorbed = s.absorbed := rfl
@[simp] theorem State.answer_dup (r : Response) : (s.answer r).dup = s.dup := rfl
@[simp] theorem State.answer_ignored (r : Response) : (s.answer r).ignored = s.ignored := rfl
@[simp] theorem State.answer_result (r : Response) : (s.answer r).result = s.result := rfl
@[simp] theorem State.answer_err (r : Response) : (s.answer r).err = s.err := rfl
@[simp] theorem State.answer_esticky (r : Response) : (s.answer r).esticky = s.esticky := rfl
@[simp] theorem State.answer_einfo0 (r : Response) : (s.answer r).einfo0 = s.einfo0 := rfl
@[simp] theorem State.answer_einfo1 (r : Response) : (s.answer r).einfo1 = s.einfo1 := rfl
@[simp] theorem State.answer_arg0 (r : Response) : (s.answer r).arg0 = s.arg0 := rfl
@[simp] theorem State.answer_arg1 (r : Response) : (s.answer r).arg1 = s.arg1 := rfl
@[simp] theorem State.answer_arg2 (r : Response) : (s.answer r).arg2 = s.arg2 := rfl
@[simp] theorem State.answer_pivot (r : Response) : (s.answer r).pivot = s.pivot := rfl
@[simp] theorem State.answer_seen (r : Response) : (s.answer r).seen = s.seen := rfl
@[simp] theorem State.answer_recFlags (r : Response) : (s.answer r).recFlags = s.recFlags := rfl
@[simp] theorem State.answer_acc (r : Response) : (s.answer r).acc = s.acc := rfl
@[simp] theorem State.answer_din (r : Response) : (s.answer r).din = s.din := rfl
@[simp] theorem State.answer_rowbuf (r : Response) : (s.answer r).rowbuf = s.rowbuf := rfl
@[simp] theorem State.answer_resets (r : Response) : (s.answer r).resets = s.resets := rfl
@[simp] theorem State.answer_pending (r : Response) : (s.answer r).pending = s.pending := rfl
@[simp] theorem State.answer_response (r : Response) : (s.answer r).response = some r := rfl

@[simp] theorem State.raise_insufficient_einfo0 : (s.raise .insufficientSymbols).einfo0 = s.rank.setWidth 32 := rfl
@[simp] theorem State.raise_insufficient_einfo1 : (s.raise .insufficientSymbols).einfo1 = s.lreg.setWidth 32 := rfl
@[simp] theorem State.raise_invalid_einfo0 : (s.raise .invalidParameters).einfo0 = s.einfo0 := rfl
@[simp] theorem State.raise_invalid_einfo1 : (s.raise .invalidParameters).einfo1 = s.einfo1 := rfl
@[simp] theorem State.raise_illegal_einfo0 : (s.raise .illegalCommand).einfo0 = s.einfo0 := rfl
@[simp] theorem State.raise_illegal_einfo1 : (s.raise .illegalCommand).einfo1 = s.einfo1 := rfl

/-! ### The views of a state that only some updates change -/

@[simp] theorem State.prologue_k : (s.prologue).k = s.k := rfl
@[simp] theorem State.prologue_l : (s.prologue).l = s.l := rfl
@[simp] theorem State.prologue_t : (s.prologue).t = s.t := rfl
@[simp] theorem State.prologue_x0 : (s.prologue).x0 = s.x0 := rfl
@[simp] theorem State.prologue_x1 : (s.prologue).x1 = s.x1 := rfl
@[simp] theorem State.prologue_x2 : (s.prologue).x2 = s.x2 := rfl
@[simp] theorem State.prologue_dinSymbol : (s.prologue).dinSymbol = s.dinSymbol := rfl
@[simp] theorem State.prologue_rowbufRow : (s.prologue).rowbufRow = s.rowbufRow := rfl
@[simp] theorem State.setResult_k (v : Word) : (s.setResult v).k = s.k := rfl
@[simp] theorem State.setResult_l (v : Word) : (s.setResult v).l = s.l := rfl
@[simp] theorem State.setResult_t (v : Word) : (s.setResult v).t = s.t := rfl
@[simp] theorem State.setResult_x0 (v : Word) : (s.setResult v).x0 = s.x0 := rfl
@[simp] theorem State.setResult_x1 (v : Word) : (s.setResult v).x1 = s.x1 := rfl
@[simp] theorem State.setResult_x2 (v : Word) : (s.setResult v).x2 = s.x2 := rfl
@[simp] theorem State.setResult_dinSymbol (v : Word) : (s.setResult v).dinSymbol = s.dinSymbol := rfl
@[simp] theorem State.setResult_rowbufRow (v : Word) : (s.setResult v).rowbufRow = s.rowbufRow := rfl
@[simp] theorem State.resultRank_k : (s.resultRank).k = s.k := rfl
@[simp] theorem State.resultRank_l : (s.resultRank).l = s.l := rfl
@[simp] theorem State.resultRank_t : (s.resultRank).t = s.t := rfl
@[simp] theorem State.resultRank_x0 : (s.resultRank).x0 = s.x0 := rfl
@[simp] theorem State.resultRank_x1 : (s.resultRank).x1 = s.x1 := rfl
@[simp] theorem State.resultRank_x2 : (s.resultRank).x2 = s.x2 := rfl
@[simp] theorem State.resultRank_dinSymbol : (s.resultRank).dinSymbol = s.dinSymbol := rfl
@[simp] theorem State.resultRank_rowbufRow : (s.resultRank).rowbufRow = s.rowbufRow := rfl
@[simp] theorem State.setDup_k : (s.setDup).k = s.k := rfl
@[simp] theorem State.setDup_l : (s.setDup).l = s.l := rfl
@[simp] theorem State.setDup_t : (s.setDup).t = s.t := rfl
@[simp] theorem State.setDup_x0 : (s.setDup).x0 = s.x0 := rfl
@[simp] theorem State.setDup_x1 : (s.setDup).x1 = s.x1 := rfl
@[simp] theorem State.setDup_x2 : (s.setDup).x2 = s.x2 := rfl
@[simp] theorem State.setDup_dinSymbol : (s.setDup).dinSymbol = s.dinSymbol := rfl
@[simp] theorem State.setDup_rowbufRow : (s.setDup).rowbufRow = s.rowbufRow := rfl
@[simp] theorem State.setIgnored_k : (s.setIgnored).k = s.k := rfl
@[simp] theorem State.setIgnored_l : (s.setIgnored).l = s.l := rfl
@[simp] theorem State.setIgnored_t : (s.setIgnored).t = s.t := rfl
@[simp] theorem State.setIgnored_x0 : (s.setIgnored).x0 = s.x0 := rfl
@[simp] theorem State.setIgnored_x1 : (s.setIgnored).x1 = s.x1 := rfl
@[simp] theorem State.setIgnored_x2 : (s.setIgnored).x2 = s.x2 := rfl
@[simp] theorem State.setIgnored_dinSymbol : (s.setIgnored).dinSymbol = s.dinSymbol := rfl
@[simp] theorem State.setIgnored_rowbufRow : (s.setIgnored).rowbufRow = s.rowbufRow := rfl
@[simp] theorem State.raise_k (c : Condition) : (s.raise c).k = s.k := rfl
@[simp] theorem State.raise_l (c : Condition) : (s.raise c).l = s.l := rfl
@[simp] theorem State.raise_t (c : Condition) : (s.raise c).t = s.t := rfl
@[simp] theorem State.raise_x0 (c : Condition) : (s.raise c).x0 = s.x0 := rfl
@[simp] theorem State.raise_x1 (c : Condition) : (s.raise c).x1 = s.x1 := rfl
@[simp] theorem State.raise_x2 (c : Condition) : (s.raise c).x2 = s.x2 := rfl
@[simp] theorem State.raise_dinSymbol (c : Condition) : (s.raise c).dinSymbol = s.dinSymbol := rfl
@[simp] theorem State.raise_rowbufRow (c : Condition) : (s.raise c).rowbufRow = s.rowbufRow := rfl
@[simp] theorem State.releaseSystem_k : (s.releaseSystem).k = s.k := rfl
@[simp] theorem State.releaseSystem_l : (s.releaseSystem).l = s.l := rfl
@[simp] theorem State.releaseSystem_t : (s.releaseSystem).t = s.t := rfl
@[simp] theorem State.releaseSystem_x0 : (s.releaseSystem).x0 = s.x0 := rfl
@[simp] theorem State.releaseSystem_x1 : (s.releaseSystem).x1 = s.x1 := rfl
@[simp] theorem State.releaseSystem_x2 : (s.releaseSystem).x2 = s.x2 := rfl
@[simp] theorem State.releaseSystem_dinSymbol : (s.releaseSystem).dinSymbol = s.dinSymbol := rfl
@[simp] theorem State.releaseSystem_rowbufRow : (s.releaseSystem).rowbufRow = s.rowbufRow := rfl
@[simp] theorem State.setAcc_k (a : Symbol) : (s.setAcc a).k = s.k := rfl
@[simp] theorem State.setAcc_l (a : Symbol) : (s.setAcc a).l = s.l := rfl
@[simp] theorem State.setAcc_t (a : Symbol) : (s.setAcc a).t = s.t := rfl
@[simp] theorem State.setAcc_x0 (a : Symbol) : (s.setAcc a).x0 = s.x0 := rfl
@[simp] theorem State.setAcc_x1 (a : Symbol) : (s.setAcc a).x1 = s.x1 := rfl
@[simp] theorem State.setAcc_x2 (a : Symbol) : (s.setAcc a).x2 = s.x2 := rfl
@[simp] theorem State.setAcc_dinSymbol (a : Symbol) : (s.setAcc a).dinSymbol = s.dinSymbol := rfl
@[simp] theorem State.setAcc_rowbufRow (a : Symbol) : (s.setAcc a).rowbufRow = s.rowbufRow := rfl
@[simp] theorem State.markSeen_k (e : Nat) : (s.markSeen e).k = s.k := rfl
@[simp] theorem State.markSeen_l (e : Nat) : (s.markSeen e).l = s.l := rfl
@[simp] theorem State.markSeen_t (e : Nat) : (s.markSeen e).t = s.t := rfl
@[simp] theorem State.markSeen_x0 (e : Nat) : (s.markSeen e).x0 = s.x0 := rfl
@[simp] theorem State.markSeen_x1 (e : Nat) : (s.markSeen e).x1 = s.x1 := rfl
@[simp] theorem State.markSeen_x2 (e : Nat) : (s.markSeen e).x2 = s.x2 := rfl
@[simp] theorem State.markSeen_dinSymbol (e : Nat) : (s.markSeen e).dinSymbol = s.dinSymbol := rfl
@[simp] theorem State.markSeen_rowbufRow (e : Nat) : (s.markSeen e).rowbufRow = s.rowbufRow := rfl
@[simp] theorem State.backSubstitute_k : (s.backSubstitute).k = s.k := rfl
@[simp] theorem State.backSubstitute_l : (s.backSubstitute).l = s.l := rfl
@[simp] theorem State.backSubstitute_t : (s.backSubstitute).t = s.t := rfl
@[simp] theorem State.backSubstitute_x0 : (s.backSubstitute).x0 = s.x0 := rfl
@[simp] theorem State.backSubstitute_x1 : (s.backSubstitute).x1 = s.x1 := rfl
@[simp] theorem State.backSubstitute_x2 : (s.backSubstitute).x2 = s.x2 := rfl
@[simp] theorem State.backSubstitute_dinSymbol : (s.backSubstitute).dinSymbol = s.dinSymbol := rfl
@[simp] theorem State.backSubstitute_rowbufRow : (s.backSubstitute).rowbufRow = s.rowbufRow := rfl
@[simp] theorem State.configure_x0 : (s.configure).x0 = s.x0 := rfl
@[simp] theorem State.configure_x1 : (s.configure).x1 = s.x1 := rfl
@[simp] theorem State.configure_x2 : (s.configure).x2 = s.x2 := rfl
@[simp] theorem State.configure_rowbufRow : (s.configure).rowbufRow = s.rowbufRow := rfl
@[simp] theorem State.answer_k (r : Response) : (s.answer r).k = s.k := rfl
@[simp] theorem State.answer_l (r : Response) : (s.answer r).l = s.l := rfl
@[simp] theorem State.answer_t (r : Response) : (s.answer r).t = s.t := rfl
@[simp] theorem State.answer_x0 (r : Response) : (s.answer r).x0 = s.x0 := rfl
@[simp] theorem State.answer_x1 (r : Response) : (s.answer r).x1 = s.x1 := rfl
@[simp] theorem State.answer_x2 (r : Response) : (s.answer r).x2 = s.x2 := rfl
@[simp] theorem State.answer_dinSymbol (r : Response) : (s.answer r).dinSymbol = s.dinSymbol := rfl
@[simp] theorem State.answer_rowbufRow (r : Response) : (s.answer r).rowbufRow = s.rowbufRow := rfl

/-! ### `State.afterReset` and `sresetRule` -/

@[simp] theorem State.afterReset_build (b : Build) (n : Nat) : (State.afterReset b n).build = b := rfl
@[simp] theorem State.afterReset_phase (b : Build) (n : Nat) : (State.afterReset b n).phase = .unconfigured := rfl
@[simp] theorem State.afterReset_kreg (b : Build) (n : Nat) : (State.afterReset b n).kreg = 0 := rfl
@[simp] theorem State.afterReset_lreg (b : Build) (n : Nat) : (State.afterReset b n).lreg = 0 := rfl
@[simp] theorem State.afterReset_treg (b : Build) (n : Nat) : (State.afterReset b n).treg = 0 := rfl
@[simp] theorem State.afterReset_rank (b : Build) (n : Nat) : (State.afterReset b n).rank = 0 := rfl
@[simp] theorem State.afterReset_absorbed (b : Build) (n : Nat) : (State.afterReset b n).absorbed = false := rfl
@[simp] theorem State.afterReset_dup (b : Build) (n : Nat) : (State.afterReset b n).dup = false := rfl
@[simp] theorem State.afterReset_ignored (b : Build) (n : Nat) : (State.afterReset b n).ignored = false := rfl
@[simp] theorem State.afterReset_result (b : Build) (n : Nat) : (State.afterReset b n).result = 0 := rfl
@[simp] theorem State.afterReset_err (b : Build) (n : Nat) : (State.afterReset b n).err = 0 := rfl
@[simp] theorem State.afterReset_esticky (b : Build) (n : Nat) : (State.afterReset b n).esticky = 0 := rfl
@[simp] theorem State.afterReset_einfo0 (b : Build) (n : Nat) : (State.afterReset b n).einfo0 = 0 := rfl
@[simp] theorem State.afterReset_einfo1 (b : Build) (n : Nat) : (State.afterReset b n).einfo1 = 0 := rfl
@[simp] theorem State.afterReset_arg0 (b : Build) (n : Nat) : (State.afterReset b n).arg0 = 0 := rfl
@[simp] theorem State.afterReset_arg1 (b : Build) (n : Nat) : (State.afterReset b n).arg1 = 0 := rfl
@[simp] theorem State.afterReset_arg2 (b : Build) (n : Nat) : (State.afterReset b n).arg2 = 0 := rfl
@[simp] theorem State.afterReset_pivot (b : Build) (n : Nat) : (State.afterReset b n).pivot = noPivots := rfl
@[simp] theorem State.afterReset_seen (b : Build) (n : Nat) : (State.afterReset b n).seen = [] := rfl
@[simp] theorem State.afterReset_recFlags (b : Build) (n : Nat) : (State.afterReset b n).recFlags = 0 := rfl
@[simp] theorem State.afterReset_acc (b : Build) (n : Nat) : (State.afterReset b n).acc = 0 := rfl
@[simp] theorem State.afterReset_din (b : Build) (n : Nat) : (State.afterReset b n).din =
    State.buffer (Config.symCap / 4) (Config.dinAtReset n) := rfl
@[simp] theorem State.afterReset_rowbuf (b : Build) (n : Nat) : (State.afterReset b n).rowbuf =
    State.buffer (Config.lCap / 32) (Config.rowbufAtReset n) := rfl
@[simp] theorem State.afterReset_resets (b : Build) (n : Nat) : (State.afterReset b n).resets = n := rfl
@[simp] theorem State.afterReset_pending (b : Build) (n : Nat) : (State.afterReset b n).pending = [] := rfl
@[simp] theorem State.afterReset_response (b : Build) (n : Nat) : (State.afterReset b n).response = none := rfl
@[simp] theorem sresetRule_build : (sresetRule s).build = s.build := rfl
@[simp] theorem sresetRule_phase : (sresetRule s).phase = .unconfigured := rfl
@[simp] theorem sresetRule_kreg : (sresetRule s).kreg = 0 := rfl
@[simp] theorem sresetRule_lreg : (sresetRule s).lreg = 0 := rfl
@[simp] theorem sresetRule_treg : (sresetRule s).treg = 0 := rfl
@[simp] theorem sresetRule_rank : (sresetRule s).rank = 0 := rfl
@[simp] theorem sresetRule_absorbed : (sresetRule s).absorbed = false := rfl
@[simp] theorem sresetRule_dup : (sresetRule s).dup = false := rfl
@[simp] theorem sresetRule_ignored : (sresetRule s).ignored = false := rfl
@[simp] theorem sresetRule_result : (sresetRule s).result = 0 := rfl
@[simp] theorem sresetRule_err : (sresetRule s).err = 0 := rfl
@[simp] theorem sresetRule_esticky : (sresetRule s).esticky = 0 := rfl
@[simp] theorem sresetRule_einfo0 : (sresetRule s).einfo0 = 0 := rfl
@[simp] theorem sresetRule_einfo1 : (sresetRule s).einfo1 = 0 := rfl
@[simp] theorem sresetRule_arg0 : (sresetRule s).arg0 = 0 := rfl
@[simp] theorem sresetRule_arg1 : (sresetRule s).arg1 = 0 := rfl
@[simp] theorem sresetRule_arg2 : (sresetRule s).arg2 = 0 := rfl
@[simp] theorem sresetRule_pivot : (sresetRule s).pivot = noPivots := rfl
@[simp] theorem sresetRule_seen : (sresetRule s).seen = [] := rfl
@[simp] theorem sresetRule_recFlags : (sresetRule s).recFlags = 0 := rfl
@[simp] theorem sresetRule_acc : (sresetRule s).acc = 0 := rfl
@[simp] theorem sresetRule_din : (sresetRule s).din = s.din := rfl
@[simp] theorem sresetRule_rowbuf : (sresetRule s).rowbuf = s.rowbuf := rfl
@[simp] theorem sresetRule_resets : (sresetRule s).resets = s.resets := rfl
@[simp] theorem sresetRule_pending : (sresetRule s).pending = s.pending := rfl
@[simp] theorem sresetRule_response : (sresetRule s).response = s.response := rfl

end Sys2Proof.Machine
end

