-- ==== Sys2Proof/Laws/Commands.lean ====
section
/-! SUPPORT. What the frame of a command, raising a condition and the shared operations of the commands can do, each
once: a proof about a command cites these and unfolds nothing but the command's own rule. -/

namespace Sys2Proof.Machine

open Sys2Proof

/-! ### Raising a condition (60_exceptions.md R120) -/

theorem prologue_eq_completed (s : State) : s.prologue = s.completed 0 := rfl

theorem raise_invalidParameters (s : State) : s.prologue.raise .invalidParameters = s.rejected 1 := by
  simp [State.raise, State.prologue, State.rejected, Condition.code, BitVec.twoPow]

theorem raise_illegalCommand (s : State) : s.prologue.raise .illegalCommand = s.rejected 4 := by
  simp [State.raise, State.prologue, State.rejected, Condition.code, BitVec.twoPow]

theorem raise_insufficientSymbols (s : State) : s.prologue.raise .insufficientSymbols =
    { s.rejected 2 with einfo0 := s.rank.setWidth 32, einfo1 := s.lreg.setWidth 32 } := by
  simp [State.raise, State.prologue, State.rejected, Condition.code, BitVec.twoPow]

theorem illegalWord_eq (s : State) : s.illegalWord = s.rejected 4 := raise_illegalCommand s

/-! ### The frame of a command (40_control.md R67) -/

/-- The rule of each command. -/
def ruleOf : Instr → State → State
  | .nop => fun p => p
  | .cfg => cfgRule
  | .abort => abortRule
  | .endStream => endRule
  | .sreset => sresetRule
  | .sample => sampleRule
  | .cmbclr => fun p => p.setAcc 0
  | .cmbdin => cmbdinRule
  | .cmbsym => cmbsymRule
  | .ldsol => ldsolRule
  | .encode => fun p => encodeRule p.build.idxgen p
  | .insrow => insrowRule
  | .insesi => fun p => insesiRule p.build.idxgen p
  | .backsub => backsubRule

theorem exec_eq_command (i : Instr) (s : State) : exec i s = command i (ruleOf i) s := by cases i <;> rfl

theorem command_illegal {i : Instr} {s : State} (rule : State → State) (h : admission i s.phase = .illegal) :
    command i rule s = .next (s.rejected 4) := by
  rw [command, h, ← raise_illegalCommand]

theorem command_admitted {i : Instr} {s : State} (rule : State → State) (h : admission i s.phase ≠ .illegal) :
    command i rule s = .next (rule s.prologue) := by
  rw [command]
  split
  · exact absurd ‹_› h
  · rfl
  · rfl

/-- The only two ways a command ends. -/
theorem command_cases {i : Instr} {s t : State} {rule : State → State} (h : command i rule s = .next t) :
    (admission i s.phase = .illegal ∧ t = s.rejected 4) ∨ (admission i s.phase ≠ .illegal ∧ t = rule s.prologue) := by
  by_cases ha : admission i s.phase = .illegal
  · rw [command_illegal rule ha] at h
    cases h
    exact .inl ⟨ha, rfl⟩
  · rw [command_admitted rule ha] at h
    cases h
    exact .inr ⟨ha, rfl⟩

theorem exec_cases {i : Instr} {s t : State} (h : exec i s = .next t) :
    (admission i s.phase = .illegal ∧ t = s.rejected 4) ∨
      (admission i s.phase ≠ .illegal ∧ t = ruleOf i s.prologue) :=
  command_cases (exec_eq_command i s ▸ h)

theorem command_next (i : Instr) (rule : State → State) (s : State) : ∃ t, command i rule s = .next t := by
  by_cases ha : admission i s.phase = .illegal
  · exact ⟨_, command_illegal rule ha⟩
  · exact ⟨_, command_admitted rule ha⟩

/-! ### The fields of what a command leaves -/

section
variable (s : State)

@[simp] theorem State.completed_build (v : Word) : (s.completed v).build = s.build := rfl
@[simp] theorem State.completed_phase (v : Word) : (s.completed v).phase = s.phase := rfl
@[simp] theorem State.completed_kreg (v : Word) : (s.completed v).kreg = s.kreg := rfl
@[simp] theorem State.completed_lreg (v : Word) : (s.completed v).lreg = s.lreg := rfl
@[simp] theorem State.completed_treg (v : Word) : (s.completed v).treg = s.treg := rfl
@[simp] theorem State.completed_rank (v : Word) : (s.completed v).rank = s.rank := rfl
@[simp] theorem State.completed_absorbed (v : Word) : (s.completed v).absorbed = false := rfl
@[simp] theorem State.completed_dup (v : Word) : (s.completed v).dup = false := rfl
@[simp] theorem State.completed_ignored (v : Word) : (s.completed v).ignored = false := rfl
@[simp] theorem State.completed_result (v : Word) : (s.completed v).result = v := rfl
@[simp] theorem State.completed_err (v : Word) : (s.completed v).err = 0 := rfl
@[simp] theorem State.completed_esticky (v : Word) : (s.completed v).esticky = s.esticky := rfl
@[simp] theorem State.completed_einfo0 (v : Word) : (s.completed v).einfo0 = s.einfo0 := rfl
@[simp] theorem State.completed_einfo1 (v : Word) : (s.completed v).einfo1 = s.einfo1 := rfl
@[simp] theorem State.completed_arg0 (v : Word) : (s.completed v).arg0 = s.arg0 := rfl
@[simp] theorem State.completed_arg1 (v : Word) : (s.completed v).arg1 = s.arg1 := rfl
@[simp] theorem State.completed_arg2 (v : Word) : (s.completed v).arg2 = s.arg2 := rfl
@[simp] theorem State.completed_pivot (v : Word) : (s.completed v).pivot = s.pivot := rfl
@[simp] theorem State.completed_seen (v : Word) : (s.completed v).seen = s.seen := rfl
@[simp] theorem State.completed_recFlags (v : Word) : (s.completed v).recFlags = s.recFlags := rfl
@[simp] theorem State.completed_acc (v : Word) : (s.completed v).acc = s.acc := rfl
@[simp] theorem State.completed_din (v : Word) : (s.completed v).din = s.din := rfl
@[simp] theorem State.completed_rowbuf (v : Word) : (s.completed v).rowbuf = s.rowbuf := rfl
@[simp] theorem State.completed_resets (v : Word) : (s.completed v).resets = s.resets := rfl
@[simp] theorem State.completed_pending (v : Word) : (s.completed v).pending = s.pending := rfl
@[simp] theorem State.completed_response (v : Word) : (s.completed v).response = s.response := rfl
@[simp] theorem State.rejected_build (code : BitVec 3) : (s.rejected code).build = s.build := rfl
@[simp] theorem State.rejected_phase (code : BitVec 3) : (s.rejected code).phase = s.phase := rfl
@[simp] theorem State.rejected_kreg (code : BitVec 3) : (s.rejected code).kreg = s.kreg := rfl
@[simp] theorem State.rejected_lreg (code : BitVec 3) : (s.rejected code).lreg = s.lreg := rfl
@[simp] theorem State.rejected_treg (code : BitVec 3) : (s.rejected code).treg = s.treg := rfl
@[simp] theorem State.rejected_rank (code : BitVec 3) : (s.rejected code).rank = s.rank := rfl
@[simp] theorem State.rejected_absorbed (code : BitVec 3) : (s.rejected code).absorbed = false := rfl
@[simp] theorem State.rejected_dup (code : BitVec 3) : (s.rejected code).dup = false := rfl
@[simp] theorem State.rejected_ignored (code : BitVec 3) : (s.rejected code).ignored = false := rfl
@[simp] theorem State.rejected_result (code : BitVec 3) : (s.rejected code).result = 0 := rfl
@[simp] theorem State.rejected_err (code : BitVec 3) : (s.rejected code).err = code := rfl
@[simp] theorem State.rejected_esticky (code : BitVec 3) : (s.rejected code).esticky = s.esticky ||| (1#32 <<< code.toNat) := rfl
@[simp] theorem State.rejected_einfo0 (code : BitVec 3) : (s.rejected code).einfo0 = s.einfo0 := rfl
@[simp] theorem State.rejected_einfo1 (code : BitVec 3) : (s.rejected code).einfo1 = s.einfo1 := rfl
@[simp] theorem State.rejected_arg0 (code : BitVec 3) : (s.rejected code).arg0 = s.arg0 := rfl
@[simp] theorem State.rejected_arg1 (code : BitVec 3) : (s.rejected code).arg1 = s.arg1 := rfl
@[simp] theorem State.rejected_arg2 (code : BitVec 3) : (s.rejected code).arg2 = s.arg2 := rfl
@[simp] theorem State.rejected_pivot (code : BitVec 3) : (s.rejected code).pivot = s.pivot := rfl
@[simp] theorem State.rejected_seen (code : BitVec 3) : (s.rejected code).seen = s.seen := rfl
@[simp] theorem State.rejected_recFlags (code : BitVec 3) : (s.rejected code).recFlags = s.recFlags := rfl
@[simp] theorem State.rejected_acc (code : BitVec 3) : (s.rejected code).acc = s.acc := rfl
@[simp] theorem State.rejected_din (code : BitVec 3) : (s.rejected code).din = s.din := rfl
@[simp] theorem State.rejected_rowbuf (code : BitVec 3) : (s.rejected code).rowbuf = s.rowbuf := rfl
@[simp] theorem State.rejected_resets (code : BitVec 3) : (s.rejected code).resets = s.resets := rfl
@[simp] theorem State.rejected_pending (code : BitVec 3) : (s.rejected code).pending = s.pending := rfl
@[simp] theorem State.rejected_response (code : BitVec 3) : (s.rejected code).response = s.response := rfl
@[simp] theorem State.completed_k (v : Word) : (s.completed v).k = s.k := rfl
@[simp] theorem State.rejected_k (code : BitVec 3) : (s.rejected code).k = s.k := rfl
@[simp] theorem State.completed_l (v : Word) : (s.completed v).l = s.l := rfl
@[simp] theorem State.rejected_l (code : BitVec 3) : (s.rejected code).l = s.l := rfl
@[simp] theorem State.completed_t (v : Word) : (s.completed v).t = s.t := rfl
@[simp] theorem State.rejected_t (code : BitVec 3) : (s.rejected code).t = s.t := rfl

end

/-! ### TryInsert as an update of State (43_solver.md R100) -/

theorem tryInsert_discarded {s : State} {r : Row} (h : insertLoop s.pivot s.l r = none) :
    s.tryInsert r = { s with absorbed := false } := by
  rw [State.tryInsert, h]

theorem tryInsert_absorbed {s : State} {r q : Row} {c : Nat} (h : insertLoop s.pivot s.l r = some (c, q)) :
    s.tryInsert r = { s with absorbed := true, pivot := setPivot s.pivot c q, rank := s.rank + 1 } := by
  rw [State.tryInsert, h]

/-- What `TryInsert` can write: `ABSORBED`, `PIVOT` and `RANK`. -/
theorem tryInsert_frame (s : State) (r : Row) :
    s.tryInsert r = { s with
      absorbed := (s.tryInsert r).absorbed, pivot := (s.tryInsert r).pivot, rank := (s.tryInsert r).rank } := by
  cases h : insertLoop s.pivot s.l r with
  | none => rw [tryInsert_discarded h]
  | some a => rw [tryInsert_absorbed (c := a.1) (q := a.2) h]

/-! ### Widths (10_state.md R19, R20) -/

theorem rank_eq_lreg_iff (s : State) : s.rank = s.lreg ↔ s.rank.toNat = s.l := by
  rw [State.l, BitVec.toNat_eq]

theorem rank_succ_toNat {r : BitVec 12} (h : r.toNat < Config.lCap) : (r + 1).toNat = r.toNat + 1 := by
  have := lCap_lt
  rw [BitVec.toNat_add]
  simp
  omega

end Sys2Proof.Machine
end

