-- ==== Sys2Proof/Laws/Rules.lean ====
section
/-! SUPPORT. Each command's rule, branch by branch: what it comes to under the condition of each branch. -/

namespace Sys2Proof.Machine

open Sys2Proof

/-! ### Conditions of the branches -/

theorem kOutOfRange_iff (b : Build) (k : Nat) : kOutOfRange b k = true ↔ (k < 4 ∨ 256 < k) := by
  rw [kOutOfRange, Bool.or_eq_true, decide_eq_true_iff, decide_eq_true_iff, b.kMin_eq, b.kMax_eq]

theorem answerValid_iff (l : Nat) (a : IdxAnswer) : answerValid l a = true ↔
    (1 ≤ a.degree ∧ a.degree ≤ l ∧ a.indices.length = a.degree ∧ (∀ i ∈ a.indices, i < l) ∧ a.indices.Nodup) := by
  simp [answerValid, and_assoc]

/-- Which states admit a command (40_control.md R68). -/
theorem admission_ne_illegal_iff (i : Instr) (p : Phase) : admission i p ≠ .illegal ↔
    match i with
    | .nop | .sreset | .sample | .abort => True
    | .cfg => p = .unconfigured ∨ p = .recovered ∨ p = .aborted
    | .cmbclr | .cmbdin | .endStream | .insrow | .insesi => p ≠ .unconfigured
    | .cmbsym | .ldsol | .encode => p = .recovered
    | .backsub => p = .solvable ∨ p = .recovered := by
  cases i <;> cases p <;> simp [admission]

/-- An admitted command runs its rule on the state after the prologue. -/
theorem exec_admitted {i : Instr} {s : State} {p : Phase} (hp : s.phase = p) (h : admission i p ≠ .illegal) :
    exec i s = .next (ruleOf i s.prologue) :=
  (exec_eq_command i s).trans (command_admitted _ (hp ▸ h))

/-- A command that the state does not admit only reports it. -/
theorem exec_illegal {i : Instr} {s : State} {p : Phase} (hp : s.phase = p) (h : admission i p = .illegal) :
    exec i s = .next (s.rejected 4) :=
  (exec_eq_command i s).trans (command_illegal _ (hp ▸ h))

/-! ### CFG (40_control.md R70) -/

theorem cfgRule_rejects {p : State}
    (h : p.x0 < 4 ∨ 256 < p.x0 ∨ p.x1 ≤ p.x0 ∨ p.build.lMax < p.x1 ∨ p.x2 = 0 ∨ p.build.symMax < p.x2) :
    cfgRule p = p.raise .invalidParameters := by
  rw [cfgRule]
  split
  · rfl
  · next h1 =>
    rw [kOutOfRange_iff] at h1
    split
    · rfl
    · split
      · rfl
      · omega

theorem cfgRule_accepts {p : State}
    (h : 4 ≤ p.x0 ∧ p.x0 ≤ 256 ∧ p.x0 < p.x1 ∧ p.x1 ≤ p.build.lMax ∧ 1 ≤ p.x2 ∧ p.x2 ≤ p.build.symMax) :
    cfgRule p = p.configure := by
  rw [cfgRule, if_neg (by rw [kOutOfRange_iff]; omega), if_neg (by omega), if_neg (by omega)]

/-- The parameters `CFG` loads are the operands' full values (40_control.md R70). -/
theorem configure_parameters {p : State} (h0 : p.x0 ≤ 256) (h1 : p.x1 ≤ p.build.lMax)
    (h2 : p.x2 ≤ p.build.symMax) :
    p.configure.k = p.x0 ∧ p.configure.l = p.x1 ∧ p.configure.t = p.x2 := by
  have hl := Nat.lt_of_le_of_lt p.build.lMax_le lCap_lt
  have ht := Nat.lt_of_le_of_lt p.build.symMax_le symCap_lt
  refine ⟨?_, ?_, ?_⟩
  · show (p.arg0.setWidth 9).toNat = p.arg0.toNat
    rw [BitVec.toNat_setWidth]
    exact Nat.mod_eq_of_lt (Nat.lt_of_le_of_lt h0 (by decide))
  · show (p.arg1.setWidth 12).toNat = p.arg1.toNat
    rw [BitVec.toNat_setWidth]
    exact Nat.mod_eq_of_lt (Nat.lt_of_le_of_lt h1 hl)
  · show (p.arg2.setWidth 13).toNat = p.arg2.toNat
    rw [BitVec.toNat_setWidth]
    exact Nat.mod_eq_of_lt (Nat.lt_of_le_of_lt h2 ht)

/-! ### ABORT and END (40_control.md R71, R72) -/

theorem abortRule_releases {p : State} (h : p.phase = .collecting ∨ p.phase = .solvable) :
    abortRule p = { p.releaseSystem with phase := .aborted } := by
  rw [abortRule]
  rcases h with h | h <;> simp only [h]

theorem abortRule_ignored {p : State} (h : p.phase = .unconfigured ∨ p.phase = .recovered ∨ p.phase = .aborted) :
    abortRule p = p.setIgnored := by
  rw [abortRule]
  rcases h with h | h | h <;> simp only [h]

theorem endRule_collecting {p : State} (h : p.phase = .collecting) : endRule p = p.raise .insufficientSymbols := by
  rw [endRule]
  simp only [h]

theorem endRule_ignored {p : State} (h : p.phase ≠ .collecting) : endRule p = p.setIgnored.resultRank := by
  rw [endRule]
  split
  · exact absurd ‹_› h
  all_goals rfl

/-! ### SAMPLE (41_sampler.md R82) -/

theorem sampleRule_rejects {p : State} (h : p.x0 < 4 ∨ 256 < p.x0) : sampleRule p = p.raise .invalidParameters := by
  rw [sampleRule, if_pos ((kOutOfRange_iff _ _).2 h)]

theorem sampleRule_samples {p : State} (h : 4 ≤ p.x0 ∧ p.x0 ≤ 256) :
    sampleRule p = p.setResult (BitVec.ofNat 32 (sampleDegree p.build.degTable p.x0 p.arg1)) := by
  rw [sampleRule, if_neg (by rw [kOutOfRange_iff]; omega)]

/-- The draw is the low 20 bits (41_sampler.md R79). -/
theorem drawOf_eq (rv : Word) : drawOf rv = rv.toNat % 2 ^ 20 := by simp [drawOf, BitVec.extractLsb'_toNat]

/-- The degree of the first table row whose breakpoint lies above the draw (41_sampler.md R80). -/
theorem degreeOf_of_first (table : List DegRow) (j v : Nat) (r : DegRow) (hj : table[j]? = some r) (hr : v < r.breakpoint)
    (hlow : ∀ j' r', j' < j → table[j']? = some r' → r'.breakpoint ≤ v) : degreeOf table v = r.degree := by
  induction table generalizing j with
  | nil => simp at hj
  | cons a table ih =>
    cases j with
    | zero =>
      obtain rfl : a = r := by simpa using hj
      rw [degreeOf, if_pos hr]
    | succ j =>
      have h0 := hlow 0 a (by omega) (by simp)
      rw [degreeOf, if_neg (by omega)]
      exact ih j (by simpa using hj) fun j' r' h1 h2 => hlow (j' + 1) r' (by omega) (by simpa using h2)

/-- A draw below some breakpoint finds a first row whose breakpoint lies above it. -/
theorem exists_first_row (table : List DegRow) (v : Nat) (h : ∃ r ∈ table, v < r.breakpoint) :
    ∃ (j : Nat) (r : DegRow), table[j]? = some r ∧ v < r.breakpoint ∧
      ∀ (j' : Nat) (r' : DegRow), j' < j → table[j']? = some r' → r'.breakpoint ≤ v := by
  induction table with
  | nil => simp at h
  | cons a table ih =>
    by_cases ha : v < a.breakpoint
    · exact ⟨0, a, rfl, ha, fun j' r' hj => absurd hj (Nat.not_lt_zero _)⟩
    · obtain ⟨r, hr, hv⟩ := h
      obtain ⟨j, q, h1, h2, h3⟩ := ih ⟨r, (List.mem_cons.1 hr).resolve_left (fun h => ha (h ▸ hv)), hv⟩
      refine ⟨j + 1, q, h1, h2, fun j' r' hj hr' => ?_⟩
      cases j' with
      | zero =>
        obtain rfl : a = r' := by simpa using hr'
        exact Nat.not_lt.1 ha
      | succ j' => exact h3 j' r' (by omega) (by simpa using hr')

/-- In an instance every draw finds a row, since the last breakpoint is 2^20 (41_sampler.md R78), and its degree is at
least 1. -/
theorem degTable_first_row (b : Build) (v : Nat) (hv : v < 2 ^ 20) :
    ∃ (j : Nat) (r : DegRow), b.degTable[j]? = some r ∧ v < r.breakpoint ∧
      (∀ (j' : Nat) (r' : DegRow), j' < j → b.degTable[j']? = some r' → r'.breakpoint ≤ v) ∧ 1 ≤ r.degree := by
  have h := b.degTable_wf
  simp only [degTableWf, Bool.and_eq_true, decide_eq_true_eq, Option.map_eq_some_iff, List.all_eq_true] at h
  obtain ⟨⟨-, r, hr, hb⟩, hd⟩ := h
  obtain ⟨j, q, h1, h2, h3⟩ := exists_first_row b.degTable v ⟨r, List.mem_of_getLast? hr, by omega⟩
  exact ⟨j, q, h1, h2, h3, hd q (List.mem_of_getElem? h1)⟩

/-! ### The combiner (42_combiner.md R91 to R94) -/

theorem cmbdinRule_rejects {p : State} (h : p.x1 ≠ p.t) : cmbdinRule p = p.raise .invalidParameters := by
  rw [cmbdinRule, if_pos h]

theorem cmbdinRule_mixes {p : State} (h : p.x1 = p.t) : cmbdinRule p = p.setAcc (p.acc ^^^ p.dinSymbol) := by
  rw [cmbdinRule, if_neg (not_not_intro h)]

theorem cmbsymRule_rejects {p : State} (h : p.l ≤ p.x0) : cmbsymRule p = p.raise .invalidParameters := by
  rw [cmbsymRule, if_pos h]

theorem cmbsymRule_mixes {p : State} (h : p.x0 < p.l) : cmbsymRule p = p.setAcc (p.acc ^^^ solAt p.pivot p.x0) := by
  rw [cmbsymRule, if_neg (Nat.not_le.2 h)]

theorem ldsolRule_rejects {p : State} (h : p.l ≤ p.x0) : ldsolRule p = p.raise .invalidParameters := by
  rw [ldsolRule, if_pos h]

theorem ldsolRule_loads {p : State} (h : p.x0 < p.l) : ldsolRule p = p.setAcc (solAt p.pivot p.x0) := by
  rw [ldsolRule, if_neg (Nat.not_le.2 h)]

theorem encodeRule_bound {gen : IdxGen} {p : State} (h : p.build.esiBound ≤ p.x0) :
    encodeRule gen p = p.raise .invalidParameters := by
  rw [encodeRule, if_pos h]

theorem encodeRule_systematic {gen : IdxGen} {p : State} (h : p.x0 < p.build.esiBound) (hk : p.x0 < p.k) :
    encodeRule gen p = (p.setAcc (solAt p.pivot p.x0)).setResult 1 := by
  rw [encodeRule, if_neg (Nat.not_le.2 h), if_pos hk]

theorem encodeRule_valid {gen : IdxGen} {p : State} (h : p.x0 < p.build.esiBound) (hk : p.k ≤ p.x0)
    (hv : answerValid p.l (gen p.k p.l p.x0) = true) :
    encodeRule gen p = (p.setAcc (xorOver (solAt p.pivot) (gen p.k p.l p.x0).indices)).setResult
      (BitVec.ofNat 32 (gen p.k p.l p.x0).degree) := by
  rw [encodeRule, if_neg (Nat.not_le.2 h), if_neg (Nat.not_lt.2 hk)]
  exact if_pos hv

theorem encodeRule_invalid {gen : IdxGen} {p : State} (h : p.x0 < p.build.esiBound) (hk : p.k ≤ p.x0)
    (hv : answerValid p.l (gen p.k p.l p.x0) = false) : encodeRule gen p = p.raise .invalidParameters := by
  rw [encodeRule, if_neg (Nat.not_le.2 h), if_neg (Nat.not_lt.2 hk)]
  exact if_neg (by simp [hv])

/-- An encoding symbol has no equation exactly when its answer is asked for and not valid (41_sampler.md R87). -/
theorem eqRow_eq_none_iff (gen : IdxGen) (k l esi : Nat) :
    eqRow gen k l esi = none ↔ k ≤ esi ∧ answerValid l (gen k l esi) = false := by
  rw [eqRow]
  split
  · next h => exact ⟨fun h' => absurd h' (Option.some_ne_none _), fun h' => absurd h (Nat.not_lt.2 h'.1)⟩
  · next h =>
    by_cases hv : answerValid l (gen k l esi) = true
    · rw [if_pos hv]
      exact ⟨fun h' => absurd h' (Option.some_ne_none _), fun h' => absurd hv (by rw [h'.2]; exact Bool.false_ne_true)⟩
    · rw [if_neg hv]
      exact ⟨fun _ => ⟨Nat.not_lt.1 h, Bool.not_eq_true _ ▸ hv⟩, fun _ => rfl⟩

theorem eqRow_systematic {gen : IdxGen} {k l esi : Nat} (h : esi < k) : eqRow gen k l esi = some (unitRow esi) := by
  rw [eqRow, if_pos h]

theorem eqRow_valid {gen : IdxGen} {k l esi : Nat} (h : k ≤ esi) (hv : answerValid l (gen k l esi) = true) :
    eqRow gen k l esi = some (RowBits.ofColumns (gen k l esi).indices) := by
  rw [eqRow, if_neg (Nat.not_lt.2 h), if_pos hv]

/-- An equation has no bit at a column `>= L` (41_sampler.md R87). -/
theorem eqRow_below {gen : IdxGen} {k l esi : Nat} {b : RowBits} (hkl : k ≤ l) (h : eqRow gen k l esi = some b) (j : Nat)
    (hj : l ≤ j) : b.getLsbD j = false := by
  rw [eqRow] at h
  split at h
  · next hk =>
    obtain rfl := Option.some.inj h
    rw [getLsbD_unitRow, decide_eq_false_iff_not]
    omega
  · split at h
    · next hv =>
      obtain rfl := Option.some.inj h
      obtain ⟨-, -, -, hi, -⟩ := (answerValid_iff _ _).1 hv
      rw [getLsbD_ofColumns]
      simp only [decide_eq_false_iff_not]
      rintro ⟨hm, -⟩
      have := hi j hm
      omega
    · cases h

/-! ### The solver (43_solver.md R103 to R105) -/

theorem insrowRule_length {p : State} (h : p.x1 ≠ p.t) : insrowRule p = p.raise .invalidParameters := by
  rw [insrowRule, if_pos h]

theorem insrowRule_columns {p : State} (h : p.rowbufRow.below p.l = false) :
    insrowRule p = p.raise .invalidParameters := by
  rw [insrowRule]
  split <;> rfl

theorem insrowRule_ignored {p : State} (h : p.x1 = p.t) (hb : p.rowbufRow.below p.l = true) (hp : p.phase ≠ .collecting) :
    insrowRule p = p.setIgnored.resultRank := by
  rw [insrowRule, if_neg (not_not_intro h), if_neg (by simp [hb]), if_pos hp]

theorem insrowRule_inserts {p : State} (h : p.x1 = p.t) (hb : p.rowbufRow.below p.l = true) (hp : p.phase = .collecting) :
    insrowRule p = (p.tryInsert ⟨p.rowbufRow, p.dinSymbol⟩).solvableAtFullRank.resultRank := by
  rw [insrowRule, if_neg (not_not_intro h), if_neg (by simp [hb]), if_neg (not_not_intro hp)]

theorem insesiRule_bound {gen : IdxGen} {p : State} (h : p.build.esiBound ≤ p.x0) :
    insesiRule gen p = p.raise .invalidParameters := by
  rw [insesiRule, if_pos h]

theorem insesiRule_length {gen : IdxGen} {p : State} (h : p.x1 ≠ p.t) :
    insesiRule gen p = p.raise .invalidParameters := by
  rw [insesiRule]
  split <;> rfl

theorem insesiRule_ignored {gen : IdxGen} {p : State} (h : p.x0 < p.build.esiBound) (h1 : p.x1 = p.t)
    (hp : p.phase ≠ .collecting) : insesiRule gen p = p.setIgnored.resultRank := by
  rw [insesiRule, if_neg (Nat.not_le.2 h), if_neg (not_not_intro h1), if_pos hp]

theorem insesiRule_duplicate {gen : IdxGen} {p : State} (h : p.x0 < p.build.esiBound) (h1 : p.x1 = p.t)
    (hp : p.phase = .collecting) (hs : p.x0 ∈ p.seen) : insesiRule gen p = p.setDup.resultRank := by
  rw [insesiRule, if_neg (Nat.not_le.2 h), if_neg (not_not_intro h1), if_neg (not_not_intro hp), if_pos hs]

theorem insesiRule_invalid {gen : IdxGen} {p : State} (h : p.x0 < p.build.esiBound) (h1 : p.x1 = p.t)
    (hp : p.phase = .collecting) (hs : p.x0 ∉ p.seen) (he : eqRow gen p.k p.l p.x0 = none) :
    insesiRule gen p = p.raise .invalidParameters := by
  rw [insesiRule, if_neg (Nat.not_le.2 h), if_neg (not_not_intro h1), if_neg (not_not_intro hp), if_neg hs, he]

theorem insesiRule_inserts {gen : IdxGen} {p : State} {b : RowBits} (h : p.x0 < p.build.esiBound) (h1 : p.x1 = p.t)
    (hp : p.phase = .collecting) (hs : p.x0 ∉ p.seen) (he : eqRow gen p.k p.l p.x0 = some b) :
    insesiRule gen p = ((p.markSeen p.x0).tryInsert ⟨b, p.dinSymbol⟩).recoverAtFullRank.resultRank := by
  rw [insesiRule, if_neg (Nat.not_le.2 h), if_neg (not_not_intro h1), if_neg (not_not_intro hp), if_neg hs, he]

theorem solvableAtFullRank_full {s : State} (h : s.rank = s.lreg) : s.solvableAtFullRank = { s with phase := .solvable } := by
  rw [State.solvableAtFullRank, if_pos h]

theorem solvableAtFullRank_short {s : State} (h : s.rank ≠ s.lreg) : s.solvableAtFullRank = s := by
  rw [State.solvableAtFullRank, if_neg h]

theorem recoverAtFullRank_full {s : State} (h : s.rank = s.lreg) : s.recoverAtFullRank = s.backSubstitute := by
  rw [State.recoverAtFullRank, if_pos h]

theorem recoverAtFullRank_short {s : State} (h : s.rank ≠ s.lreg) : s.recoverAtFullRank = s := by
  rw [State.recoverAtFullRank, if_neg h]

theorem backsubRule_solvable {p : State} (h : p.phase = .solvable) : backsubRule p = p.backSubstitute.resultRank := by
  rw [backsubRule]
  simp only [h]

theorem backsubRule_ignored {p : State} (h : p.phase ≠ .solvable) : backsubRule p = p.setIgnored.resultRank := by
  rw [backsubRule]
  split
  · exact absurd ‹_› h
  all_goals rfl

end Sys2Proof.Machine
end

