-- ==== Sys2Proof/Laws/Inversion.lean ====
section
/-! SUPPORT. What one command can do, said once: the three ways a command ends, and for each command the states it can
leave where it raised neither `IllegalCommand` nor `InvalidParameters`. -/

namespace Sys2Proof.Machine

open Sys2Proof

/-- What makes an admitted command's operands invalid (60_exceptions.md R117). -/
def operandsInvalid (i : Instr) (s : State) : Prop :=
  match i with
  | .nop | .abort | .endStream | .sreset | .cmbclr | .backsub => False
  | .cfg => s.x0 < 4 ∨ 256 < s.x0 ∨ s.x1 ≤ s.x0 ∨ s.build.lMax < s.x1 ∨ s.x2 = 0 ∨ s.build.symMax < s.x2
  | .sample => s.x0 < 4 ∨ 256 < s.x0
  | .cmbdin => s.x1 ≠ s.t
  | .cmbsym | .ldsol => s.l ≤ s.x0
  | .encode => s.build.esiBound ≤ s.x0 ∨ eqRow s.build.idxgen s.k s.l s.x0 = none
  | .insrow => s.x1 ≠ s.t ∨ s.rowbufRow.below s.l = false
  | .insesi => s.build.esiBound ≤ s.x0 ∨ s.x1 ≠ s.t ∨
      (s.phase = .collecting ∧ s.x0 ∉ s.seen ∧ eqRow s.build.idxgen s.k s.l s.x0 = none)

/-- The states an admitted command with valid operands can leave. -/
def endsIn (i : Instr) (s t : State) : Prop :=
  match i with
  | .nop => t = s.prologue
  | .cfg => t = s.prologue.configure
  | .abort =>
    ((s.phase = .collecting ∨ s.phase = .solvable) ∧ t = { s.prologue.releaseSystem with phase := .aborted }) ∨
    ((s.phase = .unconfigured ∨ s.phase = .recovered ∨ s.phase = .aborted) ∧ t = s.prologue.setIgnored)
  | .endStream =>
    (s.phase = .collecting ∧
      t = { s.rejected 2 with einfo0 := s.rank.setWidth 32, einfo1 := s.lreg.setWidth 32 }) ∨
    (s.phase ≠ .collecting ∧ t = s.prologue.setIgnored.resultRank)
  | .sreset => t = sresetRule s.prologue
  | .sample => t = s.prologue.setResult (BitVec.ofNat 32 (sampleDegree s.build.degTable s.x0 s.arg1))
  | .cmbclr => t = s.prologue.setAcc 0
  | .cmbdin => t = s.prologue.setAcc (s.acc ^^^ s.dinSymbol)
  | .cmbsym => t = s.prologue.setAcc (s.acc ^^^ solAt s.pivot s.x0)
  | .ldsol => t = s.prologue.setAcc (solAt s.pivot s.x0)
  | .encode => ∃ a d, t = (s.prologue.setAcc a).setResult d ∧
      ((s.x0 < s.k ∧ a = solAt s.pivot s.x0 ∧ d = 1) ∨
        (s.k ≤ s.x0 ∧ a = xorOver (solAt s.pivot) (s.build.idxgen s.k s.l s.x0).indices ∧
          d = BitVec.ofNat 32 (s.build.idxgen s.k s.l s.x0).degree))
  | .insrow =>
    (s.phase ≠ .collecting ∧ t = s.prologue.setIgnored.resultRank) ∨
    (s.phase = .collecting ∧
      t = (s.prologue.tryInsert ⟨s.rowbufRow, s.dinSymbol⟩).solvableAtFullRank.resultRank)
  | .insesi =>
    (s.phase ≠ .collecting ∧ t = s.prologue.setIgnored.resultRank) ∨
    (s.phase = .collecting ∧ s.x0 ∈ s.seen ∧ t = s.prologue.setDup.resultRank) ∨
    (s.phase = .collecting ∧ s.x0 ∉ s.seen ∧ ∃ b, eqRow s.build.idxgen s.k s.l s.x0 = some b ∧
      t = ((s.prologue.markSeen s.x0).tryInsert ⟨b, s.dinSymbol⟩).recoverAtFullRank.resultRank)
  | .backsub =>
    (s.phase = .solvable ∧ t = s.prologue.backSubstitute.resultRank) ∨
    (s.phase = .recovered ∧ t = s.prologue.setIgnored.resultRank)

theorem rule_invalid {i : Instr} {s : State} (h : operandsInvalid i s) : ruleOf i s.prologue = s.rejected 1 := by
  rw [← raise_invalidParameters]
  cases i with
  | nop | abort | endStream | sreset | cmbclr | backsub => exact h.elim
  | cfg => exact cfgRule_rejects (p := s.prologue) h
  | sample => exact sampleRule_rejects (p := s.prologue) h
  | cmbdin => exact cmbdinRule_rejects (p := s.prologue) h
  | cmbsym => exact cmbsymRule_rejects (p := s.prologue) h
  | ldsol => exact ldsolRule_rejects (p := s.prologue) h
  | encode =>
    by_cases hb : s.build.esiBound ≤ s.x0
    · exact encodeRule_bound (p := s.prologue) hb
    · have hv := (eqRow_eq_none_iff _ _ _ _).1 (h.resolve_left hb)
      exact encodeRule_invalid (p := s.prologue) (Nat.not_le.1 hb) hv.1 hv.2
  | insrow =>
    rcases h with h | h
    · exact insrowRule_length (p := s.prologue) h
    · exact insrowRule_columns (p := s.prologue) h
  | insesi =>
    by_cases hb : s.build.esiBound ≤ s.x0
    · exact insesiRule_bound (p := s.prologue) hb
    · by_cases hl : s.x1 = s.t
      · obtain ⟨h1, h2, h3⟩ := (h.resolve_left hb).resolve_left (not_not_intro hl)
        exact insesiRule_invalid (p := s.prologue) (Nat.not_le.1 hb) hl h1 h2 h3
      · exact insesiRule_length (p := s.prologue) hl

theorem rule_ends {i : Instr} {s : State} (ha : admission i s.phase ≠ .illegal) (h : ¬ operandsInvalid i s) :
    endsIn i s (ruleOf i s.prologue) := by
  rw [admission_ne_illegal_iff] at ha
  cases i with
  | nop => exact rfl
  | cfg =>
    simp only [operandsInvalid, not_or] at h
    exact cfgRule_accepts (p := s.prologue)
      (by simp only [State.prologue_x0, State.prologue_x1, State.prologue_x2, State.prologue_build]; omega)
  | abort =>
    cases hp : s.phase with
    | collecting => exact .inl ⟨.inl hp, abortRule_releases (p := s.prologue) (.inl hp)⟩
    | solvable => exact .inl ⟨.inr hp, abortRule_releases (p := s.prologue) (.inr hp)⟩
    | unconfigured => exact .inr ⟨.inl hp, abortRule_ignored (p := s.prologue) (.inl hp)⟩
    | recovered => exact .inr ⟨.inr (.inl hp), abortRule_ignored (p := s.prologue) (.inr (.inl hp))⟩
    | aborted => exact .inr ⟨.inr (.inr hp), abortRule_ignored (p := s.prologue) (.inr (.inr hp))⟩
  | endStream =>
    by_cases hp : s.phase = .collecting
    · exact .inl ⟨hp, (endRule_collecting (p := s.prologue) hp).trans (raise_insufficientSymbols s)⟩
    · exact .inr ⟨hp, endRule_ignored (p := s.prologue) hp⟩
  | sreset => exact rfl
  | sample =>
    simp only [operandsInvalid, not_or] at h
    exact sampleRule_samples (p := s.prologue) (by simp only [State.prologue_x0]; omega)
  | cmbclr => exact rfl
  | cmbdin => exact cmbdinRule_mixes (p := s.prologue) (not_not.1 h)
  | cmbsym => exact cmbsymRule_mixes (p := s.prologue) (Nat.not_le.1 h)
  | ldsol => exact ldsolRule_loads (p := s.prologue) (Nat.not_le.1 h)
  | encode =>
    simp only [operandsInvalid, not_or, Nat.not_le, eqRow_eq_none_iff, not_and, Bool.not_eq_false] at h
    by_cases hk : s.x0 < s.k
    · exact ⟨_, _, encodeRule_systematic (p := s.prologue) h.1 hk, .inl ⟨hk, rfl, rfl⟩⟩
    · have hk := Nat.not_lt.1 hk
      exact ⟨_, _, encodeRule_valid (p := s.prologue) h.1 hk (h.2 hk), .inr ⟨hk, rfl, rfl⟩⟩
  | insrow =>
    simp only [operandsInvalid, not_or, not_not, Bool.not_eq_false] at h
    by_cases hp : s.phase = .collecting
    · exact .inr ⟨hp, insrowRule_inserts (p := s.prologue) h.1 h.2 hp⟩
    · exact .inl ⟨hp, insrowRule_ignored (p := s.prologue) h.1 h.2 hp⟩
  | insesi =>
    simp only [operandsInvalid, not_or, not_not, Nat.not_le] at h
    obtain ⟨h1, h2, h3⟩ := h
    by_cases hp : s.phase = .collecting
    · by_cases hs : s.x0 ∈ s.seen
      · exact .inr (.inl ⟨hp, hs, insesiRule_duplicate (p := s.prologue) h1 h2 hp hs⟩)
      · cases he : eqRow s.build.idxgen s.k s.l s.x0 with
        | none => exact absurd ⟨hp, hs, he⟩ h3
        | some b => exact .inr (.inr ⟨hp, hs, b, he, insesiRule_inserts (p := s.prologue) h1 h2 hp hs he⟩)
    · exact .inl ⟨hp, insesiRule_ignored (p := s.prologue) h1 h2 hp⟩
  | backsub =>
    rcases ha with hp | hp
    · exact .inl ⟨hp, backsubRule_solvable (p := s.prologue) hp⟩
    · exact .inr ⟨hp, backsubRule_ignored (p := s.prologue) (by simp [hp])⟩

/-- The three ways a command ends. -/
theorem exec_inversion {i : Instr} {s t : State} (h : exec i s = .next t) :
    (admission i s.phase = .illegal ∧ t = s.rejected 4) ∨
    (admission i s.phase ≠ .illegal ∧ operandsInvalid i s ∧ t = s.rejected 1) ∨
    (admission i s.phase ≠ .illegal ∧ ¬ operandsInvalid i s ∧ endsIn i s t) := by
  rcases exec_cases h with ⟨ha, rfl⟩ | ⟨ha, rfl⟩
  · exact .inl ⟨ha, rfl⟩
  · by_cases ho : operandsInvalid i s
    · exact .inr (.inl ⟨ha, ho, rule_invalid ho⟩)
    · exact .inr (.inr ⟨ha, ho, rule_ends ha ho⟩)

end Sys2Proof.Machine
end

