-- ==== Sys2Proof/Laws/Invariant.lean ====
section
/-! SUPPORT. What the operations on the solver's system keep of the invariant (10_state.md R35), each once, and when a
state meets the invariant. -/

namespace Sys2Proof.Machine

open Sys2Proof

/-! ### The system of rows -/

/-- What the invariant says of `PIVOT` and `RANK`. -/
structure SystemHolds (l t : Nat) (p : Pivots) (rank : BitVec 12) : Prop where
  echelon : Echelon l p
  rankCounts : rank.toNat = validCount p
  valuesFit : ∀ c r, pivotAt p c = some r → Symbol.Fits r.val t

theorem State.Inv.system {s : State} (h : s.Inv) : SystemHolds s.l s.t s.pivot s.rank :=
  ⟨h.echelon, h.rankCounts, h.valuesFit⟩

/-- The empty system, of any parameters. -/
theorem systemHolds_empty (l t : Nat) {p : Pivots} (h : ∀ c, pivotAt p c = none) : SystemHolds l t p 0 :=
  ⟨fun c r hc => (by rw [h c] at hc; cases hc), (by rw [validCount_of_none h]; rfl),
    fun c r hc => (by rw [h c] at hc; cases hc)⟩

/-- An empty system has `RANK = 0`, and the other way round. -/
theorem SystemHolds.rank_eq_zero_iff {l t : Nat} {p : Pivots} {rank : BitVec 12} (h : SystemHolds l t p rank) :
    rank = 0 ↔ ∀ c, pivotAt p c = none := by
  constructor
  · rintro rfl
    exact none_of_validCount (by rw [← h.rankCounts]; rfl)
  · intro hn
    apply BitVec.eq_of_toNat_eq
    rw [h.rankCounts, validCount_of_none hn]
    rfl

theorem fits_rowXor {t : Nat} (r q : Row) (hr : Symbol.Fits r.val t) (hq : Symbol.Fits q.val t) :
    Symbol.Fits (r.xor q).val t := fits_xor hr hq

/-- An absorbed row: the new pivot's column was free, the system with it holds, and `RANK` counts it. -/
theorem SystemHolds.absorb {l t : Nat} {p : Pivots} {rank : BitVec 12} (h : SystemHolds l t p rank)
    (hlt : rank.toNat < Config.lCap) {r q : Row} {c : Nat} (hl : ∀ j, l ≤ j → r.bits.getLsbD j = false)
    (hv : Symbol.Fits r.val t) (hi : insertLoop p l r = some (c, q)) :
    pivotAt p c = none ∧ c < l ∧ SystemHolds l t (setPivot p c q) (rank + 1) := by
  obtain ⟨-, hcl, hcL, hp, hq, h0, -, hqv⟩ := (insertLoop_spec h.echelon (fun r => Symbol.Fits r.val t) h.valuesFit
    fits_rowXor l 0 r (by omega) hl (by omega) hv).2 c q hi
  refine ⟨hp, hcl, echelon_setPivot h.echelon hcl hcL hq h0, ?_, ?_⟩
  · rw [rank_succ_toNat hlt, validCount_setPivot p c q hcL hp, h.rankCounts]
  · intro d r' hd
    rw [pivotAt_setPivot p c d q hcL] at hd
    split at hd
    · cases hd
      exact hqv
    · exact h.valuesFit d r' hd

/-- Back-substitution at full rank: the system holds, and every row is the unit row of its column. -/
theorem SystemHolds.backSub {l t : Nat} {p : Pivots} {rank : BitVec 12} (h : SystemHolds l t p rank) (hr : rank.toNat = l) :
    SystemHolds l t (backSubLoop l l p) rank ∧
      (∀ c, c < l → (pivotAt (backSubLoop l l p) c).map Row.bits = some (unitRow c)) ∧
      ∀ x : Nat → Symbol, AllConsistent x (backSubLoop l l p) ↔ AllConsistent x p := by
  obtain ⟨h1, h2, h3, h4, h5⟩ := backSubLoop_spec l (Nat.le_refl l) p h.echelon
    (all_valid_of_count h.echelon (by rw [← h.rankCounts, hr])) (fun j hj hj' => absurd hj' (by omega))
  exact ⟨⟨h1, by rw [h.rankCounts, validCount_congr h3], h4 (fun r => Symbol.Fits r.val t) fits_rowXor h.valuesFit⟩, h2, h5⟩

/-- A row absorbed from a consistent row into a consistent system leaves a consistent system (43_solver.md R108). -/
theorem allConsistent_absorb {x : Nat → Symbol} {l t : Nat} {p : Pivots} {rank : BitVec 12} (h : SystemHolds l t p rank)
    (hx : AllConsistent x p) {r q : Row} {c : Nat} (hl : ∀ j, l ≤ j → r.bits.getLsbD j = false) (hr : Consistent x r)
    (hi : insertLoop p l r = some (c, q)) : AllConsistent x (setPivot p c q) := by
  obtain ⟨-, -, hcL, -, -, -, -, hqv⟩ := (insertLoop_spec h.echelon (Consistent x) hx
    (fun r q hr hq => (consistent_xor_iff hq).2 hr) l 0 r (by omega) hl (by omega) hr).2 c q hi
  intro d r' hd
  rw [pivotAt_setPivot p c d q hcL] at hd
  split at hd
  · cases hd
    exact hqv
  · exact hx d r' hd

theorem allConsistent_empty (x : Nat → Symbol) {p : Pivots} (h : ∀ c, pivotAt p c = none) : AllConsistent x p :=
  fun c r hc => by rw [h c] at hc; cases hc

/-! ### The parameters -/

theorem State.Inv.parameters {s : State} (h : s.Inv) (hp : s.phase ≠ .unconfigured) :
    4 ≤ s.k ∧ s.k ≤ 256 ∧ s.k < s.l ∧ s.l ≤ s.build.lMax ∧ 1 ≤ s.t ∧ s.t ≤ s.build.symMax := by
  have := h.parametersLegal
  rwa [State.ParametersLegal, if_neg hp, s.build.kMin_eq, s.build.kMax_eq] at this

theorem State.Inv.rank_lt {s : State} (h : s.Inv) (hp : s.phase = .collecting) : s.rank.toNat < s.l := by
  have := h.phaseHolds
  rwa [State.PhaseHolds, hp] at this

theorem State.Inv.rank_eq {s : State} (h : s.Inv) (hp : s.phase = .solvable ∨ s.phase = .recovered) :
    s.rank.toNat = s.l := by
  have := h.phaseHolds
  rw [State.PhaseHolds] at this
  rcases hp with hp | hp
  · rwa [hp] at this
  · rw [hp] at this
    exact this.1

theorem State.Inv.empty {s : State} (h : s.Inv) (hp : s.phase = .unconfigured ∨ s.phase = .aborted) : s.SystemEmpty := by
  have := h.phaseHolds
  rw [State.PhaseHolds] at this
  rcases hp with hp | hp <;> rwa [hp] at this

/-- `DIN[0 .. T-1]` is a symbol of `T` bytes. -/
theorem fits_dinSymbol (s : State) : Symbol.Fits s.dinSymbol s.t := fits_ofBytes _ _

/-! ### States that meet the invariant -/

/-- The invariant looks at the system, the parameters, `STATE`, `REC`, `SEEN`, the instance and the report, and at nothing
else. -/
theorem State.Inv.of_same {s t : State} (h : s.Inv) (hb : t.build = s.build) (hphase : t.phase = s.phase)
    (hpar : t.kreg = s.kreg ∧ t.lreg = s.lreg ∧ t.treg = s.treg) (hrank : t.rank = s.rank) (hpivot : t.pivot = s.pivot)
    (hseen : t.seen = s.seen) (hrec : t.recFlags = s.recFlags) (hacc : Symbol.Fits t.acc s.t) (hr : t.ReportLegal) :
    t.Inv := by
  obtain ⟨hk, hl, ht⟩ := hpar
  have el : t.l = s.l := by rw [State.l, hl]; rfl
  have ek : t.k = s.k := by rw [State.k, hk]; rfl
  have et : t.t = s.t := by rw [State.t, ht]; rfl
  refine ⟨?_, ?_, ?_, ?_, ?_, ?_, hr, ?_, ?_⟩
  · rw [el, hpivot]
    exact h.echelon
  · rw [hrank, hpivot]
    exact h.rankCounts
  · have := h.phaseHolds
    rw [State.PhaseHolds] at this ⊢
    simp only [State.SystemEmpty] at this ⊢
    rw [hphase, hrank, hpivot, hseen, hrec, el]
    exact this
  · rw [hrec, hphase, el]
    exact h.recoveredFlags
  · have := h.parametersLegal
    rw [State.ParametersLegal] at this ⊢
    rw [hk, hl, ht, ek, el, et, hb]
    simpa only [hphase] using this
  · rw [hseen, hb]
    exact h.seenLegal
  · rw [et]
    exact hacc
  · rw [et, hpivot]
    exact h.valuesFit

/-- Without a `REC` flag and outside R, the invariant is that of the system, the parameters and the report. -/
theorem inv_of_system {t : State} (hs : SystemHolds t.l t.t t.pivot t.rank) (hp : t.PhaseHolds) (hrec : t.recFlags = 0)
    (hpar : t.ParametersLegal) (hseen : t.seen.Pairwise (· < ·) ∧ ∀ e ∈ t.seen, e < t.build.esiBound) (hr : t.ReportLegal)
    (hacc : Symbol.Fits t.acc t.t) : t.Inv :=
  ⟨hs.echelon, hs.rankCounts, hp, fun c hc => (by rw [hrec] at hc; simp at hc), hpar, hseen, hr, hacc, hs.valuesFit⟩

/-- Marking an admitted `esi` keeps what the invariant says of `SEEN`. -/
theorem State.Inv.seen_mark {s : State} (h : s.Inv) {e : Nat} (he : e < s.build.esiBound) :
    (addSeen e s.seen).Pairwise (· < ·) ∧ ∀ d ∈ addSeen e s.seen, d < s.build.esiBound := by
  refine ⟨pairwise_addSeen e h.seenLegal.1, fun d hd => ?_⟩
  rcases (mem_addSeen e d s.seen).1 hd with rfl | hd
  · exact he
  · exact h.seenLegal.2 d hd

/-- Outside R no `REC` flag is set. -/
theorem State.Inv.recFlags_eq_zero {s : State} (h : s.Inv) (hp : s.phase ≠ .recovered) : s.recFlags = 0 := by
  apply rowBits_ext
  intro c
  cases hc : s.recFlags.getLsbD c with
  | false => simp
  | true => exact absurd (h.recoveredFlags c hc).1 hp

/-! ### The report -/

theorem reportLegal_completed {s : State} (h : s.ReportLegal) (v : Word) : (s.completed v).ReportLegal :=
  ⟨.inl rfl, h.2.1, rfl, rfl, rfl⟩

theorem reportLegal_rejected {s : State} (h : s.ReportLegal) {code : BitVec 3} (hc : code = 1 ∨ code = 2 ∨ code = 4) :
    (s.rejected code).ReportLegal := by
  refine ⟨.inr hc, ?_, rfl, rfl, rfl⟩
  have he := h.2.1
  show (s.esticky ||| 1#32 <<< code.toNat) &&& ~~~0x16#32 = 0
  rw [BitVec.and_or_distrib_right, he]
  rcases hc with rfl | rfl | rfl <;> decide

end Sys2Proof.Machine
end

