-- ==== Sys2Proof/Laws/Check.lean ====
section
/-! SUPPORT. A check of the invariant that evaluates, for the witnesses of the tests. -/

namespace Sys2Proof.Machine

open Sys2Proof

/-- The check of one entry of `PIVOT`. -/
def entryHolds (l t c : Nat) : Option Row → Bool
  | none => true
  | some r => decide (c < l) && decide (lowestColumn r.bits = some c) && r.bits.below l && r.val >>> (8 * t) == 0

/-- Every entry of a list from column `c` on passes a check, in one walk of the list. -/
def allEntries (f : Nat → Option Row → Bool) : Nat → List (Option Row) → Bool
  | _, [] => true
  | c, e :: es => f c e && allEntries f (c + 1) es

theorem allEntries_get {f : Nat → Option Row → Bool} {c : Nat} {es : List (Option Row)} (h : allEntries f c es = true)
    (i : Nat) (r : Row) (hi : es[i]? = some (some r)) : f (c + i) (some r) = true := by
  induction es generalizing c i with
  | nil => simp at hi
  | cons e es ih =>
    rw [allEntries, Bool.and_eq_true] at h
    cases i with
    | zero =>
      obtain rfl : e = some r := by simpa using hi
      exact h.1
    | succ i =>
      have := ih h.2 i (by simpa using hi)
      rwa [show c + 1 + i = c + (i + 1) by omega] at this

theorem allEntries_pivotAt {f : Nat → Option Row → Bool} {p : Pivots} (h : allEntries f 0 p.val = true) {c : Nat} {r : Row}
    (hc : pivotAt p c = some r) : f c (some r) = true := by
  have := allEntries_get h c r (by
    rw [pivotAt] at hc
    cases he : p.val[c]? with
    | none => rw [he] at hc; cases hc
    | some e => rw [he] at hc; exact congrArg some hc)
  rwa [Nat.zero_add] at this

/-- The count of the valid entries, in one walk of the list. -/
theorem validCount_eq (p : Pivots) : validCount p = p.val.countP Option.isSome := by
  have key : ∀ es : List (Option Row),
      (List.range es.length).countP (fun c => (es[c]?.getD none).isSome) = es.countP Option.isSome := by
    intro es
    induction es with
    | nil => rfl
    | cons e es ih =>
      rw [List.length_cons, List.range_succ_eq_map, List.countP_cons, List.countP_map, List.countP_cons, ← ih]
      rfl
  have := key p.val
  rw [p.property] at this
  exact this

/-- The check of the whole of `PIVOT`. -/
def pivotsHold (l t : Nat) (p : Pivots) : Bool := allEntries (entryHolds l t) 0 p.val

theorem pivotsHold_iff {l t : Nat} {p : Pivots} (h : pivotsHold l t p = true) :
    Echelon l p ∧ ∀ c r, pivotAt p c = some r → Symbol.Fits r.val t := by
  have key : ∀ c r, pivotAt p c = some r →
      (c < l ∧ r.bits.getLsbD c = true ∧ ∀ j, j < c ∨ l ≤ j → r.bits.getLsbD j = false) ∧ Symbol.Fits r.val t := by
    intro c r hc
    have he := allEntries_pivotAt h hc
    simp only [entryHolds, Bool.and_eq_true, decide_eq_true_eq, beq_iff_eq] at he
    obtain ⟨⟨⟨h1, h2⟩, h3⟩, h4⟩ := he
    rw [lowestColumn_eq_some] at h2
    rw [below_iff] at h3
    refine ⟨⟨h1, h2.1, fun j hj => hj.elim (h2.2 j) (h3 j)⟩, fun j hj => ?_⟩
    have := congrArg (fun v : Symbol => v.getLsbD (j - 8 * t)) h4
    simpa [Nat.add_sub_cancel' hj] using this
  exact ⟨fun c r hc => (key c r hc).1, fun c r hc => (key c r hc).2⟩

/-- A state in C whose entries, rank, parameters and report check meets the invariant. -/
theorem inv_of_check_collecting {s : State} (hp : s.phase = .collecting) (h : pivotsHold s.l s.t s.pivot = true)
    (hr : s.rank.toNat = s.pivot.val.countP Option.isSome) (hl : s.rank.toNat < s.l) (hrec : s.recFlags = 0) (hpar : s.ParametersLegal)
    (hseen : s.seen.Pairwise (· < ·) ∧ ∀ e ∈ s.seen, e < s.build.esiBound) (hrep : s.ReportLegal) (hacc : s.acc = 0) : s.Inv := by
  obtain ⟨h1, h2⟩ := pivotsHold_iff h
  refine inv_of_system ⟨h1, hr.trans (validCount_eq _).symm, h2⟩ ?_ hrec hpar hseen hrep (by rw [hacc]; exact fits_zero _)
  rw [State.PhaseHolds, hp]
  exact hl

/-- The same in S. -/
theorem inv_of_check_solvable {s : State} (hp : s.phase = .solvable) (h : pivotsHold s.l s.t s.pivot = true)
    (hr : s.rank.toNat = s.pivot.val.countP Option.isSome) (hl : s.rank.toNat = s.l) (hrec : s.recFlags = 0) (hpar : s.ParametersLegal)
    (hseen : s.seen.Pairwise (· < ·) ∧ ∀ e ∈ s.seen, e < s.build.esiBound) (hrep : s.ReportLegal) (hacc : s.acc = 0) : s.Inv := by
  obtain ⟨h1, h2⟩ := pivotsHold_iff h
  refine inv_of_system ⟨h1, hr.trans (validCount_eq _).symm, h2⟩ ?_ hrec hpar hseen hrep (by rw [hacc]; exact fits_zero _)
  rw [State.PhaseHolds, hp]
  exact hl

/-- The same in R, where every row is the unit row of its column and `REC` flags the columns below `L`. -/
theorem inv_of_check_recovered {s : State} (hp : s.phase = .recovered) (h : pivotsHold s.l s.t s.pivot = true)
    (hr : s.rank.toNat = s.pivot.val.countP Option.isSome) (hl : s.rank.toNat = s.l)
    (hu : ∀ c, c < s.l → (pivotAt s.pivot c).map Row.bits = some (unitRow c)) (hrec : s.recFlags = columnsBelow s.l)
    (hpar : s.ParametersLegal) (hseen : s.seen.Pairwise (· < ·) ∧ ∀ e ∈ s.seen, e < s.build.esiBound)
    (hrep : s.ReportLegal) (hacc : s.acc = 0) : s.Inv := by
  obtain ⟨h1, h2⟩ := pivotsHold_iff h
  have hflag : ∀ c, s.recFlags.getLsbD c = decide (c < s.l ∧ c < Config.lCap) := by
    intro c
    rw [hrec, getLsbD_columnsBelow]
  refine ⟨h1, hr.trans (validCount_eq _).symm, ?_, ?_, hpar, hseen, hrep, by rw [hacc]; exact fits_zero _, h2⟩
  · rw [State.PhaseHolds, hp]
    refine ⟨hl, fun c hc => ⟨hu c hc, ?_⟩⟩
    have hb := hu c hc
    cases hq : pivotAt s.pivot c with
    | none =>
      rw [hq] at hb
      cases hb
    | some q =>
      rw [hflag c]
      exact decide_eq_true ⟨hc, lt_of_pivotAt hq⟩
  · intro c hc
    rw [hflag c] at hc
    exact ⟨hp, (of_decide_eq_true hc).1⟩

/-- Consistency of every row with an assignment, checked entry by entry. -/
theorem allConsistent_of_check {x : Nat → Symbol} {p : Pivots}
    (h : allEntries (fun _ e => e.all fun r => decide (r.val = combination r.bits x)) 0 p.val = true) :
    AllConsistent x p := by
  intro c r hc
  have he := allEntries_pivotAt h hc
  rw [Option.all_some, decide_eq_true_eq] at he
  exact he

end Sys2Proof.Machine
end

