-- ==== Sys2Proof/Laws/PerInstr.lean ====
section
/-! SUPPORT. Per command: well formed, its word's fields, and that its word decodes to it (30_encoding.md R56, R58). -/

namespace Sys2Proof.Laws.Encoding

open Sys2Proof

/-- A command is well formed, and its word has a zero field `ZERO`, its opcode in `OPC`, and decodes to it. -/
def Statement (i : Instr) : Prop :=
  i.wf = true ∧ zeroField (encode i) = 0#24 ∧ opcField (encode i) = i.opcode ∧ decode (encode i) = .ok i

theorem nop : Statement .nop := ⟨rfl, rfl, rfl, rfl⟩
theorem cfg : Statement .cfg := ⟨rfl, rfl, rfl, rfl⟩
theorem abort : Statement .abort := ⟨rfl, rfl, rfl, rfl⟩
theorem endStream : Statement .endStream := ⟨rfl, rfl, rfl, rfl⟩
theorem sreset : Statement .sreset := ⟨rfl, rfl, rfl, rfl⟩
theorem sample : Statement .sample := ⟨rfl, rfl, rfl, rfl⟩
theorem cmbclr : Statement .cmbclr := ⟨rfl, rfl, rfl, rfl⟩
theorem cmbdin : Statement .cmbdin := ⟨rfl, rfl, rfl, rfl⟩
theorem cmbsym : Statement .cmbsym := ⟨rfl, rfl, rfl, rfl⟩
theorem ldsol : Statement .ldsol := ⟨rfl, rfl, rfl, rfl⟩
theorem encode : Statement .encode := ⟨rfl, rfl, rfl, rfl⟩
theorem insrow : Statement .insrow := ⟨rfl, rfl, rfl, rfl⟩
theorem insesi : Statement .insesi := ⟨rfl, rfl, rfl, rfl⟩
theorem backsub : Statement .backsub := ⟨rfl, rfl, rfl, rfl⟩

end Sys2Proof.Laws.Encoding
end

