-- ==== Sys2Proof/Laws/Port.lean ====
section
/-! SUPPORT. The port: where the windows of the address map lie, how a buffer's bytes and bits are read, and what one
event of the host can come to. -/

namespace Sys2Proof.Machine

open Sys2Proof

/-! ### The windows of the address map (20_memory.md R42) -/

theorem windowIndex_eq_some (base n off w : Nat) : windowIndex base n off = some w ↔ w < n ∧ off = base + 4 * w := by
  rw [windowIndex]
  split
  · rw [Option.some.injEq]
    omega
  · constructor
    · intro h
      cases h
    · intro h
      omega

theorem windowIndex_eq_none (base n off : Nat) : windowIndex base n off = none ↔ ∀ w, w < n → off ≠ base + 4 * w := by
  constructor
  · intro h w hw ho
    rw [(windowIndex_eq_some base n off w).2 ⟨hw, ho⟩] at h
    cases h
  · intro h
    cases hi : windowIndex base n off with
    | none => rfl
    | some w =>
      obtain ⟨hw, ho⟩ := (windowIndex_eq_some base n off w).1 hi
      exact absurd ho (h w hw)

/-- The registers of the map, and the words of the four windows. -/
theorem cell_cases (c : Cell) : c ∈ registerCells ∨ (∃ w, c = .rowbuf w) ∨ (∃ w, c = .recmap w) ∨ (∃ w, c = .din w) ∨
    ∃ w, c = .dout w := by
  cases c <;> simp [registerCells]

/-- Every register lies below `ROWBUF`, at a multiple of 4. -/
theorem registerCells_offset {c : Cell} (h : c ∈ registerCells) :
    cellOffset c < 0x100 ∧ cellOffset c % 4 = 0 ∧ ∀ b : Build, c.wf b = true := by
  simp only [registerCells, List.mem_cons, List.not_mem_nil, or_false] at h
  rcases h with rfl | rfl | rfl | rfl | rfl | rfl | rfl | rfl | rfl | rfl | rfl | rfl | rfl | rfl <;>
    exact ⟨by decide, by decide, fun _ => rfl⟩

/-- No register is found at an offset from `ROWBUF` on. -/
theorem registerCells_find_none {off : Nat} (h : 0x100 ≤ off) : (registerCells.find? fun c => cellOffset c == off) = none := by
  rw [List.find?_eq_none]
  intro c hc
  have := (registerCells_offset hc).1
  simp
  omega

/-- Each register is found at its own offset. -/
theorem registerCells_find {c : Cell} (h : c ∈ registerCells) :
    (registerCells.find? fun d => cellOffset d == cellOffset c) = some c := by
  revert c
  decide

/-- A well-formed access reaches the cell mapped at its address, and no other access reaches one (20_memory.md R45). -/
theorem accessedCell_eq_some (b : Build) (addr size : Nat) (c : Cell) :
    accessedCell b addr size = some c ↔ size = 4 ∧ addr % 4 = 0 ∧ cellAt b addr = some c := by
  rw [accessedCell]
  split
  · next h => exact ⟨fun h' => ⟨h.1, h.2, h'⟩, fun h' => h'.2.2⟩
  · next h => exact ⟨fun h' => (by cases h'), fun h' => absurd ⟨h'.1, h'.2.1⟩ h⟩

theorem accessedCell_cmd (b : Build) : accessedCell b (cellOffset .cmd) 4 = some .cmd := rfl

/-- The write-only cell is the one that does not read. -/
theorem readCell_isSome_iff (s : State) (c : Cell) : (readCell s c).isSome ↔ hostReads c := by
  cases c <;> simp [readCell, hostReads]

/-- The cells a write stores to: every writable one but `CMD`. -/
theorem storeCell_isSome_iff (s : State) (v : Word) (c : Cell) : (storeCell s v c).isSome ↔ hostWrites c ∧ c ≠ .cmd := by
  cases c <;> simp [storeCell, hostWrites]

/-- A store writes the operand registers and the buffers and nothing else (20_memory.md R46). -/
theorem storeCell_frame {s t : State} {v : Word} {c : Cell} (h : storeCell s v c = some t) :
    t = { s with arg0 := t.arg0, arg1 := t.arg1, arg2 := t.arg2, rowbuf := t.rowbuf, din := t.din } := by
  cases c with
  | arg0 | arg1 | arg2 | rowbuf w | din w => cases h; rfl
  | _ => cases h

/-- A store is read back, and no other cell reads otherwise (20_memory.md R46). -/
theorem readCell_storeCell {s t : State} {v : Word} {c : Cell} (hc : c.wf s.build = true) (h : storeCell s v c = some t) (d : Cell) :
    readCell t d = if d = c then some v else readCell s d := by
  cases c with
  | arg0 | arg1 | arg2 => cases h; cases d <;> rfl
  | rowbuf w =>
    cases h
    have hw : w < Config.lCap / 32 := Nat.lt_of_lt_of_le (of_decide_eq_true hc) s.build.rowWords_le
    cases d with
    | rowbuf w' =>
      simp only [readCell, wordAt_set _ _ _ _ hw, Cell.rowbuf.injEq]
      split <;> rfl
    | _ => rfl
  | din w =>
    cases h
    have hw : w < Config.symCap / 4 := Nat.lt_of_lt_of_le (of_decide_eq_true hc) s.build.symWords_le
    cases d with
    | din w' =>
      simp only [readCell, wordAt_set _ _ _ _ hw, Cell.din.injEq]
      split <;> rfl
    | _ => rfl
  | _ => cases h

/-! ### Bytes and bits of the buffers (20_memory.md R43, R44) -/

theorem getLsbD_symbolByte (a : Symbol) (i j : Nat) : (Symbol.byte a i).getLsbD j = (decide (j < 8) && a.getLsbD (8 * i + j)) := by
  rw [Symbol.byte, BitVec.getLsbD_extractLsb']

theorem byte_symbolOfBytes (bytes : Nat → Byte) (n i : Nat) (hi : i < Config.symCap) :
    Symbol.byte (Symbol.ofBytes bytes n) i = if i < n then bytes i else 0 := by
  apply BitVec.eq_of_getLsbD_eq
  intro j hj
  rw [getLsbD_symbolByte, getLsbD_symbolOfBytes, show (8 * i + j) / 8 = i by omega, show (8 * i + j) % 8 = j by omega,
    decide_eq_true hj, decide_eq_true (show 8 * i + j < 8 * Config.symCap by omega), Bool.true_and, Bool.true_and]
  by_cases h : i < n
  · rw [if_pos h, decide_eq_true (by omega), Bool.true_and]
  · rw [if_neg h, decide_eq_false (by omega), Bool.false_and]
    simp

/-- Two symbols with the same bytes are the same. -/
theorem symbol_ext_bytes {a b : Symbol} (h : ∀ i, i < Config.symCap → Symbol.byte a i = Symbol.byte b i) : a = b := by
  apply BitVec.eq_of_getLsbD_eq
  intro j hj
  have := congrArg (fun v : Byte => v.getLsbD (j % 8)) (h (j / 8) (by omega))
  simp only [getLsbD_symbolByte, show 8 * (j / 8) + j % 8 = j by omega] at this
  simpa [show j % 8 < 8 by omega] using this

/-- A symbol of `T` bytes is made of its first `T` bytes. -/
theorem ofBytes_of_fits {a : Symbol} {bytes : Nat → Byte} {t : Nat} (ha : Symbol.Fits a t)
    (h : ∀ i, i < t → bytes i = Symbol.byte a i) : Symbol.ofBytes bytes t = a := by
  apply symbol_ext_bytes
  intro i hi
  rw [byte_symbolOfBytes bytes t i hi]
  split
  · next hit => exact h i hit
  · next hit =>
    apply BitVec.eq_of_getLsbD_eq
    intro j hj
    rw [getLsbD_symbolByte, ha (8 * i + j) (by omega), Bool.and_false]
    simp

/-! ### One event of the host -/

/-- What one step can do. -/
theorem step_inversion {s t : State} (h : step s = .next t) :
    (s.pending = [] ∧ t = s) ∨
    (∃ addr size rest, s.pending = .memRead addr size :: rest ∧
      t = { s with pending := rest, response := some (portRead s addr size) }) ∨
    (∃ addr size v rest, s.pending = .memWrite addr size v :: rest ∧
      (accessedCell s.build addr size).bind (storeCell s v) = none ∧ accessedCell s.build addr size ≠ some .cmd ∧
      t = { s with pending := rest, response := some (.ofWrite .slverr) }) ∨
    (∃ addr size v rest c u, s.pending = .memWrite addr size v :: rest ∧ accessedCell s.build addr size = some c ∧
      storeCell s v c = some u ∧ t = { u with pending := rest, response := some (.ofWrite .okay) }) ∨
    (∃ rest, s.pending = .hardReset :: rest ∧ t = { State.afterReset s.build (s.resets + 1) with pending := rest }) ∨
    (∃ addr size w rest, s.pending = .memWrite addr size w :: rest ∧ accessedCell s.build addr size = some .cmd ∧
      ((∃ i, decode w = .ok i ∧ exec i { s with pending := rest, response := some (.ofWrite .okay) } = .next t) ∨
        (∃ e, decode w = .error e) ∧ t = State.rejected { s with pending := rest, response := some (.ofWrite .okay) } 4)) := by
  rw [step, State.nextEvent] at h
  cases hp : s.pending with
  | nil =>
    rw [hp] at h
    cases h
    exact .inl ⟨rfl, rfl⟩
  | cons e rest =>
    right
    rw [hp] at h
    cases e with
    | memRead addr size =>
      cases h
      exact .inl ⟨addr, size, rest, rfl, rfl⟩
    | hardReset =>
      cases h
      exact .inr (.inr (.inr (.inl ⟨rest, rfl, rfl⟩)))
    | memWrite addr size v =>
      right
      cases ha : accessedCell s.build addr size with
      | none =>
        simp only [portEffect, ha] at h
        cases h
        exact .inl ⟨addr, size, v, rest, rfl, by rw [ha]; rfl, by simp [ha], rfl⟩
      | some c =>
        by_cases hc : c = .cmd
        · subst hc
          simp only [portEffect, ha] at h
          refine .inr (.inr (.inr ⟨addr, size, v, rest, rfl, ha, ?_⟩))
          cases hd : decode v with
          | ok i =>
            rw [hd] at h
            exact .inl ⟨i, rfl, h⟩
          | error e =>
            rw [hd] at h
            cases h
            exact .inr ⟨⟨e, rfl⟩, illegalWord_eq _⟩
        · cases hs : storeCell s v c with
          | none =>
            refine .inl ⟨addr, size, v, rest, rfl, by rw [ha]; exact hs, by simpa [ha] using hc, ?_⟩
            cases c with
            | cmd => exact absurd rfl hc
            | arg0 | arg1 | arg2 | rowbuf w | din w => cases hs
            | _ =>
              simp only [portEffect, ha] at h
              cases h
              rfl
          | some u =>
            refine .inr (.inl ⟨addr, size, v, rest, c, u, rfl, ha, hs, ?_⟩)
            cases c with
            | cmd => exact absurd rfl hc
            | arg0 | arg1 | arg2 | rowbuf w | din w =>
              simp only [portEffect, ha] at h
              cases hs
              cases h
              rfl
            | _ => cases hs

/-! ### Runs -/

/-- A run whose first step answers a next state is the shorter run from that state. -/
theorem core_run_succ (M : Host.Core) (n : Nat) {s t : M.State} (h : M.step s = .next t) : M.run (n + 1) s = M.run n t := by
  rw [Host.Core.run, h]

theorem core_run_zero (M : Host.Core) (s : M.State) : M.run 0 s = .next s := rfl

end Sys2Proof.Machine
end

