-- ==== Sys2Proof/Tests/Slice0.lean ====
section
/-! SUPPORT. Tests. The words are written out from 30_encoding.md R56 and R58; the expected results are those of
95_test_vectors.md, whose vector each test names (E, G, M, B, P1, P2, P3, P5). The generator of these vectors is the toy
one of 95_test_vectors.md section 2. Last, for every statement with hypotheses, states and operands that meet them. -/

namespace Sys2Proof.Tests

open Sys2Proof Sys2Proof.Machine

-- One theorem at a time: the kernel evaluations below, all started at once, need a thread's stack each.
set_option Elab.async false

/-! ### Well-formedness: the defaults pass, and each check refuses a term -/

theorem test_params_wf : Config.params.wf = true := by decide
theorem test_params_reject_kMin : Params.wf { Config.params with kMin := 3 } = false := by decide
theorem test_params_reject_kMax : Params.wf { Config.params with kMax := 257 } = false := by decide
theorem test_params_reject_lMax_multiple : Params.wf { Config.params with lMax := 500 } = false := by decide
theorem test_params_reject_lMax_low : Params.wf { Config.params with lMax := 256 } = false := by decide
theorem test_params_reject_lMax_high : Params.wf { Config.params with lMax := 2080 } = false := by decide
theorem test_params_reject_symMax_multiple : Params.wf { Config.params with symMax := 2046 } = false := by decide
theorem test_params_reject_symMax_low : Params.wf { Config.params with symMax := 0 } = false := by decide
theorem test_params_reject_symMax_high : Params.wf { Config.params with symMax := 4100 } = false := by decide
theorem test_params_reject_esiBound_low : Params.wf { Config.params with esiBound := 256 } = false := by decide
theorem test_params_reject_esiBound_high : Params.wf { Config.params with esiBound := 2 ^ 32 + 1 } = false := by decide
theorem test_params_reject_table : Params.wf { Config.params with degTable := [] } = false := by decide
theorem test_table_reject_length : degTableWf (Config.params.degTable.drop 1) = false := by decide
theorem test_table_reject_order :
    degTableWf [⟨2, 1⟩, ⟨1, 2⟩, ⟨3, 3⟩, ⟨4, 4⟩, ⟨5, 10⟩, ⟨6, 11⟩, ⟨1048576, 40⟩] = false := by decide
theorem test_table_reject_last :
    degTableWf [⟨1, 1⟩, ⟨2, 2⟩, ⟨3, 3⟩, ⟨4, 4⟩, ⟨5, 10⟩, ⟨6, 11⟩, ⟨1048575, 40⟩] = false := by decide
theorem test_table_reject_degree :
    degTableWf [⟨1, 0⟩, ⟨2, 2⟩, ⟨3, 3⟩, ⟨4, 4⟩, ⟨5, 10⟩, ⟨6, 11⟩, ⟨1048576, 40⟩] = false := by decide
theorem test_event_reject_size : HostEvent.wf (.memRead 4 2) = false ∧ HostEvent.wf (.memWrite 4 2 0) = false := by decide
theorem test_event_reject_alignment : HostEvent.wf (.memRead 6 4) = false ∧ HostEvent.wf (.memWrite 6 4 0) = false := by decide
theorem test_cell_reject_rowbuf : Cell.wf Config.build (.rowbuf 16) = false ∧ Cell.wf Config.build (.rowbuf 15) = true := by decide
theorem test_cell_reject_recmap : Cell.wf Config.build (.recmap 16) = false ∧ Cell.wf Config.build (.recmap 15) = true := by decide
theorem test_cell_reject_din : Cell.wf Config.build (.din 512) = false ∧ Cell.wf Config.build (.din 511) = true := by decide
theorem test_cell_reject_dout : Cell.wf Config.build (.dout 512) = false ∧ Cell.wf Config.build (.dout 511) = true := by decide
theorem test_line_reject_loadsym : ScriptLine.wf Config.build (.loadsym (List.replicate 2049 0)) = false := by decide +kernel
theorem test_line_reject_loadrow : ScriptLine.wf Config.build (.loadrow [0, 512]) = false := by decide
theorem test_line_reject_recv : ScriptLine.wf Config.build (.recv 0 (List.replicate 2049 0)) = false := by decide +kernel
theorem test_line_reject_row_columns : ScriptLine.wf Config.build (.row [512] []) = false := by decide
theorem test_line_reject_row_bytes : ScriptLine.wf Config.build (.row [0] (List.replicate 2049 0)) = false := by decide +kernel
theorem test_line_reject_readsym : ScriptLine.wf Config.build (.readsym 2049) = false := by decide
theorem test_line_reject_getsym : ScriptLine.wf Config.build (.getsym 0 2049) = false := by decide
theorem test_line_reject_expect : ScriptLine.wf Config.build (.expect (.dout 512)) = false := by decide

/-! ### Decoding: each word from its fields, `ZERO` then `OPC` (30_encoding.md R56, R58) -/

theorem test_decode_nop : decode (0#24 ++ 0b00000000#8) = .ok .nop := rfl
theorem test_decode_cfg : decode (0#24 ++ 0b00000001#8) = .ok .cfg := rfl
theorem test_decode_abort : decode (0#24 ++ 0b00000010#8) = .ok .abort := rfl
theorem test_decode_end : decode (0#24 ++ 0b00000011#8) = .ok .endStream := rfl
theorem test_decode_sreset : decode (0#24 ++ 0b00000100#8) = .ok .sreset := rfl
theorem test_decode_sample : decode (0#24 ++ 0b00010000#8) = .ok .sample := rfl
theorem test_decode_cmbclr : decode (0#24 ++ 0b00100000#8) = .ok .cmbclr := rfl
theorem test_decode_cmbdin : decode (0#24 ++ 0b00100001#8) = .ok .cmbdin := rfl
theorem test_decode_cmbsym : decode (0#24 ++ 0b00100010#8) = .ok .cmbsym := rfl
theorem test_decode_ldsol : decode (0#24 ++ 0b00100011#8) = .ok .ldsol := rfl
theorem test_decode_encode : decode (0#24 ++ 0b00100100#8) = .ok .encode := rfl
theorem test_decode_insrow : decode (0#24 ++ 0b00110000#8) = .ok .insrow := rfl
theorem test_decode_insesi : decode (0#24 ++ 0b00110001#8) = .ok .insesi := rfl
theorem test_decode_backsub : decode (0#24 ++ 0b00110010#8) = .ok .backsub := rfl
/-- Vectors E1a to E1d. -/
theorem test_decode_illegal : decode 0x00000005#32 = .error .opcode ∧ decode 0x00000100#32 = .error .zeroField ∧
    decode 0x00000131#32 = .error .zeroField ∧ decode 0xFFFFFFFF#32 = .error .zeroField := ⟨rfl, rfl, rfl, rfl⟩
theorem test_table_word : decodeTableWord 32 0x31 = some .insesi ∧ decodeTableWord 8 0x31 = some .insesi ∧
    decodeTableWord 32 0x131 = none := by decide
/-- The opcode map names no opcode twice and every command once. -/
theorem test_opcodes_distinct : (opcodeMap.map Prod.fst).Nodup ∧ (opcodeMap.map Prod.snd).Nodup := by decide

/-! ### Small states -/

/-- The default instance at a given address, so that states can be compared. -/
def board : Build := ⟨{ Config.params with base := 0x40000000 }, by decide⟩

/-- The smallest instance that 00_scope.md R9 admits, with a degree table of its own. -/
def smallBoard : Build :=
  ⟨{ Config.params with
      lMax := 288, symMax := 4, esiBound := 257, base := 0
      degTable := [⟨1, 1⟩, ⟨2, 2⟩, ⟨3, 3⟩, ⟨4, 4⟩, ⟨5, 10⟩, ⟨6, 11⟩, ⟨1048576, 1⟩] }, by decide⟩

/-- The greatest instance that 00_scope.md R9 admits. -/
def greatBoard : Build := ⟨{ Config.params with lMax := 2048, symMax := 4096, esiBound := 2 ^ 32, base := 0 }, by decide⟩

/-- The state after reset, with the words of `DIN` and `ROWBUF` written to zero. -/
def blank : State :=
  { State.reset with
    build := board, din := State.buffer (Config.symCap / 4) fun _ => 0, rowbuf := State.buffer (Config.lCap / 32) fun _ => 0 }

/-- A configured state of given parameters. -/
def configured (p : Phase) (k l t : Nat) : State :=
  { blank with phase := p, kreg := BitVec.ofNat 9 k, lreg := BitVec.ofNat 12 l, treg := BitVec.ofNat 13 t }

/-- `PIVOT` with the rows listed: column, columns of its bits, value as a little-endian number. -/
def rows (l : List (Nat × List Nat × Nat)) : Pivots :=
  l.foldl (fun p r => setPivot p r.1 ⟨RowBits.ofColumns r.2.1, BitVec.ofNat _ r.2.2⟩) noPivots

/-- P1 after step 9: `K = 4`, `L = 6`, `T = 2`, rank 5, in C. -/
def almostSolved : State :=
  { configured .collecting 4 6 2 with
    pivot := rows [(0, [0, 1, 4], 0x0000), (1, [1, 2, 5], 0xCC44), (2, [2, 3, 4], 0x8800), (3, [3, 4], 0xEE55), (4, [4], 0x6622)]
    rank := 5
    seen := [2, 3, 4, 5, 6, 7, 8, 9] }

/-- G after G8: `K = 4`, `L = 5`, `T = 1`, rank 3, in C. -/
def threeRows : State :=
  { configured .collecting 4 5 1 with
    pivot := rows [(0, [0, 1, 2, 3, 4], 0x1F), (1, [1, 4], 0x02), (4, [4], 0x01)]
    rank := 3 }

/-- G after G10: `K = 4`, `L = 5`, `T = 1`, rank 5, in S. -/
def fullRank : State :=
  { configured .solvable 4 5 1 with
    pivot := rows [(0, [0, 1, 2, 3, 4], 0x1F), (1, [1, 4], 0x02), (2, [2, 3], 0x0C), (3, [3], 0x18), (4, [4], 0x01)]
    rank := 5 }

/-- The intermediate symbols of 95_test_vectors.md section 2, in R. -/
def solved : State :=
  { configured .recovered 4 6 2 with
    pivot := rows [(0, [0], 0x2211), (1, [1], 0x4433), (2, [2], 0x6655), (3, [3], 0x8877), (4, [4], 0x6622), (5, [5], 0xEE22)]
    rank := 6
    recFlags := columnsBelow 6 }

/-- The toy generator of 95_test_vectors.md section 2. -/
def toy (_ _ esi : Nat) : IdxAnswer :=
  match esi with
  | 4 => ⟨2, [0, 5]⟩
  | 5 => ⟨2, [2, 4]⟩
  | 9 => ⟨3, [0, 1, 4]⟩
  | 10 => ⟨7, [0, 1, 2, 3, 4, 5, 6]⟩
  | 11 => ⟨2, [1, 1]⟩
  | 12 => ⟨1, [6]⟩
  | 13 => ⟨0, []⟩
  | 14 => ⟨2, [3]⟩
  | e => ⟨1, [e % 6]⟩

/-- The first word of `DIN` set. -/
def withDin (s : State) (w : Word) : State := { s with din := setEntry s.din 0 w }

/-- The first word of `ROWBUF` set. -/
def withRow (s : State) (w : Word) : State := { s with rowbuf := setEntry s.rowbuf 0 w }

/-- The next state, if there is one. -/
def nextOf : Host.Outcome State Fault Refusal → Option State
  | .next t => some t
  | .fault _ => none
  | .refused _ => none

/-- An outcome is a next state of which `f` holds. -/
def Goes (o : Host.Outcome State Fault Refusal) (f : State → Bool) : Prop := ∃ t, o = .next t ∧ f t = true

theorem goes_of {o : Host.Outcome State Fault Refusal} {f : State → Bool} (h : (nextOf o).any f = true) : Goes o f := by
  cases o with
  | next t => exact ⟨t, rfl, h⟩
  | fault r => cases h
  | refused r => cases h

/-! ### The commands -/

/-- Vector E11: `NOP` clears `ERR` and keeps `ESTICKY`. -/
theorem test_nop : Goes (exec .nop { blank with err := 1, esticky := 0x12, result := 7, dup := true }) fun t =>
    t.statusWord == 0 && t.err == 0 && t.esticky == 0x12 && t.result == 0 := goes_of (by decide +kernel)

/-- Vector E12: all three maxima. -/
theorem test_cfg_maxima : Goes (exec .cfg { blank with arg0 := 256, arg1 := 512, arg2 := 2048, esticky := 0x12 }) fun t =>
    t.statusWord == 1 && t.kreg == 256 && t.lreg == 512 && t.treg == 2048 && t.esticky == 0x12 := goes_of (by decide +kernel)

/-- Vector E10: an operand is not truncated. -/
theorem test_cfg_full_width : Goes (exec .cfg { blank with arg0 := 0x10004, arg1 := 6, arg2 := 2, esticky := 0x10 }) fun t =>
    t.statusWord == 0 && t.err == 1 && t.esticky == 0x12 && t.kreg == 0 && t.lreg == 0 && t.treg == 0 := goes_of (by decide +kernel)

/-- The bounds of `CFG` are the instance's (40_control.md R70, 00_scope.md R9): the maxima of the greatest instance are
legal there and not in the smallest. -/
theorem test_cfg_bounds :
    Goes (exec .cfg { blank with build := greatBoard, arg0 := 256, arg1 := 2048, arg2 := 4096 }) (fun t =>
      t.err == 0 && t.lreg == 2048 && t.treg == 4096) ∧
    Goes (exec .cfg { blank with build := smallBoard, arg0 := 256, arg1 := 288, arg2 := 4 }) (fun t => t.err == 0) ∧
    Goes (exec .cfg { blank with build := smallBoard, arg0 := 256, arg1 := 289, arg2 := 4 }) (fun t => t.err == 1) ∧
    Goes (exec .cfg { blank with build := smallBoard, arg0 := 256, arg1 := 288, arg2 := 5 }) (fun t => t.err == 1) :=
  ⟨goes_of (by decide +kernel), goes_of (by decide +kernel), goes_of (by decide +kernel), goes_of (by decide +kernel)⟩

/-- P3 step 23: `ABORT` in C. -/
theorem test_abort : Goes (exec .abort { almostSolved with esticky := 0x16, einfo0 := 4, einfo1 := 6 }) fun t =>
    t.statusWord == 4 && t.rank == 0 && t.seen.isEmpty && t.lreg == 6 && t.einfo0 == 4 && (List.range 6).all fun c =>
      (pivotAt t.pivot c).isNone := goes_of (by decide +kernel)

/-- Vector E2: `ABORT` in U. -/
theorem test_abort_ignored : Goes (exec .abort { blank with esticky := 0x10 }) fun t =>
    t.statusWord == 0x20 && t.err == 0 && t.esticky == 0x10 := goes_of (by decide +kernel)

/-- As P3 step 8: `END` in C at rank 5 of 6. -/
theorem test_end_insufficient : Goes (exec .endStream almostSolved) fun t =>
    t.statusWord == 1 && t.err == 2 && t.esticky == 4 && t.einfo0 == 5 && t.einfo1 == 6 && t.result == 0 && t.rank == 5 :=
  goes_of (by decide +kernel)

/-- Vector G13: `END` in S. -/
theorem test_end_ignored : Goes (exec .endStream fullRank) fun t =>
    t.statusWord == 0x22 && t.result == 5 && t.err == 0 && t.esticky == 0 := goes_of (by decide +kernel)

/-- Vector E13: `SRESET`; `DIN` and `ROWBUF` stay. -/
theorem test_sreset : Goes (exec .sreset (withRow (withDin { solved with esticky := 0x12, arg0 := 9 } 7) 5)) fun t =>
    t.statusWord == 0 && t.esticky == 0 && t.arg0 == 0 && t.lreg == 0 && t.rank == 0 && wordAt t.din 0 == 7 &&
      wordAt t.rowbuf 0 == 5 && (pivotAt t.pivot 0).isNone := goes_of (by decide +kernel)

/-- P5 and 95_test_vectors.md section 3.1: the first draw of degree 10, clamped at `k = 4`, and bit 20 ignored. -/
theorem test_sample : ([(16, 0x000CB0CF#32, 10), (4, 0x000CB0CF#32, 4), (256, 0x000CB0CE#32, 4), (39, 0xFFFFFFFF#32, 39),
    (256, 0x00102801#32, 2), (256, 0x00002800#32, 1), (256, 0x12345678#32, 2)].all fun v =>
      sampleDegree board.degTable v.1 v.2.1 == v.2.2) = true := by decide +kernel

/-- P5: the last two rows of the sweep. -/
theorem test_sample_command : Goes (exec .sample { blank with arg0 := 256, arg1 := 0xFFFFFFFF }) (fun t =>
      t.result == 40 && t.err == 0 && t.statusWord == 0) ∧
    Goes (exec .sample { blank with arg0 := 300 }) (fun t => t.result == 0 && t.err == 1 && t.esticky == 2) :=
  ⟨goes_of (by decide +kernel), goes_of (by decide +kernel)⟩

/-- Vector E1: `CMBCLR` needs a configured `T`. -/
theorem test_cmbclr_illegal : Goes (exec .cmbclr blank) fun t => t.statusWord == 0 && t.err == 4 && t.esticky == 0x10 :=
  goes_of (by decide +kernel)

/-- Vector G14: the combiner works in S. -/
theorem test_cmbclr : Goes (exec .cmbclr { fullRank with acc := 9 }) fun t => t.statusWord == 2 && t.acc == 0 && t.result == 0 :=
  goes_of (by decide +kernel)

/-- Vector M4: with `T = 3` byte 3 of `DIN` is ignored and byte 3 of `DOUT` reads 0. -/
theorem test_cmbdin : Goes (exec .cmbdin (withDin { configured .collecting 4 6 3 with arg1 := 3 } 0xDDCCBBAA)) fun t =>
    t.doutWord 0 == 0x00CCBBAA && t.doutWord 1 == 0 && t.err == 0 := goes_of (by decide +kernel)

/-- Vector M3: a length other than `T`. -/
theorem test_cmbdin_length : Goes (exec .cmbdin { configured .collecting 4 6 2 with arg1 := 3, acc := 0x2211 }) fun t =>
    t.err == 1 && t.acc == 0x2211 := goes_of (by decide +kernel)

/-- Vectors M7 and M8, the last command of each: `ACC` 11 22 with `X[5]` is 33 CC, and 33 CC with it is 11 22. -/
theorem test_cmbsym : Goes (exec .cmbsym { solved with arg0 := 5, acc := 0x2211 }) (fun t => t.acc == 0xCC33) ∧
    Goes (exec .cmbsym { solved with arg0 := 5, acc := 0xCC33 }) (fun t => t.acc == 0x2211) :=
  ⟨goes_of (by decide +kernel), goes_of (by decide +kernel)⟩

/-- Vector M9. -/
theorem test_cmbsym_range : Goes (exec .cmbsym { solved with arg0 := 6, acc := 0x2211 }) fun t =>
    t.err == 1 && t.acc == 0x2211 := goes_of (by decide +kernel)

/-- Vector M11. -/
theorem test_ldsol : Goes (exec .ldsol { solved with arg0 := 4, acc := 0x2211 }) fun t =>
    t.doutWord 0 == 0x00006622 && t.err == 0 := goes_of (by decide +kernel)

/-- Vector G15. -/
theorem test_ldsol_illegal : Goes (exec .ldsol fullRank) fun t => t.statusWord == 2 && t.err == 4 := goes_of (by decide +kernel)

/-- P2 steps 11, 15 and 20. -/
theorem test_encode : Goes (exec .encode { solved with arg0 := 0 }) (fun t => t.doutWord 0 == 0x2211 && t.result == 1) ∧
    Goes (command .encode (encodeRule toy) { solved with arg0 := 4 }) (fun t => t.doutWord 0 == 0xCC33 && t.result == 2) ∧
    Goes (command .encode (encodeRule toy) { solved with arg0 := 9 }) (fun t => t.doutWord 0 == 0 && t.result == 3) :=
  ⟨goes_of (by decide +kernel), goes_of (by decide +kernel), goes_of (by decide +kernel)⟩

/-- P2 steps 23 to 30: the five invalid answers, the bound, and the last `esi` below it. -/
theorem test_encode_invalid :
    ([10, 11, 12, 13, 14, 65536, 0xFFFFFFFF].all fun e =>
      (nextOf (command .encode (encodeRule toy) { solved with arg0 := e, acc := 0x8877 })).any fun t =>
        t.err == 1 && t.acc == 0x8877 && t.result == 0) ∧
    Goes (command .encode (encodeRule toy) { solved with arg0 := 65535 }) (fun t => t.acc == 0x8877 && t.result == 1) :=
  ⟨by decide +kernel, goes_of (by decide +kernel)⟩

/-- Vector G9: the row `{0, 2}` with 05 reduces to `{3}` with 18. -/
theorem test_insrow : Goes (exec .insrow (withDin (withRow { threeRows with arg1 := 1 } 0x5) 0x05)) fun t =>
    t.statusWord == 0x09 && t.rank == 4 && t.result == 4 && decide (pivotAt t.pivot 3 = some ⟨RowBits.ofColumns [3], 0x18⟩) :=
  goes_of (by decide +kernel)

/-- Vector G2: a column at `L`. -/
theorem test_insrow_columns : Goes (exec .insrow (withDin (withRow { configured .collecting 4 5 1 with arg1 := 1 } 0x20) 0xAB))
    fun t => t.statusWord == 1 && t.rank == 0 && t.result == 0 && t.err == 1 := goes_of (by decide +kernel)

/-- P1 step 10: the sixth pivot, and back-substitution within the command. -/
theorem test_insesi : Goes (exec .insesi (withDin { almostSolved with arg0 := 1, arg1 := 2 } 0x4433)) fun t =>
    t.statusWord == 0x0B && t.rank == 6 && t.result == 6 && t.recWord 0 == 0x3F && t.seen == [1, 2, 3, 4, 5, 6, 7, 8, 9] &&
      (List.range 6).map (solAt t.pivot) == [0x2211, 0x4433, 0x6655, 0x8877, 0x6622, 0xEE22] := goes_of (by decide +kernel)

/-- P3 steps 3 and 12: a duplicate by `esi` alone, and an invalid answer that leaves no trace. -/
theorem test_insesi_rejects : Goes (exec .insesi (withDin { almostSolved with arg0 := 9, arg1 := 2 } 0xFFFF)) (fun t =>
      t.statusWord == 0x11 && t.rank == 5 && t.result == 5 && t.err == 0) ∧
    Goes (command .insesi (insesiRule toy) { almostSolved with arg0 := 10, arg1 := 2 }) (fun t =>
      t.statusWord == 1 && t.err == 1 && t.result == 0 && t.seen == [2, 3, 4, 5, 6, 7, 8, 9]) :=
  ⟨goes_of (by decide +kernel), goes_of (by decide +kernel)⟩

/-- Vector G16. -/
theorem test_backsub : Goes (exec .backsub fullRank) fun t =>
    t.statusWord == 3 && t.result == 5 && t.recWord 0 == 0x1F &&
      (List.range 5).map (solAt t.pivot) == [0x11, 0x03, 0x14, 0x18, 0x01] := goes_of (by decide +kernel)

/-- Vector E16. -/
theorem test_backsub_illegal : Goes (exec .backsub (configured .collecting 4 5 1)) fun t =>
    t.statusWord == 1 && t.err == 4 && t.esticky == 0x10 := goes_of (by decide +kernel)

/-! ### The port and the step -/

/-- Vectors B1 to B9 (the reads, then the writes). -/
theorem test_port_slverr :
    ([(0x0000, 4), (0x0006, 4), (0x0004, 2), (0x0038, 4), (0x0140, 4), (0x1800, 4)].all fun a =>
      decide (portRead blank a.1 a.2 = .ofRead .slverr 0)) ∧
    ([(0x0004, 4), (0x0200, 4), (0x2000, 4)].all fun a =>
      decide (portEffect blank (.memWrite a.1 a.2 5) = .done (blank.answer (.ofWrite .slverr)))) := by decide +kernel

/-- The windows are the instance's (20_memory.md R42): the last word of each, and the offset after it. -/
theorem test_port_windows :
    cellAt smallBoard 0x0120 = some (.rowbuf 8) ∧ cellAt smallBoard 0x0124 = none ∧ cellAt smallBoard 0x1000 = some (.din 0) ∧
    cellAt smallBoard 0x1004 = none ∧ cellAt greatBoard 0x01FC = some (.rowbuf 63) ∧ cellAt greatBoard 0x02FC = some (.recmap 63) ∧
    cellAt greatBoard 0x0300 = none ∧ cellAt greatBoard 0x1FFC = some (.din 1023) ∧ cellAt greatBoard 0x2FFC = some (.dout 1023) := by
  decide +kernel

/-- Vectors B10 and B11. -/
theorem test_port_write :
    Goes (step { blank with pending := [.memWrite 0x0020 4 0xDEADBEEF] }) (fun t =>
      t.arg0 == 0xDEADBEEF && t.statusWord == 0 && decide (t.response = some (.ofWrite .okay))) ∧
    Goes (step { blank with pending := [.memWrite 0x013C 4 0x80000000] }) (fun t => t.rowbufRow.getLsbD 511 &&
      decide (portRead t 0x013C 4 = .ofRead .okay 0x80000000)) :=
  ⟨goes_of (by decide +kernel), goes_of (by decide +kernel)⟩

/-- Vector B12 and B14: after reset. -/
theorem test_port_reset : portRead State.reset 0x2000 4 = .ofRead .okay 0 ∧ portRead State.reset 0x0004 4 = .ofRead .okay 0 ∧
    portRead State.reset 0x0008 4 = .ofRead .okay 0 ∧ portRead State.reset 0x002C 4 = .ofRead .okay 0 := by decide +kernel

/-- Vector E1b: a word with a bit above the opcode is no `NOP`. -/
theorem test_step_illegal_word : Goes (step (blank.withFetchWord 32 0x100)) fun t =>
    t.err == 4 && t.esticky == 0x10 && t.pending.isEmpty := goes_of (by decide +kernel)

/-- A command placed for the next step runs in it. -/
theorem test_step_runs : Goes (step (State.reset.withFetchWord 32 0x02)) fun t => t.ignored && t.pending.isEmpty :=
  goes_of (by decide +kernel)

/-- P1 step 4: the port writes of a `RECV` line. -/
theorem test_expand_recv : expand board (.recv 7 [0x55, 0xEE]) =
    [.memWrite 0x1000 4 0x0000EE55, .memWrite 0x020 4 7, .memWrite 0x024 4 2, .memWrite 0x000 4 0x00000031] := by decide +kernel

/-- P2 step 6: the first and the last write of the row `{0, 1, 4}`. -/
theorem test_expand_loadrow : (expand board (.loadrow [0, 1, 4])).head? = some (.memWrite 0x100 4 0x00000013) ∧
    (expand board (.loadrow [511])).getLast? = some (.memWrite 0x13C 4 0x80000000) := by decide +kernel

/-! ### For every statement with hypotheses, states and operands that meet them, clause by clause -/

theorem inv_almostSolved : almostSolved.Inv := by
  refine inv_of_check_collecting rfl (by decide +kernel) (by decide +kernel) (by decide +kernel) rfl ?_
    (by decide) ⟨.inl rfl, by decide, rfl, rfl, rfl⟩ rfl
  rw [State.ParametersLegal, if_neg (by decide)]
  decide

theorem inv_threeRows : threeRows.Inv := by
  refine inv_of_check_collecting rfl (by decide +kernel) (by decide +kernel) (by decide +kernel) rfl ?_
    (by decide) ⟨.inl rfl, by decide, rfl, rfl, rfl⟩ rfl
  rw [State.ParametersLegal, if_neg (by decide)]
  decide

theorem inv_fullRank : fullRank.Inv := by
  refine inv_of_check_solvable rfl (by decide +kernel) (by decide +kernel) (by decide +kernel) rfl ?_
    (by decide) ⟨.inl rfl, by decide, rfl, rfl, rfl⟩ rfl
  rw [State.ParametersLegal, if_neg (by decide)]
  decide

theorem inv_solved : solved.Inv := by
  refine inv_of_check_recovered rfl (by decide +kernel) (by decide +kernel) (by decide +kernel) (by decide +kernel) rfl ?_
    (by decide) ⟨.inl rfl, by decide, rfl, rfl, rfl⟩ rfl
  rw [State.ParametersLegal, if_neg (by decide)]
  decide

/-- The operands, the buffers and the host's side do not matter to the invariant. -/
theorem inv_with {s : State} (h : s.Inv) (a0 a1 : Word) (d : Table Word (Config.symCap / 4)) (r : Table Word (Config.lCap / 32))
    (p : List HostEvent) : State.Inv { s with arg0 := a0, arg1 := a1, din := d, rowbuf := r, pending := p } :=
  h.of_same rfl rfl ⟨rfl, rfl, rfl⟩ rfl rfl rfl rfl h.accFits h.reportLegal

/-- A state with one event of the host. -/
def asked (s : State) (e : HostEvent) : State := { s with pending := [e] }

theorem witness_DecodeAndEncodeAgree : ∃ w i, Instr.wf i = true ∧ decode w = .ok i ∧ w = encode i :=
  ⟨0x32#32, .backsub, rfl, rfl, rfl⟩

theorem witness_DecoderRejectsByName :
    (∃ w : Word, w.toNat = 256 ∧ decode w = .error .zeroField) ∧ (∃ w : Word, w.toNat = 255 ∧ decode w = .error .opcode) ∧
    ∃ w : Word, w.toNat = 0x33 ∧ decode w = .error .opcode :=
  ⟨⟨256#32, rfl, rfl⟩, ⟨255#32, rfl, rfl⟩, ⟨0x33#32, rfl, rfl⟩⟩

theorem witness_StepRunsDecodedCommand :
    ∃ s w rest i, State.pending s = HostEvent.memWrite 0x0000 4 w :: rest ∧ decode w = .ok i :=
  ⟨asked blank (.memWrite 0 4 0x32), 0x32#32, [], .backsub, rfl, rfl⟩

theorem witness_StepRejectsIllegalWord :
    (∃ s w rest, State.pending s = HostEvent.memWrite 0x0000 4 w :: rest ∧ 256 ≤ BitVec.toNat w) ∧
    ∃ s w rest, State.pending s = HostEvent.memWrite 0x0000 4 w :: rest ∧ BitVec.toNat w < 256 ∧
      BitVec.toNat w ∉ [0x00, 0x01, 0x02, 0x03, 0x04, 0x10, 0x20, 0x21, 0x22, 0x23, 0x24, 0x30, 0x31, 0x32] :=
  ⟨⟨asked blank (.memWrite 0 4 256), 256#32, [], rfl, by decide⟩, ⟨asked blank (.memWrite 0 4 5), 5#32, [], rfl, by decide, by decide⟩⟩

theorem witness_IdleStepHoldsState : blank.pending = [] := rfl

theorem witness_ReadAnswersAndChangesNothing : ∃ s addr size rest, State.pending s = HostEvent.memRead addr size :: rest :=
  ⟨asked blank (.memRead 4 4), 4, 4, [], rfl⟩

theorem witness_AddressMapIsOneToOne :
    Cell.wf board (.rowbuf 15) = true ∧ Cell.wf board (.recmap 15) = true ∧ Cell.wf board (.din 511) = true ∧ Cell.wf board (.dout 511) = true ∧
    cellAt board 0x013C = some (.rowbuf 15) ∧ cellAt board 0x023C = some (.recmap 15) ∧ cellAt board 0x17FC = some (.din 511) ∧
    cellAt board 0x27FC = some (.dout 511) ∧ cellAt board 0x0034 = some .treg ∧ cellAt board 0x0000 = some .cmd := by decide +kernel

theorem witness_CellsReadAtTheirOffsets : 15 < blank.build.rowWords ∧ ¬ 16 < blank.build.rowWords ∧
    511 < blank.build.symWords ∧ ¬ 512 < blank.build.symWords := by decide

theorem witness_PortAnswersTransactions :
    ((asked blank (.memRead 0x27FC 4)).pending = [.memRead 0x27FC 4] ∧ cellAt board 0x27FC = some (.dout 511) ∧ hostReads (.dout 511)) ∧
    ((asked blank (.memRead 0 4)).pending = [.memRead 0 4] ∧ cellAt board 0 = some .cmd ∧ ¬ hostReads .cmd) ∧
    ((asked blank (.memWrite 0x17FC 4 1)).pending = [.memWrite 0x17FC 4 1] ∧ cellAt board 0x17FC = some (.din 511) ∧
      hostWrites (.din 511)) ∧
    ((asked blank (.memWrite 0x0034 4 1)).pending = [.memWrite 0x0034 4 1] ∧ cellAt board 0x0034 = some .treg ∧ ¬ hostWrites .treg) :=
  ⟨⟨rfl, by decide +kernel, by simp [hostReads]⟩, ⟨rfl, by decide +kernel, by simp [hostReads]⟩,
    ⟨rfl, by decide +kernel, by simp [hostWrites]⟩, ⟨rfl, by decide +kernel, by simp [hostWrites]⟩⟩

theorem witness_WritesStoreTheWord : ∀ c ∈ [Cell.arg0, .arg1, .arg2, .rowbuf 0, .rowbuf 15, .din 0, .din 511],
    c.wf board = true ∧ hostWrites c ∧ c ≠ .cmd ∧ (asked blank (.memWrite (cellOffset c) 4 7)).pending = [.memWrite (cellOffset c) 4 7] := by
  intro c hc
  refine ⟨?_, ?_, ?_, rfl⟩
  · revert c
    decide
  · simp only [List.mem_cons, List.not_mem_nil, or_false] at hc
    rcases hc with rfl | rfl | rfl | rfl | rfl | rfl | rfl <;> simp [hostWrites]
  · revert c
    decide

theorem witness_StatusWordLayout : ∃ i, 6 ≤ i ∧ i < 32 := ⟨6, by decide⟩

/-- The first byte at `T`, and the last one before it, in the word they share. -/
theorem witness_DoutWindowShowsAcc : solved.phase ≠ .unconfigured ∧ 4 * 0 + 1 < solved.t ∧ ¬ 4 * 0 + 2 < solved.t ∧ 2 < 4 := by
  decide +kernel

theorem witness_DinSymbolTakesTBytes : 2047 < board.symMax ∧ ¬ 2047 < solved.t ∧ 1 < solved.t ∧ 1 < board.symMax := by decide +kernel

theorem witness_RowBitsLittleEndian : 511 < board.lMax ∧ ¬ 512 < board.lMax := by decide

theorem witness_ResetGivesResetValues : ∃ s rest, State.pending s = HostEvent.hardReset :: rest :=
  ⟨asked solved .hardReset, [], rfl⟩

theorem witness_StepKeepsInvariant : ∃ s t : State, s.Inv ∧ step s = .next t ∧ t.phase = .recovered ∧ s.phase = .collecting := by
  obtain ⟨t, ht, hp⟩ : Goes (step { almostSolved with
      arg0 := 1, arg1 := 2, din := setEntry almostSolved.din 0 0x4433, rowbuf := almostSolved.rowbuf
      pending := [.memWrite 0 4 0x31] }) (fun t => decide (t.phase = .recovered)) := goes_of (by decide +kernel)
  exact ⟨_, t, inv_with inv_almostSolved _ _ _ _ _, ht, of_decide_eq_true hp, rfl⟩

/-- Each row of the transition relation, from states that meet the invariant: `CFG` with legal and illegal operands, the
insertions that end below and at full rank, and the rest. -/
theorem witness_StateTransitionRelation :
    (∃ s t : State, s.Inv ∧ exec .insesi s = .next t ∧ t.phase = .recovered ∧ t.rank = t.lreg) ∧
    (∃ s t : State, s.Inv ∧ exec .insrow s = .next t ∧ t.phase = .solvable ∧ t.rank = t.lreg) ∧
    (∃ s t : State, s.Inv ∧ exec .insrow s = .next t ∧ t.phase = .collecting ∧ t.rank ≠ t.lreg) ∧
    (∃ s t : State, s.Inv ∧ exec .cfg s = .next t ∧ s.phase = .recovered ∧ t.phase = .collecting) ∧
    (∃ s t : State, s.Inv ∧ exec .cfg s = .next t ∧ s.phase = .recovered ∧ t.phase = .recovered) ∧
    (fullRank.Inv ∧ Goes (exec .backsub fullRank) fun t => decide (t.phase = .recovered)) ∧
    (almostSolved.Inv ∧ Goes (exec .abort almostSolved) fun t => decide (t.phase = .aborted)) ∧
    (fullRank.Inv ∧ Goes (exec .abort fullRank) fun t => decide (t.phase = .aborted)) ∧
    (solved.Inv ∧ Goes (exec .sreset solved) fun t => decide (t.phase = .unconfigured)) ∧
    Goes (step (asked solved .hardReset)) fun t => decide (t.phase = .unconfigured) := by
  refine ⟨?_, ?_, ?_, ?_, ?_, ⟨inv_fullRank, goes_of (by decide +kernel)⟩, ⟨inv_almostSolved, goes_of (by decide +kernel)⟩,
    ⟨inv_fullRank, goes_of (by decide +kernel)⟩, ⟨inv_solved, goes_of (by decide +kernel)⟩, goes_of (by decide +kernel)⟩
  · obtain ⟨t, ht, h⟩ : Goes (exec .insesi { almostSolved with
        arg0 := 1, arg1 := 2, din := almostSolved.din, rowbuf := almostSolved.rowbuf, pending := [] })
        (fun t => decide (t.phase = .recovered ∧ t.rank = t.lreg)) := goes_of (by decide +kernel)
    exact ⟨_, t, inv_with inv_almostSolved _ _ _ _ _, ht, of_decide_eq_true h⟩
  · obtain ⟨t, ht, h⟩ : Goes (exec .insrow { almostSolved with
        arg0 := 0, arg1 := 2, din := almostSolved.din, rowbuf := setEntry almostSolved.rowbuf 0 0x20, pending := [] })
        (fun t => decide (t.phase = .solvable ∧ t.rank = t.lreg)) := goes_of (by decide +kernel)
    exact ⟨_, t, inv_with inv_almostSolved _ _ _ _ _, ht, of_decide_eq_true h⟩
  · obtain ⟨t, ht, h⟩ : Goes (exec .insrow { threeRows with
        arg0 := 0, arg1 := 1, din := threeRows.din, rowbuf := setEntry threeRows.rowbuf 0 5, pending := [] })
        (fun t => decide (t.phase = .collecting ∧ t.rank ≠ t.lreg)) := goes_of (by decide +kernel)
    exact ⟨_, t, inv_with inv_threeRows _ _ _ _ _, ht, of_decide_eq_true h⟩
  · obtain ⟨t, ht, h⟩ : Goes (exec .cfg { solved with arg0 := 4, arg1 := 6, arg2 := 1 })
        (fun t => decide (t.phase = .collecting)) := goes_of (by decide +kernel)
    exact ⟨{ solved with arg0 := 4, arg1 := 6, arg2 := 1 }, t, inv_solved.of_same rfl rfl ⟨rfl, rfl, rfl⟩ rfl rfl rfl rfl
      inv_solved.accFits inv_solved.reportLegal, ht, rfl, of_decide_eq_true h⟩
  · obtain ⟨t, ht, h⟩ : Goes (exec .cfg { solved with
        arg0 := 4, arg1 := 4, din := solved.din, rowbuf := solved.rowbuf, pending := [] })
        (fun t => decide (t.phase = .recovered)) := goes_of (by decide +kernel)
    exact ⟨_, t, inv_with inv_solved _ _ _ _ _, ht, rfl, of_decide_eq_true h⟩

theorem witness_WritersOfState : Goes (exec .sample { solved with arg0 := 4 }) (fun t => t.err == 0) ∧
    Goes (exec .endStream almostSolved) (fun t => t.err == 2) := ⟨goes_of (by decide +kernel), goes_of (by decide +kernel)⟩

theorem witness_RaiseChangesOnlyTheReport : Goes (exec .cmbclr blank) (fun t => t.err == 4) ∧
    Goes (exec .ldsol { solved with arg0 := 6 }) (fun t => t.err == 1) ∧ Goes (exec .endStream almostSolved) (fun t => t.err == 2) :=
  ⟨goes_of (by decide +kernel), goes_of (by decide +kernel), goes_of (by decide +kernel)⟩

/-- A cell of each kind of the admission table, in its column. -/
theorem witness_AdmissionTableHolds :
    (∃ cells, (Instr.backsub, cells) ∈ admissionTable ∧ admissionColumns[1]? = some almostSolved.phase ∧ cells[1]? = some .illegal) ∧
    (∃ cells, (Instr.backsub, cells) ∈ admissionTable ∧ admissionColumns[3]? = some solved.phase ∧ cells[3]? = some .ignored) ∧
    (∃ cells, (Instr.backsub, cells) ∈ admissionTable ∧ admissionColumns[2]? = some fullRank.phase ∧ cells[2]? = some .executes) := by
  refine ⟨⟨[.illegal, .illegal, .executes, .ignored, .illegal], ?_⟩, ⟨[.illegal, .illegal, .executes, .ignored, .illegal], ?_⟩,
    ⟨[.illegal, .illegal, .executes, .ignored, .illegal], ?_⟩⟩ <;> simp [admissionTable, admissionColumns] <;> rfl

theorem witness_StickyBitsRecordConditions :
    Goes (exec .cmbclr { blank with esticky := 2 }) (fun t => t.err == 4 && t.esticky == 0x12) := goes_of (by decide +kernel)

theorem witness_SourcesOfInsufficientSymbols : Goes (exec .endStream threeRows) (fun t => t.err == 2) ∧
    Goes (exec .endStream fullRank) (fun t => t.err == 0) := ⟨goes_of (by decide +kernel), goes_of (by decide +kernel)⟩

/-- Each cause of `InvalidParameters`, at a boundary of its range. -/
theorem witness_CausesOfInvalidParameters :
    Goes (exec .cfg { blank with arg0 := 4, arg1 := 4, arg2 := 1 }) (fun t => t.err == 1) ∧
    Goes (exec .cfg { blank with arg0 := 4, arg1 := 513, arg2 := 1 }) (fun t => t.err == 1) ∧
    Goes (exec .cfg { blank with arg0 := 4, arg1 := 5, arg2 := 2049 }) (fun t => t.err == 1) ∧
    Goes (exec .sample { blank with arg0 := 257 }) (fun t => t.err == 1) ∧
    Goes (exec .cmbdin { solved with arg1 := 3 }) (fun t => t.err == 1) ∧
    Goes (exec .cmbsym { solved with arg0 := 6 }) (fun t => t.err == 1) ∧
    Goes (exec .ldsol { solved with arg0 := 6 }) (fun t => t.err == 1) ∧
    Goes (exec .encode { solved with arg0 := 65536 }) (fun t => t.err == 1) ∧
    Goes (exec .insrow (withRow { almostSolved with arg1 := 2 } 0x40)) (fun t => t.err == 1) ∧
    Goes (exec .insesi { solved with arg0 := 65536, arg1 := 2 }) (fun t => t.err == 1) := by
  refine ⟨?_, ?_, ?_, ?_, ?_, ?_, ?_, ?_, ?_, ?_⟩ <;> exact goes_of (by decide +kernel)

theorem witness_CfgStartsTransfer : fullRank.phase = .solvable ∧ blank.phase = .unconfigured ∧
    ({ blank with arg0 := 256, arg1 := 512, arg2 := 2048 } : State).x0 = 256 ∧
    ({ blank with arg0 := 256, arg1 := 512, arg2 := 2048 } : State).x1 = board.lMax ∧
    ({ blank with arg0 := 256, arg1 := 512, arg2 := 2048 } : State).x2 = board.symMax ∧
    ({ blank with arg0 := 3 } : State).x0 < 4 := by decide +kernel

theorem witness_AbortReleasesSystem : almostSolved.phase = .collecting ∧ fullRank.phase = .solvable ∧ solved.phase = .recovered :=
  ⟨rfl, rfl, rfl⟩

theorem witness_EndReportsInsufficientSymbols : almostSolved.phase = .collecting ∧ fullRank.phase = .solvable ∧
    blank.phase = .unconfigured := ⟨rfl, rfl, rfl⟩

/-- The first and the last row of the degree table, and the row of degree 10, at their boundary draws. -/
theorem witness_SampleLooksUpDegree :
    (∃ s : State, s.x0 = 3) ∧ (∃ s : State, s.x0 = 257) ∧ (∃ s : State, s.x0 = 4) ∧ ∃ s : State, s.x0 = 256 :=
  ⟨⟨{ blank with arg0 := 3 }, rfl⟩, ⟨{ blank with arg0 := 257 }, rfl⟩, ⟨{ blank with arg0 := 4 }, rfl⟩,
    ⟨{ blank with arg0 := 256 }, rfl⟩⟩

theorem witness_SampleProperties : ∃ (b : Build) (k : Nat) (rv rv' : Word), (4 ≤ k ∧ k ≤ 256) ∧
    b.degTable = Config.params.degTable ∧ rv.toNat % 2 ^ 20 ≤ rv'.toNat % 2 ^ 20 :=
  ⟨board, 256, 0xFFF00000, 1, by decide, rfl, by decide⟩

theorem witness_CmbclrClearsAcc : blank.phase = .unconfigured ∧ almostSolved.phase ≠ .unconfigured := by decide +kernel

theorem witness_CmbdinMixesDin : blank.phase = .unconfigured ∧ almostSolved.phase ≠ .unconfigured ∧
    ({ almostSolved with arg1 := 2 } : State).x1 = ({ almostSolved with arg1 := 2 } : State).t ∧
    ({ almostSolved with arg1 := 3 } : State).x1 ≠ ({ almostSolved with arg1 := 3 } : State).t := by decide +kernel

theorem witness_CmbsymMixesSolution : fullRank.phase ≠ .recovered ∧ solved.phase = .recovered ∧
    ({ solved with arg0 := 6 } : State).l ≤ ({ solved with arg0 := 6 } : State).x0 ∧
    ({ solved with arg0 := 5 } : State).x0 < ({ solved with arg0 := 5 } : State).l := by decide +kernel

theorem witness_LdsolLoadsSolution : fullRank.phase ≠ .recovered ∧ solved.phase = .recovered ∧
    ({ solved with arg0 := 6 } : State).l ≤ ({ solved with arg0 := 6 } : State).x0 ∧
    ({ solved with arg0 := 5 } : State).x0 < ({ solved with arg0 := 5 } : State).l := by decide +kernel

theorem witness_EncodeIsSystematic : fullRank.phase ≠ .recovered ∧ solved.phase = .recovered ∧
    board.esiBound ≤ ({ solved with arg0 := 65536 } : State).x0 ∧
    ({ solved with arg0 := 3 } : State).x0 < ({ solved with arg0 := 3 } : State).k ∧
    ({ solved with arg0 := 3 } : State).x0 < board.esiBound := by decide +kernel

theorem witness_EncodeCombinesGeneratedIndices : solved.phase = .recovered ∧ solved.k ≤ 4 ∧ 65535 < board.esiBound ∧
    answerValid solved.l (toy solved.k solved.l 4) = true ∧ answerValid solved.l (toy solved.k solved.l 65535) = true ∧
    answerValid solved.l (toy solved.k solved.l 10) = false := by decide +kernel

theorem witness_EncodeFollowsEquation : ∃ (s t : State) (b : RowBits), s.Inv ∧ s.phase = .recovered ∧ s.x0 < s.build.esiBound ∧
    eqRow toy s.k s.l s.x0 = some b ∧ command .encode (encodeRule toy) s = .next t := by
  obtain ⟨t, ht⟩ := command_next .encode (encodeRule toy)
    { solved with arg0 := 4, arg1 := solved.arg1, din := solved.din, rowbuf := solved.rowbuf, pending := [] }
  exact ⟨_, t, RowBits.ofColumns [0, 5], inv_with inv_solved _ _ _ _ _, rfl, by decide +kernel, by decide +kernel, ht⟩

theorem witness_EncodeDependsOnlyOnSolution : ∃ s s' t t' : State, s.phase = .recovered ∧ s'.phase = .recovered ∧
    s.build.esiBound = s'.build.esiBound ∧ s.kreg = s'.kreg ∧ s.lreg = s'.lreg ∧ s.k ≤ s.l ∧
    (∀ c, c < s.l → solAt s.pivot c = solAt s'.pivot c) ∧ s.arg0 = s'.arg0 ∧
    s ≠ s' ∧ command .encode (encodeRule toy) s = .next t ∧ command .encode (encodeRule toy) s' = .next t' ∧ t.err = 0 := by
  obtain ⟨t, ht, he⟩ : Goes (command .encode (encodeRule toy) { solved with arg0 := 4 }) (fun t => t.err == 0) :=
    goes_of (by decide +kernel)
  obtain ⟨t', ht'⟩ := command_next .encode (encodeRule toy)
    { solved with arg0 := 4, esticky := 2, acc := solved.acc }
  exact ⟨{ solved with arg0 := 4 }, { solved with arg0 := 4, esticky := 2, acc := solved.acc }, t, t', rfl, rfl, rfl, rfl, rfl,
    by decide +kernel, fun _ _ => rfl, rfl, by decide +kernel, ht, ht', eq_of_beq he⟩

theorem witness_StreamingMatchesEncode : ∃ (s v : State) (columns columns' : List Nat), s.phase = .recovered ∧
    (∀ c ∈ columns, c < s.l) ∧ columns'.Perm columns ∧ columns' ≠ columns ∧ s.k ≤ s.x0 ∧ s.x0 < s.build.esiBound ∧
    columns = (toy s.k s.l s.x0).indices ∧ answerValid s.l (toy s.k s.l s.x0) = true ∧
    command .encode (encodeRule toy) s = .next v := by
  obtain ⟨v, hv⟩ := command_next .encode (encodeRule toy)
    { solved with arg0 := 4 }
  exact ⟨_, v, [0, 5], [5, 0], rfl, by decide +kernel, List.Perm.swap _ _ _, by decide, by decide +kernel, by decide +kernel,
    by decide +kernel, by decide +kernel, hv⟩

/-- Each branch of `INSROW`: the rows of G9 (absorbed), G10 (full rank), a dependent row, a late row, and the two errors. -/
theorem witness_InsrowInsertsRow :
    let s := withDin (withRow { threeRows with arg1 := 1 } 0x5) 0x05
    let d := withDin (withRow { threeRows with arg1 := 1 } 0x12) 0x02
    blank.phase = .unconfigured ∧ s.phase = .collecting ∧ s.x1 = s.t ∧ s.rowbufRow.below s.l = true ∧
    (insertLoop s.pivot s.l ⟨s.rowbufRow, s.dinSymbol⟩).map Prod.fst = some 3 ∧
    insertLoop d.pivot d.l ⟨d.rowbufRow, d.dinSymbol⟩ = none ∧ threeRows.x1 ≠ threeRows.t ∧
    (withRow threeRows 0x20).rowbufRow.getLsbD 5 = true ∧ threeRows.l = 5 ∧ fullRank.phase ≠ .collecting := by decide +kernel

/-- Each branch of `INSESI` that asks no generator. -/
theorem witness_InsesiTakesSystematicSymbol :
    let s := withDin { threeRows with arg0 := 2, arg1 := 1 } 0x14
    let d := withDin { almostSolved with arg0 := 3, arg1 := 2, seen := [4, 5, 6, 7, 8, 9] } 0x8877
    let e := ({ almostSolved with arg0 := 9, arg1 := 2 } : State)
    blank.phase = .unconfigured ∧ s.phase = .collecting ∧ s.x0 < s.k ∧ s.x1 = s.t ∧ s.x0 ∉ s.seen ∧
    (insertLoop s.pivot s.l ⟨unitRow s.x0, s.dinSymbol⟩).map Prod.fst = some 2 ∧ s.rank + 1 ≠ s.lreg ∧
    d.x0 ∉ d.seen ∧ insertLoop d.pivot d.l ⟨unitRow d.x0, d.dinSymbol⟩ = none ∧ d.rank ≠ d.lreg ∧
    e.x0 ∈ e.seen ∧ board.esiBound ≤ ({ e with arg0 := 65536 } : State).x0 ∧ threeRows.x1 ≠ threeRows.t := by
  decide +kernel

/-- No equation; an equation that is dependent, absorbed, and absorbed at full rank. -/
theorem witness_InsesiInsertsEquation :
    let s := ({ almostSolved with arg1 := 2, seen := [] } : State)
    s.phase = .collecting ∧ s.x1 = s.t ∧ s.rank ≠ s.lreg ∧ eqRow toy s.k s.l 10 = none ∧
    eqRow toy s.k s.l 4 = some (RowBits.ofColumns [0, 5]) ∧
    insertLoop s.pivot s.l ⟨RowBits.ofColumns [0, 5], 0xCC33⟩ = none ∧
    (insertLoop s.pivot s.l ⟨RowBits.ofColumns [5], 0xEE22⟩).map Prod.fst = some 5 ∧ s.rank + 1 = s.lreg ∧
    eqRow toy threeRows.k threeRows.l 5 = some (RowBits.ofColumns [2, 4]) ∧
    (insertLoop threeRows.pivot threeRows.l ⟨RowBits.ofColumns [2, 4], 0⟩).map Prod.fst = some 2 ∧
    threeRows.rank + 1 ≠ threeRows.lreg := by decide +kernel

theorem witness_BacksubRecovers : fullRank.phase = .solvable ∧ solved.phase = .recovered ∧ almostSolved.phase = .collecting :=
  ⟨rfl, rfl, rfl⟩

/-- A row over a pivot, a row over a free column, and the empty row. -/
theorem witness_InsertionLoopUnfolds : threeRows.Inv ∧ (∀ j, threeRows.l ≤ j → (RowBits.ofColumns [0, 2]).getLsbD j = false) ∧
    (pivotAt threeRows.pivot 0).isSome ∧ (∀ j, threeRows.l ≤ j → (RowBits.ofColumns [3]).getLsbD j = false) ∧
    pivotAt threeRows.pivot 3 = none ∧ (∀ j, threeRows.l ≤ j → (0 : RowBits).getLsbD j = false) :=
  ⟨inv_threeRows, (below_iff _ _).1 (by decide +kernel), by decide +kernel, (below_iff _ _).1 (by decide +kernel),
    by decide +kernel, fun j _ => by simp⟩

theorem witness_InsertionDecidesSpan : threeRows.Inv ∧ (∀ j, threeRows.l ≤ j → (RowBits.ofColumns [1]).getLsbD j = false) ∧
    insertLoop threeRows.pivot threeRows.l ⟨RowBits.ofColumns [1], 0⟩ = none ∧
    (insertLoop threeRows.pivot threeRows.l ⟨RowBits.ofColumns [0, 2], 0⟩).isSome :=
  ⟨inv_threeRows, (below_iff _ _).1 (by decide +kernel), by decide +kernel, by decide +kernel⟩

theorem witness_InsertionExtendsSpan : ∃ (c : Nat) (r q : Row), threeRows.Inv ∧ (∀ j, threeRows.l ≤ j → r.bits.getLsbD j = false) ∧
    insertLoop threeRows.pivot threeRows.l r = some (c, q) :=
  ⟨3, ⟨RowBits.ofColumns [0, 2], 0x05⟩, ⟨RowBits.ofColumns [3], 0x18⟩, inv_threeRows, (below_iff _ _).1 (by decide +kernel),
    by decide +kernel⟩

theorem witness_StoredRowsIndependent : fullRank.Inv ∧ (∀ c ∈ [0, 1, 2, 3, 4], (pivotAt fullRank.pivot c).isSome) :=
  ⟨inv_fullRank, by decide +kernel⟩

theorem witness_RankGrowsByAbsorption : threeRows.Inv ∧ solved.Inv ∧
    Goes (exec .insrow (withDin (withRow { threeRows with arg1 := 1 } 0x5) 0x05)) (fun t => t.absorbed && t.rank == 4) ∧
    Goes (exec .cfg { solved with arg0 := 4, arg1 := 6, arg2 := 2 }) (fun t => t.rank == 0) :=
  ⟨inv_threeRows, inv_solved, goes_of (by decide +kernel), goes_of (by decide +kernel)⟩

theorem witness_BackSubstitutionSolves : fullRank.Inv ∧ fullRank.rank.toNat = fullRank.l ∧
    AllConsistent (solAt (backSubLoop 5 5 fullRank.pivot)) fullRank.pivot :=
  ⟨inv_fullRank, by decide +kernel, allConsistent_of_check (by decide +kernel)⟩

theorem witness_DuplicatesChangeNothing :
    (∃ s t : State, s.Inv ∧ t.err = 0 ∧ t.phase = .collecting ∧ exec .insrow s = .next t ∧ t.absorbed = true) ∧
    ∃ s t : State, s.Inv ∧ t.err = 0 ∧ t.phase = .collecting ∧ exec .insesi s = .next t ∧ t.absorbed = true := by
  obtain ⟨t, ht, h⟩ : Goes (exec .insrow { threeRows with
      arg0 := 0, arg1 := 1, din := setEntry threeRows.din 0 5, rowbuf := setEntry threeRows.rowbuf 0 5, pending := [] })
      (fun t => decide (t.err = 0 ∧ t.phase = .collecting ∧ t.absorbed = true)) := goes_of (by decide +kernel)
  obtain ⟨u, hu, h'⟩ : Goes (exec .insesi { threeRows with
      arg0 := 2, arg1 := 1, din := setEntry threeRows.din 0 5, rowbuf := threeRows.rowbuf, pending := [] })
      (fun t => decide (t.err = 0 ∧ t.phase = .collecting ∧ t.absorbed = true)) := goes_of (by decide +kernel)
  obtain ⟨h1, h2, h3⟩ := of_decide_eq_true h
  obtain ⟨h1', h2', h3'⟩ := of_decide_eq_true h'
  exact ⟨⟨_, t, inv_with inv_threeRows _ _ _ _ _, h1, h2, ht, h3⟩, ⟨_, u, inv_with inv_threeRows _ _ _ _ _, h1', h2', hu, h3'⟩⟩

/-- A command whose row is consistent with the symbols of section 2, offered to rows that are: P1 step 10. -/
theorem witness_ConsistencyIsKept : ∃ s t : State, s.Inv ∧ AllConsistent (solAt solved.pivot) s.pivot ∧
    NextOffersConsistent (solAt solved.pivot) s ∧ step s = .next t := by
  obtain ⟨t, ht, -⟩ : Goes (step { almostSolved with
      arg0 := 1, arg1 := 2, din := setEntry almostSolved.din 0 0x4433, rowbuf := almostSolved.rowbuf
      pending := [.memWrite 0 4 0x31] }) (fun _ => true) := goes_of (by decide +kernel)
  refine ⟨_, t, inv_with inv_almostSolved _ _ _ _ _, allConsistent_of_check (by decide +kernel), ?_, ht⟩
  intro w rest i hp hd
  cases hp
  obtain rfl : i = .insesi := by
    have h : decode 0x31#32 = .ok .insesi := rfl
    exact Except.ok.inj (hd.symm.trans h)
  intro _ _ _ _ b hb
  rw [eqRow_systematic (by decide +kernel)] at hb
  obtain rfl := Option.some.inj hb
  rw [Consistent]
  decide +kernel

/-- The state after some steps. -/
def after : Nat → State → State
  | 0, s => s
  | n + 1, s => after n ((nextOf (step s)).getD s)

theorem zero_offers {s : State} (h : s.dinSymbol = 0) : NextOffersConsistent (fun _ => 0) s := by
  have key : ∀ b : RowBits, Consistent (fun _ => 0) ⟨b, s.dinSymbol⟩ := by
    intro b
    rw [Consistent, h]
    symm
    show xorOver _ _ = 0
    generalize (List.range Config.lCap).filter (fun c => b.getLsbD c) = l
    induction l with
    | nil => rfl
    | cons c l ih =>
      rw [xorOver_cons, ih]
      exact BitVec.xor_self
  intro w rest i _ _
  cases i with
  | insrow => exact fun _ _ _ => key _
  | insesi => exact fun _ _ _ _ b _ => key b
  | _ => trivial

theorem zero_run {s0 : State} (n : Nat) (s : State) (hr : ConsistentRun (fun _ => 0) s0 s)
    (h : ((List.range n).all fun i => decide ((after i s).dinSymbol = 0) && (nextOf (step (after i s))).isSome) = true) :
    ConsistentRun (fun _ => 0) s0 (after n s) := by
  induction n generalizing s with
  | zero => exact hr
  | succ n ih =>
    rw [List.range_succ_eq_map, List.all_cons, Bool.and_eq_true] at h
    obtain ⟨h0, h1⟩ := h
    rw [Bool.and_eq_true] at h0
    cases hs : step s with
    | next t =>
      have e : (nextOf (step s)).getD s = t := by rw [hs]; rfl
      rw [after, e]
      refine ih t (.step hr (zero_offers (of_decide_eq_true h0.1)) hs) ?_
      rw [List.all_map] at h1
      simpa [Function.comp_def, after, e] using h1
    | fault r => cases r
    | refused r =>
      have := h0.2
      rw [after, hs] at this
      cases this

/-- A run from the empty system to R in which every row inserted is consistent with the zero symbols: the five unit rows
of `L = 5`, then `BACKSUB`. -/
theorem witness_RecoveredSymbolsAreTheAssignment : ∃ s t : State, s.Inv ∧ s.rank = 0 ∧
    ConsistentRun (fun _ => 0) s t ∧ t.phase = .recovered ∧ 4 < t.l := by
  let s : State := { configured .collecting 4 5 1 with
    arg1 := 1
    pending := ([1, 2, 4, 8, 16].map fun w => [HostEvent.memWrite 0x100 4 w, .memWrite 0 4 0x30]).flatten ++ [.memWrite 0 4 0x32] }
  have hi : s.Inv := by
    refine inv_of_check_collecting rfl (by decide +kernel) (by decide +kernel) (by decide +kernel) rfl ?_
      (by decide) ⟨.inl rfl, by decide, rfl, rfl, rfl⟩ rfl
    rw [State.ParametersLegal, if_neg (by decide)]
    decide
  exact ⟨s, after 11 s, hi, rfl, zero_run 11 s (.refl s) (by decide +kernel), by decide +kernel, by decide +kernel⟩

theorem witness_ValuesDecideNothing : ∃ s s' t t' : State, s.SameButValues s' ∧ s ≠ s' ∧ exec .backsub s = .next t ∧
    exec .backsub s' = .next t' := by
  obtain ⟨t, ht, -⟩ : Goes (exec .backsub fullRank) (fun _ => true) := goes_of (by decide +kernel)
  obtain ⟨t', ht', -⟩ : Goes (exec .backsub { fullRank with din := setEntry fullRank.din 0 9 }) (fun _ => true) :=
    goes_of (by decide +kernel)
  exact ⟨fullRank, { fullRank with din := setEntry fullRank.din 0 9 }, t, t', ⟨rfl, fun _ => rfl⟩, by decide +kernel, ht, ht'⟩

/-- `ENCODE 4` on the encoder and its bytes 33 CC in the decoder's `DIN` (95_test_vectors.md S1). -/
theorem witness_EncodedSymbolIsConsistent : ∃ (e e' d : State) (b : RowBits), e.Inv ∧ e.phase = .recovered ∧ e.x0 < e.build.esiBound ∧
    command .encode (encodeRule toy) e = .next e' ∧ e'.err = 0 ∧ d.kreg = e.kreg ∧ d.lreg = e.lreg ∧ d.treg = e.treg ∧
    d.arg0 = e.arg0 ∧ (∀ i, i < d.t → d.dinByte i = Symbol.byte e'.acc i) ∧ eqRow toy d.k d.l d.x0 = some b := by
  obtain ⟨e', he, h⟩ : Goes (command .encode (encodeRule toy)
      { solved with arg0 := 4, arg1 := 0, din := solved.din, rowbuf := solved.rowbuf, pending := [] })
      (fun t => decide (t.err = 0 ∧ t.acc = 0xCC33)) := goes_of (by decide +kernel)
  have h := of_decide_eq_true h
  refine ⟨_, e', { almostSolved with arg0 := 4, arg1 := 2, din := setEntry almostSolved.din 0 0xCC33 }, RowBits.ofColumns [0, 5],
    inv_with inv_solved _ _ _ _ _, rfl, by decide +kernel, he, h.1, rfl, rfl, rfl, rfl, ?_, by decide +kernel⟩
  rw [h.2]
  decide +kernel

/-- A symbol that fills `DIN`, and one of two bytes, whose word has two absent ones and is followed by words that stay. -/
theorem witness_LoadsymFillsDin :
    (∃ (s : State) (bytes : List Byte) (rest : List HostEvent), bytes.length = s.build.symMax ∧
      s.pending = expand s.build (.loadsym bytes) ++ rest) ∧
    ∃ (s : State) (bytes : List Byte) (rest : List HostEvent), bytes.length ≤ s.build.symMax ∧
      s.pending = expand s.build (.loadsym bytes) ++ rest ∧
      (bytes.length ≤ 3 ∧ 3 < 4 * ((bytes.length + 3) / 4)) ∧ (bytes.length + 3) / 4 ≤ 1 :=
  ⟨⟨{ blank with pending := expand board (.loadsym (List.replicate board.symMax 1)) ++ [] }, _, _, List.length_replicate, rfl⟩,
    ⟨{ blank with pending := expand board (.loadsym [1, 2]) ++ [] }, _, _, by decide, rfl, by decide, by decide⟩⟩

theorem witness_LoadrowFillsRowbuf : ∃ (s : State) (columns : List Nat) (rest : List HostEvent),
    (∀ c ∈ columns, c < s.build.lMax) ∧ 511 ∈ columns ∧ s.pending = expand s.build (.loadrow columns) ++ rest :=
  ⟨{ blank with pending := expand board (.loadrow [0, 32, 511]) ++ [] }, _, _, by decide, by decide, rfl⟩

end Sys2Proof.Tests
end

section
/-! SUPPORT. An instance's life as a whole: every step answers a next state, no command and no event changes the instance
(00_scope.md R8), and reset, by hardware or by `SRESET`, gives the values of 10_state.md R36. -/

namespace Sys2Proof.Machine

open Sys2Proof

/-! ### Every step answers -/

theorem exec_next (i : Instr) (s : State) : ∃ t, exec i s = .next t := by
  rw [exec_eq_command]
  exact command_next i (ruleOf i) s

theorem step_next (s : State) : ∃ t, step s = .next t := by
  rw [step]
  split
  · exact ⟨_, rfl⟩
  · split
    · exact ⟨_, rfl⟩
    · split
      · exact exec_next _ _
      · exact ⟨_, rfl⟩

/-! ### The build parameters -/

@[simp] theorem State.tryInsert_build (s : State) (r : Row) : (s.tryInsert r).build = s.build := by
  rw [State.tryInsert]
  split <;> rfl

@[simp] theorem State.solvableAtFullRank_build (s : State) : s.solvableAtFullRank.build = s.build := by
  rw [State.solvableAtFullRank]
  split <;> rfl

@[simp] theorem State.recoverAtFullRank_build (s : State) : s.recoverAtFullRank.build = s.build := by
  rw [State.recoverAtFullRank]
  split <;> rfl

/-- Every state that an admitted command with valid operands can leave is one of the same instance. -/
theorem build_of_endsIn {i : Instr} {s t : State} (h : endsIn i s t) : t.build = s.build := by
  cases i with
  | nop | cfg | sreset | sample | cmbclr | cmbdin | cmbsym | ldsol => cases h; rfl
  | abort | endStream | backsub => obtain ⟨-, rfl⟩ | ⟨-, rfl⟩ := h <;> rfl
  | encode =>
    obtain ⟨a, d, rfl, -⟩ := h
    rfl
  | insrow => obtain ⟨-, rfl⟩ | ⟨-, rfl⟩ := h <;> simp
  | insesi => obtain ⟨-, rfl⟩ | ⟨-, -, rfl⟩ | ⟨-, -, b, -, rfl⟩ := h <;> simp

theorem exec_build {i : Instr} {s t : State} (h : exec i s = .next t) : t.build = s.build := by
  obtain ⟨-, rfl⟩ | ⟨-, -, rfl⟩ | ⟨-, -, he⟩ := exec_inversion h
  · rfl
  · rfl
  · exact build_of_endsIn he

theorem storeCell_build {s t : State} {v : Word} {c : Cell} (h : storeCell s v c = some t) : t.build = s.build := by
  rw [storeCell_frame h]

theorem step_build {s t : State} (h : step s = .next t) : t.build = s.build := by
  obtain ⟨-, rfl⟩ | ⟨_, _, _, -, rfl⟩ | ⟨_, _, _, _, -, -, -, rfl⟩ | ⟨_, _, _, _, _, u, -, -, hu, rfl⟩ | ⟨_, -, rfl⟩ |
    ⟨_, _, _, _, -, -, ⟨i, -, he⟩ | ⟨-, rfl⟩⟩ := step_inversion h
  · rfl
  · rfl
  · rfl
  · exact (storeCell_build hu :)
  · rfl
  · exact (exec_build he :)
  · rfl

/-! ### Reset -/

/-- In state U the whole of `DOUT` reads as zero (20_memory.md R49). -/
theorem doutWord_unconfigured {s : State} (h : s.phase = .unconfigured) (w : Nat) : s.doutWord w = 0 := by
  simp only [State.doutWord, h, ne_eq, not_true_eq_false, and_false, if_false]
  rfl

/-- The reset values leave `DIN` and `ROWBUF` open, and do not speak of the host's side of the port. -/
theorem hasResetValues_of_afterReset (b : Build) (n : Nat) (din : Table Word (Config.symCap / 4))
    (rowbuf : Table Word (Config.lCap / 32)) (pending : List HostEvent) (response : Option Response) :
    State.HasResetValues { State.afterReset b n with din, rowbuf, pending, response } where
  phase := rfl
  parameters := ⟨rfl, rfl, rfl⟩
  rank := rfl
  flags := ⟨rfl, rfl, rfl⟩
  result := rfl
  report := ⟨rfl, rfl, rfl, rfl⟩
  arguments := ⟨rfl, rfl, rfl⟩
  pivot := pivotAt_noPivots
  seen _ := List.not_mem_nil
  recFlags _ := BitVec.getLsbD_zero
  dout := doutWord_unconfigured rfl

theorem afterReset_hasResetValues (b : Build) (n : Nat) : (State.afterReset b n).HasResetValues :=
  hasResetValues_of_afterReset b n _ _ _ _

theorem sresetRule_hasResetValues (s : State) : (sresetRule s).HasResetValues :=
  hasResetValues_of_afterReset s.build s.resets _ _ _ _

/-- The reset event gives the state of the next reset number, the later events still pending (70_reset_and_hazards.md
R130, log 8). -/
theorem step_hardReset {s : State} {rest : List HostEvent} (h : s.pending = .hardReset :: rest) :
    step s = .next { State.afterReset s.build (s.resets + 1) with pending := rest } := by
  rw [step, State.nextEvent, h]
  rfl

/-- Every state admits `SRESET`. -/
theorem exec_sreset (s : State) : exec .sreset s = .next (sresetRule s.prologue) :=
  exec_admitted rfl ((admission_ne_illegal_iff .sreset s.phase).2 trivial)

/-- Settles O16: hardware reset and `SRESET` leave a state after reset up to the buffers and the port's host side. -/
theorem resetGivesResetValues : Obligations.ResetGivesResetValues := by
  refine ⟨rfl, fun b n => ⟨afterReset_hasResetValues b n, rfl⟩, fun s rest h => ?_, fun s => ?_⟩
  · exact ⟨_, step_hardReset h, hasResetValues_of_afterReset s.build (s.resets + 1) _ _ rest _, rfl, rfl⟩
  · exact ⟨_, exec_sreset s, sresetRule_hasResetValues s.prologue, rfl, rfl, rfl⟩

/-- Settles O19: a step is total, and each of the ways it can end keeps the instance. -/
theorem everyStepAnswers : Obligations.EveryStepAnswers := by
  intro s
  obtain ⟨t, ht⟩ := step_next s
  exact ⟨t, ht, step_build ht⟩

end Sys2Proof.Machine
end

section
/-! SUPPORT. The invariant of 10_state.md R35 along every step: it holds after reset, the host's side of the port does not
touch it, and each way a command can end keeps it. -/

namespace Sys2Proof.Machine

open Sys2Proof

/-! ### Reset and the host's writes -/

/-- After reset the system is empty and there are no parameters. -/
theorem afterReset_inv (b : Build) (n : Nat) : (State.afterReset b n).Inv :=
  inv_of_system (systemHolds_empty _ _ pivotAt_noPivots) ⟨rfl, pivotAt_noPivots, rfl, rfl⟩ rfl ⟨rfl, rfl, rfl⟩
    ⟨List.Pairwise.nil, fun _ h => absurd h List.not_mem_nil⟩ ⟨.inl rfl, BitVec.zero_and, rfl, rfl, rfl⟩ (fits_zero _)

/-- The invariant does not speak of what the host writes, nor of the port's host side. -/
theorem State.Inv.host_written {s : State} (h : s.Inv) (arg0 arg1 arg2 : Word) (din : Table Word (Config.symCap / 4))
    (rowbuf : Table Word (Config.lCap / 32)) (pending : List HostEvent) (response : Option Response) :
    State.Inv { s with arg0, arg1, arg2, din, rowbuf, pending, response } :=
  h.of_same rfl rfl ⟨rfl, rfl, rfl⟩ rfl rfl rfl rfl h.accFits h.reportLegal

/-! ### The result registers and the accumulator -/

section
variable {s : State}

theorem State.Inv.rejected (h : s.Inv) {code : BitVec 3} (hc : code = 1 ∨ code = 2 ∨ code = 4) : (s.rejected code).Inv :=
  h.of_same rfl rfl ⟨rfl, rfl, rfl⟩ rfl rfl rfl rfl h.accFits (reportLegal_rejected h.reportLegal hc)

theorem State.Inv.prologue (h : s.Inv) : s.prologue.Inv :=
  h.of_same rfl rfl ⟨rfl, rfl, rfl⟩ rfl rfl rfl rfl h.accFits (reportLegal_completed h.reportLegal 0)

theorem State.Inv.setResult (h : s.Inv) (v : Word) : (s.setResult v).Inv :=
  h.of_same rfl rfl ⟨rfl, rfl, rfl⟩ rfl rfl rfl rfl h.accFits h.reportLegal

theorem State.Inv.resultRank (h : s.Inv) : s.resultRank.Inv := h.setResult _

/-- No other flag is set after the prologue, so the one set is the only one (10_state.md R21). -/
theorem State.Inv.prologue_setIgnored (h : s.Inv) : s.prologue.setIgnored.Inv := by
  obtain ⟨herr, hsticky, -⟩ := h.prologue.reportLegal
  exact h.prologue.of_same rfl rfl ⟨rfl, rfl, rfl⟩ rfl rfl rfl rfl h.accFits ⟨herr, hsticky, rfl, rfl, rfl⟩

theorem State.Inv.prologue_setDup (h : s.Inv) : s.prologue.setDup.Inv := by
  obtain ⟨herr, hsticky, -⟩ := h.prologue.reportLegal
  exact h.prologue.of_same rfl rfl ⟨rfl, rfl, rfl⟩ rfl rfl rfl rfl h.accFits ⟨herr, hsticky, rfl, rfl, rfl⟩

theorem State.Inv.setAcc (h : s.Inv) {a : Symbol} (ha : Symbol.Fits a s.t) : (s.setAcc a).Inv :=
  h.of_same rfl rfl ⟨rfl, rfl, rfl⟩ rfl rfl rfl rfl ha h.reportLegal

end

/-! ### A new system and a released one -/

/-- Outside U the block parameters are those of 10_state.md R19. -/
theorem parametersLegal_of_configured {s : State} (hp : s.phase ≠ .unconfigured)
    (h : 4 ≤ s.k ∧ s.k ≤ 256 ∧ s.k < s.l ∧ s.l ≤ s.build.lMax ∧ 1 ≤ s.t ∧ s.t ≤ s.build.symMax) : s.ParametersLegal := by
  rwa [State.ParametersLegal, if_neg hp, s.build.kMin_eq, s.build.kMax_eq]

/-- `CFG` with operands in range: an empty system of legal parameters, and `L` is not zero. -/
theorem configure_inv {s : State} (hr : s.ReportLegal) (h : 4 ≤ s.x0 ∧ s.x0 ≤ 256 ∧ s.x0 < s.x1 ∧ s.x1 ≤ s.build.lMax ∧
    1 ≤ s.x2 ∧ s.x2 ≤ s.build.symMax) : s.configure.Inv := by
  obtain ⟨h1, h2, h3, h4, h5, h6⟩ := h
  obtain ⟨hk, hl, ht⟩ := configure_parameters h2 h4 h6
  refine inv_of_system (systemHolds_empty _ _ pivotAt_noPivots) ?_ rfl (parametersLegal_of_configured nofun ?_)
    ⟨List.Pairwise.nil, fun _ h => absurd h List.not_mem_nil⟩ hr (fits_zero _)
  · show 0 < s.configure.l
    omega
  · rw [hk, hl, ht]
    exact ⟨h1, h2, h3, h4, h5, h6⟩

/-- `ABORT` in C and S: an empty system, and the parameters stay. -/
theorem State.Inv.release {s : State} (h : s.Inv) (hp : s.phase ≠ .unconfigured) :
    State.Inv { s.releaseSystem with phase := .aborted } :=
  inv_of_system (systemHolds_empty _ _ pivotAt_noPivots) ⟨rfl, pivotAt_noPivots, rfl, rfl⟩ rfl
    (parametersLegal_of_configured nofun (h.parameters hp)) ⟨List.Pairwise.nil, fun _ h => absurd h List.not_mem_nil⟩
    h.reportLegal h.accFits

/-! ### Insertion and back-substitution -/

@[simp] theorem State.tryInsert_phase (s : State) (r : Row) : (s.tryInsert r).phase = s.phase := by
  rw [tryInsert_frame]

/-- What the invariant says of a system that is not solved yet, whatever `STATE` says: it holds between the insertion of a
row and the change of `STATE` that the insertion may bring (43_solver.md R103, R104). -/
structure State.Unsolved (s : State) : Prop where
  system : SystemHolds s.l s.t s.pivot s.rank
  rankLe : s.rank.toNat ≤ s.l
  recFlags : s.recFlags = 0
  parameters : 4 ≤ s.k ∧ s.k ≤ 256 ∧ s.k < s.l ∧ s.l ≤ s.build.lMax ∧ 1 ≤ s.t ∧ s.t ≤ s.build.symMax
  seenLegal : s.seen.Pairwise (· < ·) ∧ ∀ e ∈ s.seen, e < s.build.esiBound
  reportLegal : s.ReportLegal
  accFits : Symbol.Fits s.acc s.t

theorem State.Inv.unsolved {s : State} (h : s.Inv) (hp : s.phase = .collecting ∨ s.phase = .solvable) : s.Unsolved where
  system := h.system
  rankLe := hp.elim (fun hc => (h.rank_lt hc).le) fun hs => (h.rank_eq (.inl hs)).le
  recFlags := h.recFlags_eq_zero (by rcases hp with hp | hp <;> simp [hp])
  parameters := h.parameters (by rcases hp with hp | hp <;> simp [hp])
  seenLegal := h.seenLegal
  reportLegal := h.reportLegal
  accFits := h.accFits

theorem State.Inv.unsolved_markSeen {s : State} (h : s.Inv) (hp : s.phase = .collecting) {e : Nat}
    (he : e < s.build.esiBound) : (s.markSeen e).Unsolved :=
  { h.unsolved (.inl hp) with seenLegal := h.seen_mark he }

namespace State.Unsolved

variable {s : State}

/-- In C below full rank, or in S at full rank, that is all of the invariant. -/
theorem inv (h : s.Unsolved)
    (hp : s.phase = .collecting ∧ s.rank.toNat ≠ s.l ∨ s.phase = .solvable ∧ s.rank.toNat = s.l) : s.Inv := by
  refine inv_of_system h.system ?_ h.recFlags (parametersLegal_of_configured ?_ h.parameters) h.seenLegal h.reportLegal
    h.accFits
  · rw [State.PhaseHolds]
    rcases hp with ⟨hp, hr⟩ | ⟨hp, hr⟩ <;> rw [hp]
    · exact Nat.lt_of_le_of_ne h.rankLe hr
    · exact hr
  · rcases hp with ⟨hp, -⟩ | ⟨hp, -⟩ <;> simp [hp]

/-- `TryInsert` below full rank, with no other flag set: discarded, or absorbed and counted. -/
theorem tryInsert (h : s.Unsolved) (hlt : s.rank.toNat < s.l) (hf : s.dup = false ∧ s.ignored = false) {r : Row}
    (hl : ∀ j, s.l ≤ j → r.bits.getLsbD j = false) (hv : Symbol.Fits r.val s.t) : (s.tryInsert r).Unsolved := by
  obtain ⟨herr, hsticky, -, -, hdi⟩ := h.reportLegal
  have hreport : ∀ a : Bool, (a && s.dup) = false ∧ (a && s.ignored) = false := by simp [hf]
  cases hi : insertLoop s.pivot s.l r with
  | none =>
    rw [tryInsert_discarded hi]
    exact { h with reportLegal := ⟨herr, hsticky, rfl, rfl, hdi⟩ }
  | some cq =>
    obtain ⟨c, q⟩ := cq
    have hcap : s.rank.toNat < Config.lCap := by
      obtain ⟨-, -, -, hlMax, -⟩ := h.parameters
      have := s.build.lMax_le
      omega
    obtain ⟨-, -, hsystem⟩ := h.system.absorb hcap hl hv hi
    rw [tryInsert_absorbed hi]
    exact { h with
      system := hsystem
      rankLe := (rank_succ_toNat hcap).le.trans hlt
      reportLegal := ⟨herr, hsticky, (hreport true).1, (hreport true).2, hdi⟩ }

theorem solvableAtFullRank (h : s.Unsolved) (hp : s.phase = .collecting) : s.solvableAtFullRank.Inv := by
  by_cases hr : s.rank = s.lreg
  · rw [solvableAtFullRank_full hr]
    exact inv (s := { s with phase := .solvable }) { h with } (.inr ⟨rfl, (rank_eq_lreg_iff s).1 hr⟩)
  · rw [solvableAtFullRank_short hr]
    exact h.inv (.inl ⟨hp, fun he => hr ((rank_eq_lreg_iff s).2 he)⟩)

/-- `BackSub` at full rank: unit rows at the columns below `L`, each flagged in `REC` (43_solver.md R102, R105). -/
theorem backSubstitute (h : s.Unsolved) (hr : s.rank.toNat = s.l) : s.backSubstitute.Inv := by
  obtain ⟨hsystem, hunit, -⟩ := h.system.backSub hr
  have hlt : s.l ≤ Config.lCap := by
    obtain ⟨-, -, -, hlMax, -⟩ := h.parameters
    exact hlMax.trans s.build.lMax_le
  have hrec : ∀ c, s.backSubstitute.recFlags.getLsbD c = decide (c < s.l) := by
    intro c
    rw [State.backSubstitute_recFlags, h.recFlags, BitVec.ofNat_eq_ofNat, BitVec.zero_or, getLsbD_columnsBelow]
    exact decide_eq_decide.2 ⟨And.left, fun hc => ⟨hc, hc.trans_le hlt⟩⟩
  exact
    { echelon := hsystem.echelon
      rankCounts := hsystem.rankCounts
      phaseHolds := ⟨hr, fun c hc => ⟨hunit c hc, (hrec c).trans (decide_eq_true hc)⟩⟩
      recoveredFlags := fun c hc => ⟨rfl, of_decide_eq_true ((hrec c).symm.trans hc)⟩
      parametersLegal := parametersLegal_of_configured nofun h.parameters
      seenLegal := h.seenLegal
      reportLegal := h.reportLegal
      accFits := h.accFits
      valuesFit := hsystem.valuesFit }

theorem recoverAtFullRank (h : s.Unsolved) (hp : s.phase = .collecting) : s.recoverAtFullRank.Inv := by
  by_cases hr : s.rank = s.lreg
  · rw [recoverAtFullRank_full hr]
    exact h.backSubstitute ((rank_eq_lreg_iff s).1 hr)
  · rw [recoverAtFullRank_short hr]
    exact h.inv (.inl ⟨hp, fun he => hr ((rank_eq_lreg_iff s).2 he)⟩)

end State.Unsolved

/-! ### One command -/

/-- A symbol read from `PIVOT` is one of `T` bytes. -/
theorem State.Inv.fits_solAt {s : State} (h : s.Inv) (c : Nat) : Symbol.Fits (solAt s.pivot c) s.t :=
  Machine.fits_solAt h.valuesFit c

/-- Each of the states an admitted command with valid operands can leave meets the invariant. -/
theorem inv_of_endsIn {i : Instr} {s t : State} (h : s.Inv) (ho : ¬ operandsInvalid i s) (he : endsIn i s t) : t.Inv := by
  have hp := h.prologue
  cases i with
  | nop => cases he; exact hp
  | cfg =>
    cases he
    simp only [operandsInvalid, not_or] at ho
    refine configure_inv hp.reportLegal ?_
    simp only [State.prologue_x0, State.prologue_x1, State.prologue_x2, State.prologue_build]
    omega
  | abort =>
    obtain ⟨hphase, rfl⟩ | ⟨-, rfl⟩ := he
    · exact hp.release (by rcases hphase with hphase | hphase <;> simp [hphase])
    · exact h.prologue_setIgnored
  | endStream =>
    obtain ⟨-, rfl⟩ | ⟨-, rfl⟩ := he
    · exact (h.rejected (.inr (.inl rfl))).of_same rfl rfl ⟨rfl, rfl, rfl⟩ rfl rfl rfl rfl h.accFits
        (h.rejected (.inr (.inl rfl))).reportLegal
    · exact h.prologue_setIgnored.resultRank
  | sreset => cases he; exact (afterReset_inv s.build s.resets).host_written 0 0 0 _ _ _ _
  | sample => cases he; exact hp.setResult _
  | cmbclr => cases he; exact hp.setAcc (fits_zero _)
  | cmbdin => cases he; exact hp.setAcc (fits_xor h.accFits (fits_dinSymbol s))
  | cmbsym => cases he; exact hp.setAcc (fits_xor h.accFits (h.fits_solAt s.x0))
  | ldsol => cases he; exact hp.setAcc (h.fits_solAt s.x0)
  | encode =>
    obtain ⟨a, d, rfl, ha⟩ := he
    refine (hp.setAcc ?_).setResult d
    obtain ⟨-, rfl, -⟩ | ⟨-, rfl, -⟩ := ha
    · exact h.fits_solAt s.x0
    · exact fits_xorOver h.fits_solAt _
  | insrow =>
    simp only [operandsInvalid, not_or, Bool.not_eq_false] at ho
    obtain ⟨-, rfl⟩ | ⟨hc, rfl⟩ := he
    · exact h.prologue_setIgnored.resultRank
    · have hbelow := (below_iff s.rowbufRow s.l).1 ho.2
      have hins := (hp.unsolved (.inl hc)).tryInsert (h.rank_lt hc) ⟨rfl, rfl⟩ (r := ⟨s.rowbufRow, s.dinSymbol⟩) hbelow
        (fits_dinSymbol s)
      exact (hins.solvableAtFullRank ((State.tryInsert_phase _ _).trans hc)).resultRank
  | insesi =>
    simp only [operandsInvalid, not_or, Nat.not_le] at ho
    obtain ⟨-, rfl⟩ | ⟨-, -, rfl⟩ | ⟨hc, -, b, hb, rfl⟩ := he
    · exact h.prologue_setIgnored.resultRank
    · exact h.prologue_setDup.resultRank
    · obtain ⟨-, -, hkl, -⟩ := h.parameters (by simp [hc])
      have hins := (hp.unsolved_markSeen hc ho.1).tryInsert (h.rank_lt hc) ⟨rfl, rfl⟩ (r := ⟨b, s.dinSymbol⟩)
        (eqRow_below hkl.le hb) (fits_dinSymbol s)
      exact (hins.recoverAtFullRank ((State.tryInsert_phase _ _).trans hc)).resultRank
  | backsub =>
    obtain ⟨hs, rfl⟩ | ⟨-, rfl⟩ := he
    · exact ((hp.unsolved (.inr hs)).backSubstitute (h.rank_eq (.inl hs))).resultRank
    · exact h.prologue_setIgnored.resultRank

theorem exec_inv {i : Instr} {s t : State} (h : s.Inv) (he : exec i s = .next t) : t.Inv := by
  obtain ⟨-, rfl⟩ | ⟨-, -, rfl⟩ | ⟨-, ho, he⟩ := exec_inversion he
  · exact h.rejected (.inr (.inr rfl))
  · exact h.rejected (.inl rfl)
  · exact inv_of_endsIn h ho he

/-! ### One step -/

/-- Settles O17: reset of any instance is an empty system without parameters. -/
theorem resetMeetsInvariant : Obligations.ResetMeetsInvariant := ⟨afterReset_inv Config.build 0, afterReset_inv⟩

/-- Settles O18: an event that is no command writes only what the invariant does not speak of or resets the block, and a
command keeps the invariant whichever way it ends. -/
theorem stepKeepsInvariant : Obligations.StepKeepsInvariant := by
  intro s t h hstep
  obtain ⟨-, rfl⟩ | ⟨_, _, _, -, rfl⟩ | ⟨_, _, _, _, -, -, -, rfl⟩ | ⟨_, _, _, _, _, u, -, -, hu, rfl⟩ | ⟨_, -, rfl⟩ |
    ⟨_, _, _, rest, -, -, hcmd⟩ := step_inversion hstep
  · exact h
  · exact h.host_written _ _ _ _ _ _ _
  · exact h.host_written _ _ _ _ _ _ _
  · rw [storeCell_frame hu]
    exact h.host_written _ _ _ _ _ _ _
  · exact (afterReset_inv _ _).host_written _ _ _ _ _ _ _
  · have hs := h.host_written s.arg0 s.arg1 s.arg2 s.din s.rowbuf rest (some (.ofWrite .okay))
    obtain ⟨i, -, he⟩ | ⟨-, rfl⟩ := hcmd
    · exact exec_inv hs he
    · exact hs.rejected (.inr (.inr rfl))

end Sys2Proof.Machine
end

section
/-! SUPPORT. What `PIVOT` spans (10_state.md R35, INV5): its rows are independent, and an absorbed row adds its own
bit-vector to the span and nothing else. -/

namespace Sys2Proof.Machine

open Sys2Proof

/-- Vectors that differ by one of the span are in it together. -/
theorem InSpan.congr_xor {p : Pivots} {a b : RowBits} (h : InSpan p (a ^^^ b)) : InSpan p a ↔ InSpan p b := by
  constructor
  · intro ha
    simpa [← BitVec.xor_assoc] using ha.xor h
  · intro hb
    simpa [BitVec.xor_assoc] using h.xor hb

/-- The row stored for an absorbed one goes to a free column and differs from it by a sum of rows stored before. -/
theorem insertLoop_absorbed {l : Nat} {p : Pivots} (he : Echelon l p) {r q : Row} {c : Nat}
    (hl : ∀ j, l ≤ j → r.bits.getLsbD j = false) (hi : insertLoop p l r = some (c, q)) :
    c < Config.lCap ∧ pivotAt p c = none ∧ InSpan p (q.bits ^^^ r.bits) := by
  obtain ⟨-, -, hc, hp, -, -, hspan, -⟩ := (insertLoop_spec he (fun _ => True) (fun _ _ _ => trivial)
    (fun _ _ _ _ => trivial) l 0 r (by omega) hl (by omega) trivial).2 c q hi
  exact ⟨hc, hp, hspan⟩

/-- Settles O50: the row stored and the row absorbed differ by a vector of the old span, so they extend it alike. -/
theorem insertionExtendsSpan : Obligations.InsertionExtendsSpan := by
  intro s r q c h hl hi b
  obtain ⟨hc, hp, hspan⟩ := insertLoop_absorbed h.echelon hl hi
  have hdiff : InSpan s.pivot ((b ^^^ q.bits) ^^^ (b ^^^ r.bits)) := by
    rwa [BitVec.xor_comm b q.bits, BitVec.xor_assoc, ← BitVec.xor_assoc b b, BitVec.xor_self, BitVec.zero_xor]
  rw [inSpan_setPivot s.pivot c q hc hp, hdiff.congr_xor]

/-- Settles O51: a sum of one or more different rows has a lowest bit, at the least of their columns. -/
theorem storedRowsIndependent : Obligations.StoredRowsIndependent := by
  intro s h columns hn hv hsum
  by_contra hne
  obtain ⟨m, -, hm, -⟩ := sum_lowest h.echelon columns hn hv hne
  simp [hsum] at hm

end Sys2Proof.Machine
end

section
/-! SUPPORT. The result registers and what a command leaves unchanged: the fields of `STATUS`, the report a command leaves
in `ERR` and `ESTICKY`, how `RANK` and `ABSORBED` go together, and which commands write what (10_state.md R21, R24, R37). -/

namespace Sys2Proof.Machine

open Sys2Proof

/-! ### STATUS (10_state.md R21) -/

theorem setWidth_statusWord (s : State) : s.statusWord.setWidth 3 = s.phase.code := by
  rw [State.statusWord, BitVec.setWidth_append, dif_pos (Nat.le_refl 3), BitVec.setWidth_eq]

/-- From bit 3 on: the three flags in order, then zero. -/
theorem getLsbD_statusWord (s : State) (i : Nat) :
    s.statusWord.getLsbD (3 + i) = [s.absorbed, s.dup, s.ignored].getD i false := by
  simp only [State.statusWord, BitVec.getLsbD_append]
  rcases i with _ | _ | _ | i <;> simp

/-- Settles O12: the code of `STATE` is the last part of the concatenation, and the flags stand above it in order. -/
theorem statusWordLayout : Obligations.StatusWordLayout := by
  intro s
  refine ⟨?_, getLsbD_statusWord s 0, getLsbD_statusWord s 1, getLsbD_statusWord s 2, fun i hi => ?_⟩
  · have h := congrArg BitVec.toNat (setWidth_statusWord s)
    rw [BitVec.toNat_setWidth] at h
    rw [h]
    cases s.phase <;> rfl
  · obtain ⟨j, rfl⟩ := Nat.exists_eq_add_of_le hi
    rw [show 6 + j = 3 + (j + 3) by omega]
    exact getLsbD_statusWord s (j + 3)

/-! ### The prologue (40_control.md R67) -/

/-- A command reads `STATE`, and the rest of the state as the prologue leaves it. -/
theorem exec_congr (i : Instr) {s s' : State} (hphase : s.phase = s'.phase) (h : s.prologue = s'.prologue) :
    exec i s = exec i s' := by
  rw [exec_eq_command, exec_eq_command, command, command, hphase, h]

/-- Settles O27: the prologue overwrites all five, and the command reads the state after it. -/
theorem outcomeIgnoresEarlierReport : Obligations.OutcomeIgnoresEarlierReport :=
  fun i _ _ _ _ _ _ => exec_congr i rfl rfl

/-- Settles O32: every state admits `SRESET`, and its rule keeps the instance, the buffers, the reset's number and the
port's host side of a state after reset. -/
theorem sresetRestoresResetState : Obligations.SresetRestoresResetState := exec_sreset

/-! ### What an insertion writes -/

/-- What `TryInsert` can write, and that `RANK` counts what `ABSORBED` reports (43_solver.md R100). -/
theorem tryInsert_writes (s : State) (r : Row) : ∃ (a : Bool) (p : Pivots) (k : BitVec 12),
    s.tryInsert r = { s with absorbed := a, pivot := p, rank := k } ∧
      (a = true ∧ k = s.rank + 1 ∨ a = false ∧ k = s.rank) := by
  cases hi : insertLoop s.pivot s.l r with
  | none => exact ⟨false, s.pivot, s.rank, tryInsert_discarded hi, .inr ⟨rfl, rfl⟩⟩
  | some cq => exact ⟨true, _, _, tryInsert_absorbed (c := cq.1) (q := cq.2) hi, .inl ⟨rfl, rfl⟩⟩

theorem solvableAtFullRank_writes (s : State) : ∃ ph, s.solvableAtFullRank = { s with phase := ph } := by
  by_cases hr : s.rank = s.lreg
  · exact ⟨_, solvableAtFullRank_full hr⟩
  · exact ⟨_, solvableAtFullRank_short hr⟩

theorem recoverAtFullRank_writes (s : State) :
    ∃ ph p f, s.recoverAtFullRank = { s with phase := ph, pivot := p, recFlags := f } := by
  by_cases hr : s.rank = s.lreg
  · exact ⟨_, _, _, recoverAtFullRank_full hr⟩
  · exact ⟨_, _, _, recoverAtFullRank_short hr⟩

/-- What the insertion of `INSROW` can write (43_solver.md R103). -/
theorem insrow_writes (s : State) (r : Row) : ∃ (a : Bool) (p : Pivots) (k : BitVec 12) (ph : Phase),
    (s.tryInsert r).solvableAtFullRank = { s with absorbed := a, pivot := p, rank := k, phase := ph } ∧
      (a = true ∧ k = s.rank + 1 ∨ a = false ∧ k = s.rank) := by
  obtain ⟨a, p, k, hins, hk⟩ := tryInsert_writes s r
  obtain ⟨ph, hph⟩ := solvableAtFullRank_writes (s.tryInsert r)
  exact ⟨a, p, k, ph, by rw [hph, hins], hk⟩

/-- What the insertion of `INSESI` can write (43_solver.md R104). -/
theorem insesi_writes (s : State) (r : Row) : ∃ (a : Bool) (p : Pivots) (k : BitVec 12) (ph : Phase) (f : RowBits),
    (s.tryInsert r).recoverAtFullRank =
        { s with absorbed := a, pivot := p, rank := k, phase := ph, recFlags := f } ∧
      (a = true ∧ k = s.rank + 1 ∨ a = false ∧ k = s.rank) := by
  obtain ⟨a, p, k, hins, hk⟩ := tryInsert_writes s r
  obtain ⟨ph, p', f, hph⟩ := recoverAtFullRank_writes (s.tryInsert r)
  exact ⟨a, p', k, ph, f, by rw [hph, hins], hk⟩

/-! ### The writers of each piece of state (10_state.md R37) -/

/-- Settles O21: each way a command can end names the fields it writes. -/
theorem writersOfState : Obligations.WritersOfState := by
  intro i s t h
  obtain ⟨-, rfl⟩ | ⟨-, -, rfl⟩ | ⟨-, -, he⟩ := exec_inversion h
  · simp
  · simp
  · cases i with
    | nop | cfg | sreset | sample | cmbclr | cmbdin | cmbsym | ldsol => cases he; simp
    | abort | endStream | backsub => obtain ⟨-, rfl⟩ | ⟨-, rfl⟩ := he <;> simp
    | encode =>
      obtain ⟨a, d, rfl, -⟩ := he
      simp
    | insrow =>
      obtain ⟨-, rfl⟩ | ⟨-, rfl⟩ := he
      · simp
      · obtain ⟨a, p, k, ph, hw, -⟩ := insrow_writes s.prologue ⟨s.rowbufRow, s.dinSymbol⟩
        simp [hw]
    | insesi =>
      obtain ⟨-, rfl⟩ | ⟨-, -, rfl⟩ | ⟨-, -, b, -, rfl⟩ := he
      · simp
      · simp
      · obtain ⟨a, p, k, ph, f, hw, -⟩ := insesi_writes (s.prologue.markSeen s.x0) ⟨b, s.dinSymbol⟩
        simp [hw]

/-! ### The report of a command (10_state.md R23, R24) -/

theorem getLsbD_esticky_rejected (s : State) (code : BitVec 3) (n : Nat) :
    (s.rejected code).esticky.getLsbD n = (s.esticky.getLsbD n || decide (code.toNat = n)) := by
  have hlt : code.toNat < 32 := Nat.lt_trans code.isLt (by decide)
  rw [State.rejected_esticky, BitVec.getLsbD_or, ← BitVec.twoPow_eq, BitVec.getLsbD_twoPow, decide_eq_true hlt,
    Bool.true_and]

/-- An admitted command with valid operands raises nothing, but for `END` in C (60_exceptions.md R119). -/
theorem err_of_endsIn {i : Instr} {s t : State} (h : endsIn i s t) :
    t.err = 0 ∨ t = { s.rejected 2 with einfo0 := s.rank.setWidth 32, einfo1 := s.lreg.setWidth 32 } := by
  cases i with
  | nop | cfg | sreset | sample | cmbclr | cmbdin | cmbsym | ldsol => cases h; exact .inl rfl
  | abort | backsub => obtain ⟨-, rfl⟩ | ⟨-, rfl⟩ := h <;> exact .inl rfl
  | endStream =>
    obtain ⟨-, rfl⟩ | ⟨-, rfl⟩ := h
    · exact .inr rfl
    · exact .inl rfl
  | encode =>
    obtain ⟨a, d, rfl, -⟩ := h
    exact .inl rfl
  | insrow =>
    obtain ⟨-, rfl⟩ | ⟨-, rfl⟩ := h
    · exact .inl rfl
    · obtain ⟨a, p, k, ph, hw, -⟩ := insrow_writes s.prologue ⟨s.rowbufRow, s.dinSymbol⟩
      exact .inl (by rw [hw]; rfl)
  | insesi =>
    obtain ⟨-, rfl⟩ | ⟨-, -, rfl⟩ | ⟨-, -, b, -, rfl⟩ := h
    · exact .inl rfl
    · exact .inl rfl
    · obtain ⟨a, p, k, ph, f, hw, -⟩ := insesi_writes (s.prologue.markSeen s.x0) ⟨b, s.dinSymbol⟩
      exact .inl (by rw [hw]; rfl)

/-- What a command raises: nothing, or a condition of one of three codes, whose bit `ESTICKY` gains. -/
theorem exec_report {i : Instr} {s t : State} (h : exec i s = .next t) : t.err = 0 ∨
    (t.err = 1 ∨ t.err = 2 ∨ t.err = 4) ∧ t.esticky = (s.rejected t.err).esticky := by
  obtain ⟨-, rfl⟩ | ⟨-, -, rfl⟩ | ⟨-, -, he⟩ := exec_inversion h
  · exact .inr ⟨.inr (.inr rfl), rfl⟩
  · exact .inr ⟨.inl rfl, rfl⟩
  · obtain herr | rfl := err_of_endsIn he
    · exact .inl herr
    · exact .inr ⟨.inr (.inl rfl), rfl⟩

/-- Settles O24: a command that raises nothing leaves `ESTICKY`, and one that raises adds the bit of its code. -/
theorem stickyBitsRecordConditions : Obligations.StickyBitsRecordConditions := by
  intro i s t h hi n
  obtain herr | ⟨hcode, hsticky⟩ := exec_report h
  · obtain ⟨-, -, -, -, -, -, -, hkept, -⟩ := writersOfState i s t h
    have hno : ¬ (t.err.toNat = n ∧ (n = 1 ∨ n = 2 ∨ n = 4)) := by
      rintro ⟨rfl, hn⟩
      simp [herr] at hn
    rw [hkept herr hi, decide_eq_false hno, Bool.or_false]
  · have hcodes : t.err.toNat = 1 ∨ t.err.toNat = 2 ∨ t.err.toNat = 4 :=
      hcode.imp (congrArg BitVec.toNat) (Or.imp (congrArg BitVec.toNat) (congrArg BitVec.toNat))
    rw [hsticky, getLsbD_esticky_rejected]
    exact congrArg _ (decide_eq_decide.2 ⟨fun hn => ⟨hn, hn ▸ hcodes⟩, And.left⟩)

/-! ### RANK and ABSORBED (10_state.md R20, 43_solver.md R106) -/

/-- `ABSORBED` is set exactly with a count of one more, where `RANK` has room for it. -/
theorem rank_of_insertion {a : Bool} {k r : BitVec 12} (hlt : r.toNat < Config.lCap)
    (h : a = true ∧ k = r + 1 ∨ a = false ∧ k = r) : (a = true ∧ k.toNat = r.toNat + 1) ∨ (a = false ∧ k = r) := by
  rw [← rank_succ_toNat hlt, ← BitVec.toNat_eq]
  exact h

theorem State.Inv.rank_lt_lCap {s : State} (h : s.Inv) (hp : s.phase = .collecting) : s.rank.toNat < Config.lCap := by
  obtain ⟨-, -, -, hl, -⟩ := h.parameters (by simp [hp])
  exact (h.rank_lt hp).trans_le (hl.trans s.build.lMax_le)

/-- Settles O52: only an insertion adds to `RANK`, and in C there is room for it. -/
theorem rankGrowsByAbsorption : Obligations.RankGrowsByAbsorption := by
  intro i s t h he
  obtain ⟨-, rfl⟩ | ⟨-, -, rfl⟩ | ⟨-, -, he⟩ := exec_inversion he
  · exact .inr (.inl ⟨rfl, rfl⟩)
  · exact .inr (.inl ⟨rfl, rfl⟩)
  · cases i with
    | nop | sample | cmbclr | cmbdin | cmbsym | ldsol => cases he; exact .inr (.inl ⟨rfl, rfl⟩)
    | cfg => cases he; exact .inr (.inr ⟨rfl, rfl, .inl rfl⟩)
    | sreset => cases he; exact .inr (.inr ⟨rfl, rfl, .inr (.inr rfl)⟩)
    | abort =>
      obtain ⟨-, rfl⟩ | ⟨-, rfl⟩ := he
      · exact .inr (.inr ⟨rfl, rfl, .inr (.inl rfl)⟩)
      · exact .inr (.inl ⟨rfl, rfl⟩)
    | endStream | backsub => obtain ⟨-, rfl⟩ | ⟨-, rfl⟩ := he <;> exact .inr (.inl ⟨rfl, rfl⟩)
    | encode =>
      obtain ⟨a, d, rfl, -⟩ := he
      exact .inr (.inl ⟨rfl, rfl⟩)
    | insrow =>
      obtain ⟨-, rfl⟩ | ⟨hc, rfl⟩ := he
      · exact .inr (.inl ⟨rfl, rfl⟩)
      · obtain ⟨a, p, k, ph, hw, hk⟩ := insrow_writes s.prologue ⟨s.rowbufRow, s.dinSymbol⟩
        rw [hw]
        exact (rank_of_insertion (h.rank_lt_lCap hc) hk).imp_right .inl
    | insesi =>
      obtain ⟨-, rfl⟩ | ⟨-, -, rfl⟩ | ⟨hc, -, b, -, rfl⟩ := he
      · exact .inr (.inl ⟨rfl, rfl⟩)
      · exact .inr (.inl ⟨rfl, rfl⟩)
      · obtain ⟨a, p, k, ph, f, hw, hk⟩ := insesi_writes (s.prologue.markSeen s.x0) ⟨b, s.dinSymbol⟩
        rw [hw]
        exact (rank_of_insertion (h.rank_lt_lCap hc) hk).imp_right .inl

end Sys2Proof.Machine
end

section
/-! SUPPORT. The register window (20_memory.md R41 to R49): the address map, what a read and a write of the host come to,
and how the words of the buffers hold bytes and columns. -/

namespace Sys2Proof.Machine

open Sys2Proof

/-! ### The address map (20_memory.md R42) -/

theorem rowbuf_wf_iff (b : Build) (w : Nat) : Cell.wf b (.rowbuf w) = true ↔ w < b.rowWords := decide_eq_true_iff

theorem recmap_wf_iff (b : Build) (w : Nat) : Cell.wf b (.recmap w) = true ↔ w < b.rowWords := decide_eq_true_iff

theorem din_wf_iff (b : Build) (w : Nat) : Cell.wf b (.din w) = true ↔ w < b.symWords := decide_eq_true_iff

theorem dout_wf_iff (b : Build) (w : Nat) : Cell.wf b (.dout w) = true ↔ w < b.symWords := decide_eq_true_iff

/-- No window reaches to an offset before its base or past its last word. -/
theorem windowIndex_outside {base n off : Nat} (h : off < base ∨ base + 4 * n ≤ off) : windowIndex base n off = none :=
  (windowIndex_eq_none base n off).2 fun _ _ => by omega

/-- A register is found first, and no window but its own reaches to the words of a window. -/
theorem cellAt_cellOffset {b : Build} {c : Cell} (hc : c.wf b = true) : cellAt b (cellOffset c) = some c := by
  have hrow : b.rowWords ≤ 64 := b.rowWords_le
  have hsym : b.symWords ≤ 1024 := b.symWords_le
  obtain hr | ⟨w, rfl⟩ | ⟨w, rfl⟩ | ⟨w, rfl⟩ | ⟨w, rfl⟩ := cell_cases c
  · rw [cellAt, registerCells_find hr]
  · rw [rowbuf_wf_iff] at hc
    rw [cellAt, cellOffset, registerCells_find_none (by omega), (windowIndex_eq_some _ _ _ w).2 ⟨hc, rfl⟩]
  · rw [recmap_wf_iff] at hc
    rw [cellAt, cellOffset, registerCells_find_none (by omega), windowIndex_outside (by omega),
      (windowIndex_eq_some _ _ _ w).2 ⟨hc, rfl⟩]
  · rw [din_wf_iff] at hc
    rw [cellAt, cellOffset, registerCells_find_none (by omega), windowIndex_outside (by omega),
      windowIndex_outside (by omega), (windowIndex_eq_some _ _ _ w).2 ⟨hc, rfl⟩]
  · rw [dout_wf_iff] at hc
    rw [cellAt, cellOffset, registerCells_find_none (by omega), windowIndex_outside (by omega),
      windowIndex_outside (by omega), windowIndex_outside (by omega), (windowIndex_eq_some _ _ _ w).2 ⟨hc, rfl⟩]

/-- What the map finds at an offset is a cell of the instance at that offset. -/
theorem wf_of_cellAt {b : Build} {off : Nat} {c : Cell} (h : cellAt b off = some c) :
    c.wf b = true ∧ cellOffset c = off := by
  rw [cellAt] at h
  split at h
  · next d hd =>
    cases h
    exact ⟨(registerCells_offset (List.mem_of_find?_eq_some hd)).2.2 b, by simpa using List.find?_some hd⟩
  · split at h
    · next w hw =>
      cases h
      rw [windowIndex_eq_some] at hw
      exact ⟨(rowbuf_wf_iff b w).2 hw.1, hw.2.symm⟩
    · split at h
      · next w hw =>
        cases h
        rw [windowIndex_eq_some] at hw
        exact ⟨(recmap_wf_iff b w).2 hw.1, hw.2.symm⟩
      · split at h
        · next w hw =>
          cases h
          rw [windowIndex_eq_some] at hw
          exact ⟨(din_wf_iff b w).2 hw.1, hw.2.symm⟩
        · split at h
          · next w hw =>
            cases h
            rw [windowIndex_eq_some] at hw
            exact ⟨(dout_wf_iff b w).2 hw.1, hw.2.symm⟩
          · cases h

theorem cellOffset_mod_four (c : Cell) : cellOffset c % 4 = 0 := by
  obtain hr | ⟨w, rfl⟩ | ⟨w, rfl⟩ | ⟨w, rfl⟩ | ⟨w, rfl⟩ := cell_cases c
  · exact (registerCells_offset hr).2.1
  all_goals
    rw [cellOffset]
    omega

theorem cellOffset_lt {b : Build} {c : Cell} (hc : c.wf b = true) : cellOffset c < 0x3000 := by
  have hrow : b.rowWords ≤ 64 := b.rowWords_le
  have hsym : b.symWords ≤ 1024 := b.symWords_le
  obtain hr | ⟨w, rfl⟩ | ⟨w, rfl⟩ | ⟨w, rfl⟩ | ⟨w, rfl⟩ := cell_cases c
  · have := (registerCells_offset hr).1
    omega
  all_goals
    simp only [rowbuf_wf_iff, recmap_wf_iff, din_wf_iff, dout_wf_iff] at hc
    rw [cellOffset]
    omega

/-- Settles O8: the map finds every cell of the instance at its own offset, and nothing else anywhere. -/
theorem addressMapIsOneToOne : Obligations.AddressMapIsOneToOne := by
  refine fun b => ⟨fun c hc => cellAt_cellOffset hc, fun off c h => ?_⟩
  obtain ⟨hc, rfl⟩ := wf_of_cellAt h
  exact ⟨hc, rfl, cellOffset_mod_four c, cellOffset_lt hc⟩

theorem accessedCell_cellOffset {b : Build} {c : Cell} (hc : c.wf b = true) : accessedCell b (cellOffset c) 4 = some c :=
  (accessedCell_eq_some b _ 4 c).2 ⟨rfl, cellOffset_mod_four c, cellAt_cellOffset hc⟩

/-! ### Reads (20_memory.md R41, R47) -/

theorem portRead_okay {s : State} {addr size : Nat} {c : Cell} {d : Word} (hc : accessedCell s.build addr size = some c)
    (hd : readCell s c = some d) : portRead s addr size = .ofRead .okay d := by
  rw [portRead, hc, Option.bind_some, hd]

theorem portRead_slverr {s : State} {addr size : Nat}
    (h : ∀ c, accessedCell s.build addr size = some c → ¬ hostReads c) : portRead s addr size = .ofRead .slverr 0 := by
  have hnone : (accessedCell s.build addr size).bind (readCell s) = none := by
    rw [Option.bind_eq_none_iff]
    intro c hc
    rw [← Option.not_isSome_iff_eq_none, readCell_isSome_iff]
    exact h c hc
  rw [portRead, hnone]

theorem portRead_cellOffset {s : State} {c : Cell} {d : Word} (hc : c.wf s.build = true) (hd : readCell s c = some d) :
    portRead s (cellOffset c) 4 = .ofRead .okay d :=
  portRead_okay (accessedCell_cellOffset hc) hd

theorem portRead_cmd (s : State) : portRead s (cellOffset .cmd) 4 = .ofRead .slverr 0 := by
  rw [portRead, accessedCell_cmd, Option.bind_some, readCell]

/-- Settles O9: each offset of the table is its cell's, and the cell is one of the instance. -/
theorem cellsReadAtTheirOffsets : Obligations.CellsReadAtTheirOffsets := fun s =>
  ⟨portRead_cmd s, portRead_cellOffset (c := .status) rfl rfl, portRead_cellOffset (c := .rank) rfl rfl,
    portRead_cellOffset (c := .err) rfl rfl, portRead_cellOffset (c := .esticky) rfl rfl,
    portRead_cellOffset (c := .einfo0) rfl rfl, portRead_cellOffset (c := .einfo1) rfl rfl,
    portRead_cellOffset (c := .result) rfl rfl, portRead_cellOffset (c := .arg0) rfl rfl,
    portRead_cellOffset (c := .arg1) rfl rfl, portRead_cellOffset (c := .arg2) rfl rfl,
    portRead_cellOffset (c := .kreg) rfl rfl, portRead_cellOffset (c := .lreg) rfl rfl,
    portRead_cellOffset (c := .treg) rfl rfl,
    fun w hw => portRead_cellOffset (c := .rowbuf w) ((rowbuf_wf_iff _ w).2 hw) rfl,
    fun w hw => portRead_cellOffset (c := .recmap w) ((recmap_wf_iff _ w).2 hw) rfl,
    fun w hw => portRead_cellOffset (c := .din w) ((din_wf_iff _ w).2 hw) rfl,
    fun w hw => portRead_cellOffset (c := .dout w) ((dout_wf_iff _ w).2 hw) rfl⟩

/-- A cell shows the block, and not the host's side of the port (logs 5, 6). -/
theorem readCell_host_side (s : State) (p : List HostEvent) (r : Option Response) (c : Cell) :
    readCell { s with pending := p, response := r } c = readCell s c := by
  cases c <;> rfl

theorem step_memRead {s : State} {addr size : Nat} {rest : List HostEvent} (h : s.pending = .memRead addr size :: rest) :
    step s = .next { s with pending := rest, response := some (portRead s addr size) } := by
  rw [step, State.nextEvent, h]
  rfl

/-- Settles O7: a read's answer depends on nothing that the read changes. -/
theorem readAnswersAndChangesNothing : Obligations.ReadAnswersAndChangesNothing := by
  intro s addr size rest h
  refine ⟨portRead s addr size, step_memRead h, rfl, ?_⟩
  rw [portRead, portRead, funext (readCell_host_side s rest _)]

/-! ### Writes (20_memory.md R41, R46, R47) -/

/-- What a step on a write can come to: refused, stored, or run as a command. -/
theorem step_memWrite {s : State} {addr size : Nat} {v : Word} {rest : List HostEvent}
    (h : s.pending = .memWrite addr size v :: rest) : ∃ t, step s = .next t ∧
      (((accessedCell s.build addr size).bind (storeCell s v) = none ∧ accessedCell s.build addr size ≠ some .cmd ∧
        t = { s with pending := rest, response := some (.ofWrite .slverr) }) ∨
      (∃ c u, accessedCell s.build addr size = some c ∧ storeCell s v c = some u ∧
        t = { u with pending := rest, response := some (.ofWrite .okay) }) ∨
      (accessedCell s.build addr size = some .cmd ∧
        ((∃ i, decode v = .ok i ∧ exec i { s with pending := rest, response := some (.ofWrite .okay) } = .next t) ∨
          (∃ e, decode v = .error e) ∧
            t = State.rejected { s with pending := rest, response := some (.ofWrite .okay) } 4))) := by
  obtain ⟨t, ht⟩ := step_next s
  refine ⟨t, ht, ?_⟩
  obtain ⟨hp, -⟩ | ⟨_, _, _, hp, -⟩ | ⟨_, _, _, _, hp, hnone, hcmd, ht⟩ | ⟨_, _, _, _, c, u, hp, hc, hu, ht⟩ |
    ⟨_, hp, -⟩ | ⟨_, _, _, _, hp, hcmd⟩ := step_inversion ht <;> cases h.symm.trans hp
  · exact .inl ⟨hnone, hcmd, ht⟩
  · exact .inr (.inl ⟨c, u, hc, hu, ht⟩)
  · exact .inr (.inr hcmd)

/-- Settles O4: of the ways a write can end, only a command is left. -/
theorem stepRunsDecodedCommand : Obligations.StepRunsDecodedCommand := by
  intro s w rest i h hd
  have hcmd : accessedCell s.build 0x0000 4 = some .cmd := accessedCell_cmd s.build
  obtain ⟨t, ht, ⟨-, hno, -⟩ | ⟨c, u, hc, hu, -⟩ | ⟨-, ⟨j, hj, he⟩ | ⟨⟨e, he⟩, -⟩⟩⟩ := step_memWrite h
  · exact absurd hcmd hno
  · cases hcmd.symm.trans hc
    cases hu
  · cases hd.symm.trans hj
    rw [ht, he]
  · cases hd.symm.trans he

/-- A command leaves the host's side of the port as it is (logs 5, 6). -/
theorem exec_host_side {i : Instr} {s t : State} (h : exec i s = .next t) :
    t.pending = s.pending ∧ t.response = s.response := by
  obtain ⟨-, -, -, -, -, -, -, -, -, -, -, -, -, -, -, -, -, -, hp, hr⟩ := writersOfState i s t h
  exact ⟨hp, hr⟩

/-- Settles O10: a transaction is legal exactly when the port reaches a cell and the cell answers it. -/
theorem portAnswersTransactions : Obligations.PortAnswersTransactions := by
  intro s addr size v rest
  refine ⟨fun h => ⟨?_, fun hill => ?_⟩, fun h => ?_⟩
  · rintro ⟨hsize, halign, c, hc, hread⟩
    obtain ⟨d, hd⟩ := Option.isSome_iff_exists.1 ((readCell_isSome_iff s c).2 hread)
    refine ⟨d, ?_⟩
    rw [step_memRead h, portRead_okay ((accessedCell_eq_some _ _ _ c).2 ⟨hsize, halign, hc⟩) hd]
  · rw [step_memRead h, portRead_slverr]
    intro c hc hread
    obtain ⟨hsize, halign, hc⟩ := (accessedCell_eq_some _ _ _ c).1 hc
    exact hill ⟨hsize, halign, c, hc, hread⟩
  · obtain ⟨t, ht, hend⟩ := step_memWrite h
    refine ⟨?_, fun hill => ?_⟩
    · rintro ⟨hsize, halign, c, hc, hwrite⟩
      have hacc := (accessedCell_eq_some _ _ _ c).2 ⟨hsize, halign, hc⟩
      refine ⟨t, ht, ?_⟩
      obtain ⟨hnone, hcmd, -⟩ | ⟨d, u, -, -, rfl⟩ | ⟨-, ⟨i, -, he⟩ | ⟨-, rfl⟩⟩ := hend
      · have hstore := (storeCell_isSome_iff s v c).2 ⟨hwrite, fun hc => hcmd (hc ▸ hacc)⟩
        rw [hacc, Option.bind_some] at hnone
        simp [hnone] at hstore
      · exact ⟨rfl, rfl⟩
      · exact exec_host_side he
      · exact ⟨rfl, rfl⟩
    · have hno : ∀ c, accessedCell s.build addr size = some c → ¬ hostWrites c := by
        intro c hc hwrite
        obtain ⟨hsize, halign, hc⟩ := (accessedCell_eq_some _ _ _ c).1 hc
        exact hill ⟨hsize, halign, c, hc, hwrite⟩
      obtain ⟨-, -, rfl⟩ | ⟨c, u, hc, hu, -⟩ | ⟨hcmd, -⟩ := hend
      · exact ht
      · exact absurd ((storeCell_isSome_iff s v c).1 (Option.isSome_of_eq_some hu)).1 (hno c hc)
      · exact absurd (.inl rfl) (hno .cmd hcmd)

/-- A write to a cell that stores it is that store, answered `OKAY`. -/
theorem step_store {s u : State} {c : Cell} {v : Word} {rest : List HostEvent} (hc : c.wf s.build = true)
    (hu : storeCell s v c = some u) (h : s.pending = .memWrite (cellOffset c) 4 v :: rest) :
    step s = .next { u with pending := rest, response := some (.ofWrite .okay) } := by
  have hacc := accessedCell_cellOffset hc
  obtain ⟨t, ht, ⟨hnone, -⟩ | ⟨d, u', hd, hu', rfl⟩ | ⟨hcmd, -⟩⟩ := step_memWrite h
  · rw [hacc, Option.bind_some, hu] at hnone
    cases hnone
  · cases hacc.symm.trans hd
    cases hu.symm.trans hu'
    exact ht
  · cases hacc.symm.trans hcmd
    cases hu

/-- Settles O11: the cell is one that stores, and a store is read back and leaves the rest. -/
theorem writesStoreTheWord : Obligations.WritesStoreTheWord := by
  intro s c v rest hc hwrite hcmd h
  obtain ⟨u, hu⟩ := Option.isSome_iff_exists.1 ((storeCell_isSome_iff s v c).2 ⟨hwrite, hcmd⟩)
  have hread (d : Cell) : readCell { u with pending := rest, response := some (.ofWrite .okay) } d =
      if d = c then some v else readCell s d := by
    rw [readCell_host_side, readCell_storeCell hc hu]
  refine ⟨_, step_store hc hu h, portRead_cellOffset ?_ ?_, fun d hd => ?_, ?_⟩
  · rwa [storeCell_build hu]
  · rw [hread, if_pos rfl]
  · rw [hread, if_neg hd]
  · rw [storeCell_frame hu]

/-! ### Bytes and columns (20_memory.md R43, R44, R48, R49) -/

/-- The byte `DOUT` shows at a position (20_memory.md R49). -/
def State.doutByte (s : State) (i : Nat) : Byte :=
  if i < s.t ∧ s.phase ≠ .unconfigured then Symbol.byte s.acc i else 0

theorem byteOfWord_doutWord (s : State) (w : Nat) {i : Nat} (hi : i < 4) :
    byteOfWord (s.doutWord w) i = s.doutByte (4 * w + i) :=
  byteOfWord_wordOfBytes (fun k => s.doutByte (4 * w + k)) i hi

/-- Settles O13: byte `i` of word `w` is the byte at position `4w + i`. -/
theorem doutWindowShowsAcc : Obligations.DoutWindowShowsAcc := by
  intro s w i hi
  exact (byteOfWord_doutWord s w hi).trans (if_congr and_comm rfl rfl)

/-- Settles O14: a symbol has the bytes it is made of, and `DIN` is taken up to `T` of them. -/
theorem dinSymbolTakesTBytes : Obligations.DinSymbolTakesTBytes := fun s i hi =>
  byte_symbolOfBytes s.dinByte s.t i (hi.trans_le s.build.symMax_le)

/-- Bit `j` of word `w` of `RECMAP` is the flag of column `32w + j`. -/
theorem getLsbD_recWord (s : State) (w j : Nat) (hj : j < 32) : (s.recWord w).getLsbD j = s.recFlags.getLsbD (32 * w + j) := by
  rw [State.recWord, BitVec.getLsbD_extractLsb', decide_eq_true hj, Bool.true_and]

/-- Settles O15: `ROWBUF` is read word by word into a row, and `RECMAP` is cut out of one. -/
theorem rowBitsLittleEndian : Obligations.RowBitsLittleEndian := by
  intro s c hc
  constructor
  · rw [getLsbD_rowbufRow, decide_eq_true hc, Bool.true_and]
  · rw [getLsbD_recWord s _ _ (Nat.mod_lt c (by decide)), Nat.div_add_mod]

end Sys2Proof.Machine
end

section
/-! SUPPORT. The encoding of commands (30_encoding.md R56 to R64): what the decoder makes of a word's two fields, what an
illegal word does, and what the writes of `LOADSYM` and `LOADROW` leave. -/

namespace Sys2Proof

/-! ### The fields of a word and the opcode map (30_encoding.md R56, R58) -/

/-- A word with the two given fields is those fields put together. -/
theorem eq_append_iff (w : Word) (z : BitVec 24) (o : BitVec 8) : w = z ++ o ↔ zeroField w = z ∧ opcField w = o := by
  constructor
  · rintro rfl
    exact ⟨BitVec.extractLsb'_append_eq_left, BitVec.extractLsb'_append_eq_right⟩
  · rintro ⟨rfl, rfl⟩
    rw [zeroField, opcField, BitVec.extractLsb'_append_extractLsb'_eq_extractLsb' (show 8 = 0 + 8 from rfl)]
    exact BitVec.extractLsb'_eq_self.symm

theorem zeroField_eq_zero_iff (w : Word) : zeroField w = 0#24 ↔ w.toNat < 256 := by
  have hlt := w.isLt
  rw [← BitVec.toNat_inj, zeroField, BitVec.extractLsb'_toNat, Nat.shiftRight_eq_div_pow, BitVec.toNat_ofNat]
  omega

theorem toNat_opcField {w : Word} (h : w.toNat < 256) : (opcField w).toNat = w.toNat := by
  rw [opcField, BitVec.extractLsb'_toNat, Nat.shiftRight_zero, Nat.mod_eq_of_lt h]

/-- The map gives a command exactly for its own opcode. -/
theorem lookupOpcode_eq_some (o : BitVec 8) (i : Instr) : lookupOpcode o = some i ↔ o = i.opcode := by
  constructor
  · intro h
    have hown : ∀ p ∈ opcodeMap, p.1 = p.2.opcode := by decide
    obtain ⟨p, hp, rfl⟩ := Option.map_eq_some_iff.1 h
    have heq : (p.1 == o) = true := List.find?_some (p := fun p : BitVec 8 × Instr => p.1 == o) hp
    rw [← hown p (List.mem_of_find?_eq_some hp), beq_iff_eq.1 heq]
  · rintro rfl
    cases i <;> rfl

/-- The map gives nothing exactly for a number that is none of the 14 opcodes. -/
theorem lookupOpcode_eq_none (o : BitVec 8) : lookupOpcode o = none ↔
    o.toNat ∉ [0x00, 0x01, 0x02, 0x03, 0x04, 0x10, 0x20, 0x21, 0x22, 0x23, 0x24, 0x30, 0x31, 0x32] := by
  have hmem : o.toNat ∈ (opcodeMap.map Prod.fst).map BitVec.toNat ↔ o ∈ opcodeMap.map Prod.fst :=
    List.mem_map_of_injective fun _ _ => BitVec.eq_of_toNat_eq
  change _ ↔ o.toNat ∉ (opcodeMap.map Prod.fst).map BitVec.toNat
  rw [hmem, lookupOpcode, Option.map_eq_none_iff, List.find?_eq_none, List.mem_map]
  simp only [beq_iff_eq, not_exists, not_and]

/-! ### The decoder (30_encoding.md R60, R61) -/

/-- Each of the three ways to decode, by the word's two fields. -/
theorem decode_cases (w : Word) :
    (∀ i, decode w = .ok i ↔ zeroField w = 0#24 ∧ lookupOpcode (opcField w) = some i) ∧
    (decode w = .error .zeroField ↔ zeroField w ≠ 0#24) ∧
    (decode w = .error .opcode ↔ zeroField w = 0#24 ∧ lookupOpcode (opcField w) = none) := by
  rw [decode]
  by_cases hz : zeroField w = 0#24
  · cases lookupOpcode (opcField w) <;> simp [hz]
  · simp [hz]

theorem decode_eq_ok (w : Word) (i : Instr) : decode w = .ok i ↔ w = encode i := by
  rw [(decode_cases w).1, lookupOpcode_eq_some, encode, eq_append_iff]

theorem decode_encode (i : Instr) : decode (encode i) = .ok i := (decode_eq_ok _ i).2 rfl

/-- Settles O2: to decode to a command, and to be its word, both say that `ZERO` is zero and `OPC` its opcode. -/
theorem decodeAndEncodeAgree : Obligations.DecodeAndEncodeAgree := fun w i _ => decode_eq_ok w i

/-- Settles O1: each of the words is the word of its command. -/
theorem commandWordsAsTabulated : Obligations.CommandWordsAsTabulated :=
  ⟨decode_encode .nop, decode_encode .cfg, decode_encode .abort, decode_encode .endStream, decode_encode .sreset,
    decode_encode .sample, decode_encode .cmbclr, decode_encode .cmbdin, decode_encode .cmbsym, decode_encode .ldsol,
    decode_encode .encode, decode_encode .insrow, decode_encode .insesi, decode_encode .backsub⟩

/-- Settles O3: `ZERO` is zero exactly below 256, where `OPC` is the number of the word. -/
theorem decoderRejectsByName : Obligations.DecoderRejectsByName := by
  intro w
  obtain ⟨-, hzero, hopcode⟩ := decode_cases w
  constructor
  · rw [hzero, ne_eq, zeroField_eq_zero_iff, Nat.not_lt]
  · rw [hopcode, zeroField_eq_zero_iff]
    exact and_congr_right fun h => by rw [lookupOpcode_eq_none, toNat_opcField h]

/-- A word above 255, or with a number that is none of the 14 opcodes, is illegal. -/
theorem decode_error_of_illegal {w : Word} (h : 256 ≤ w.toNat ∨
    w.toNat ∉ [0x00, 0x01, 0x02, 0x03, 0x04, 0x10, 0x20, 0x21, 0x22, 0x23, 0x24, 0x30, 0x31, 0x32]) :
    ∃ e, decode w = .error e := by
  obtain ⟨hzero, hopcode⟩ := decoderRejectsByName w
  by_cases hw : 256 ≤ w.toNat
  · exact ⟨_, hzero.2 hw⟩
  · exact ⟨_, hopcode.2 ⟨Nat.lt_of_not_le hw, h.resolve_left hw⟩⟩

end Sys2Proof

namespace Sys2Proof.Machine

open Sys2Proof

/-- Settles O5: of the ways a write can end, only the report of an illegal word is left. -/
theorem stepRejectsIllegalWord : Obligations.StepRejectsIllegalWord := by
  intro s w rest h hill
  have hcmd : accessedCell s.build 0x0000 4 = some .cmd := accessedCell_cmd s.build
  obtain ⟨e, he⟩ := decode_error_of_illegal hill
  obtain ⟨t, ht, ⟨-, hno, -⟩ | ⟨c, u, hc, hu, -⟩ | ⟨-, ⟨i, hi, -⟩ | ⟨-, rfl⟩⟩⟩ := step_memWrite h
  · exact absurd hcmd hno
  · cases hcmd.symm.trans hc
    cases hu
  · cases he.symm.trans hi
  · exact ht

/-! ### A run of writes (30_encoding.md R64) -/

/-- Two buffers that hold the same words are the same. -/
theorem buffer_ext {n : Nat} {a b : Table Word n} (h : ∀ w, wordAt a w = wordAt b w) : a = b := by
  apply Subtype.ext
  apply List.ext_getElem (a.property.trans b.property.symm)
  intro w ha hb
  simpa [wordAt, ha, hb] using h w

/-- The writes of words to different cells that store: each cell then reads as its word, every other cell as before, and
nothing but the stored registers and buffers and the port's host side changes. -/
theorem run_writes {cell : Nat → Cell} (hinj : cell.Injective) (word : Nat → Word) (ws : List Nat) {s : State}
    {rest : List HostEvent} (hwf : ∀ w ∈ ws, (cell w).wf s.build = true)
    (hstore : ∀ w ∈ ws, hostWrites (cell w) ∧ cell w ≠ .cmd)
    (hp : s.pending = (ws.map fun w => writeTo (cell w) (word w)) ++ rest) :
    ∃ t : State, core.run (ws.map fun w => writeTo (cell w) (word w)).length s = .next t ∧
      (∀ w ∈ ws, readCell t (cell w) = some (word w)) ∧
      (∀ d, (∀ w ∈ ws, d ≠ cell w) → readCell t d = readCell s d) ∧
      t = { s with arg0 := t.arg0, arg1 := t.arg1, arg2 := t.arg2, rowbuf := t.rowbuf, din := t.din, pending := rest,
                   response := t.response } := by
  induction ws generalizing s with
  | nil =>
    obtain rfl : s.pending = rest := hp
    exact ⟨s, rfl, fun _ h => absurd h List.not_mem_nil, fun _ _ => rfl, rfl⟩
  | cons w ws ih =>
    rw [List.forall_mem_cons] at hwf hstore
    obtain ⟨u, hu⟩ := Option.isSome_iff_exists.1 ((storeCell_isSome_iff s (word w) (cell w)).2 hstore.1)
    have hstep := step_store hwf.1 hu hp
    have hread (p : List HostEvent) (r : Option Response) (d : Cell) :
        readCell { u with pending := p, response := r } d = if d = cell w then some (word w) else readCell s d := by
      rw [readCell_host_side, readCell_storeCell hwf.1 hu]
    obtain ⟨t, ht, hwritten, hkept, hframe⟩ :=
      ih (s := { u with pending := _, response := some (.ofWrite .okay) })
        (by simpa only [storeCell_build hu] using hwf.2) hstore.2 rfl
    refine ⟨t, (core_run_succ core _ hstep).trans ht, fun v hv => ?_, fun d hd => ?_, ?_⟩
    · by_cases hvs : v ∈ ws
      · exact hwritten v hvs
      · obtain rfl := (List.mem_cons.1 hv).resolve_right hvs
        rw [hkept (cell v) fun v' hv' he => hvs (hinj he ▸ hv'), hread, if_pos rfl]
    · rw [List.forall_mem_cons] at hd
      rw [hkept d hd.2, hread, if_neg hd.1]
    · rw [storeCell_frame hu] at hframe
      exact hframe

/-- The word that `LOADSYM` makes for a byte holds that byte. -/
theorem byteOfWord_loadSymbol (bytes : List Byte) (i : Nat) :
    byteOfWord (wordOfBytes (bytes.getD (4 * (i / 4)) 0) (bytes.getD (4 * (i / 4) + 1) 0) (bytes.getD (4 * (i / 4) + 2) 0)
      (bytes.getD (4 * (i / 4) + 3) 0)) (i % 4) = bytes.getD i 0 := by
  have h := byteOfWord_wordOfBytes (fun k => bytes.getD (4 * (i / 4) + k) 0) (i % 4) (Nat.mod_lt i (by decide))
  rwa [Nat.div_add_mod] at h

/-- Settles O59: the writes are those of the words of `DIN` that the bytes take up, and no other cell's. -/
theorem loadsymFillsDin : Obligations.LoadsymFillsDin := by
  intro s bytes rest hlen hp
  have hwf : ∀ w ∈ List.range ((bytes.length + 3) / 4), Cell.wf s.build (.din w) = true := by
    intro w hw
    have := s.build.symWords_mul
    rw [List.mem_range] at hw
    exact (din_wf_iff _ w).2 (by omega)
  obtain ⟨t, ht, hwritten, hkept, hframe⟩ := run_writes (cell := .din) (fun _ _ => Cell.din.inj) _ _ hwf
    (fun w _ => ⟨by simp [hostWrites], by simp⟩) hp
  have hbyte : ∀ i, i < 4 * ((bytes.length + 3) / 4) → t.dinByte i = bytes.getD i 0 := by
    intro i hi
    rw [State.dinByte, Option.some.inj (hwritten (i / 4) (List.mem_range.2 (by omega)))]
    exact byteOfWord_loadSymbol bytes i
  refine ⟨t, ht, fun i hi => hbyte i (by omega), fun i hge hi => ?_, fun w hw => ?_, hframe.trans ?_⟩
  · rw [hbyte i hi, List.getD_eq_default _ _ hge]
  · refine Option.some.inj (hkept (.din w) fun v hv he => ?_)
    cases he
    exact absurd (List.mem_range.1 hv) (Nat.not_lt.2 hw)
  · have hrowbuf : t.rowbuf = s.rowbuf := buffer_ext fun w => Option.some.inj (hkept (.rowbuf w) (by simp))
    rw [Option.some.inj (hkept .arg0 (by simp)), Option.some.inj (hkept .arg1 (by simp)),
      Option.some.inj (hkept .arg2 (by simp)), hrowbuf]

theorem getLsbD_rowWord_foldl (columns : List Nat) (w : Nat) (v : Word) {j : Nat} (hj : j < 32) :
    (columns.foldl (fun v c => if c / 32 = w then v ||| BitVec.twoPow 32 (c % 32) else v) v).getLsbD j =
      (v.getLsbD j || decide (32 * w + j ∈ columns)) := by
  induction columns generalizing v with
  | nil => simp
  | cons c cs ih =>
    rw [List.foldl_cons, ih]
    by_cases hc : 32 * w + j = c
    · have hw : c / 32 = w := by omega
      have hm : c % 32 = j := by omega
      simp [hc, hw, hm, hj]
    · by_cases hw : c / 32 = w
      · have hm : c % 32 ≠ j := by omega
        simp [hc, hw, hm]
      · simp [hc, hw]

theorem getLsbD_rowWord (columns : List Nat) (w : Nat) {j : Nat} (hj : j < 32) :
    (rowWord columns w).getLsbD j = decide (32 * w + j ∈ columns) := by
  simp [rowWord, getLsbD_rowWord_foldl columns w _ hj]

/-- Settles O60: the writes are those of all words of `ROWBUF`, so that each column is a bit that was written. -/
theorem loadrowFillsRowbuf : Obligations.LoadrowFillsRowbuf := by
  intro s columns rest hcolumns hp
  obtain ⟨t, ht, hwritten, hkept, hframe⟩ := run_writes (cell := .rowbuf) (fun _ _ => Cell.rowbuf.inj) _ _
    (fun w hw => (rowbuf_wf_iff s.build w).2 (List.mem_range.1 hw)) (fun w _ => ⟨by simp [hostWrites], by simp⟩) hp
  refine ⟨t, ht, fun c => ?_, fun w hw => ?_, hframe.trans ?_⟩
  · have hbuild : t.build = s.build := by rw [hframe]
    rw [getLsbD_rowbufRow, hbuild]
    by_cases hc : c < s.build.lMax
    · have hw : c / 32 < s.build.rowWords := by
        have := s.build.rowWords_mul
        omega
      rw [decide_eq_true hc, Bool.true_and, Option.some.inj (hwritten (c / 32) (List.mem_range.2 hw)),
        getLsbD_rowWord _ _ (Nat.mod_lt c (by decide)), Nat.div_add_mod]
    · rw [decide_eq_false hc, Bool.false_and, decide_eq_false fun h => hc (hcolumns c h)]
  · refine Option.some.inj (hkept (.rowbuf w) fun v hv he => ?_)
    cases he
    exact absurd (List.mem_range.1 hv) (Nat.not_lt.2 hw)
  · have hdin : t.din = s.din := buffer_ext fun w => Option.some.inj (hkept (.din w) (by simp))
    rw [Option.some.inj (hkept .arg0 (by simp)), Option.some.inj (hkept .arg1 (by simp)),
      Option.some.inj (hkept .arg2 (by simp)), hdin]

end Sys2Proof.Machine
end

section
/-! SUPPORT. The control commands and the admission table (40_control.md R67 to R74): what each cell of the table comes to,
`NOP`, `CFG`, `ABORT` and `END` as equations between whole states, and the `STATE` every command leaves. -/

namespace Sys2Proof.Machine

open Sys2Proof

/-! ### The admission table (40_control.md R68) -/

/-- Which states ignore a command (40_control.md R68). -/
theorem admission_eq_ignored_iff (i : Instr) (p : Phase) : admission i p = .ignored ↔
    match i with
    | .abort => p = .unconfigured ∨ p = .recovered ∨ p = .aborted
    | .endStream | .insrow | .insesi => p = .solvable ∨ p = .recovered ∨ p = .aborted
    | .backsub => p = .recovered
    | .nop | .cfg | .sreset | .sample | .cmbclr | .cmbdin | .cmbsym | .ldsol | .encode => False := by
  cases i <;> cases p <;> simp [admission]

/-- An admitted command with invalid operands only reports them. -/
theorem exec_invalid {i : Instr} {s : State} {p : Phase} (hp : s.phase = p) (ha : admission i p ≠ .illegal)
    (ho : operandsInvalid i s) : exec i s = .next (s.rejected 1) :=
  (exec_admitted hp ha).trans (congrArg _ (rule_invalid ho))

/-- The rows of the table as written out are those of the frame of a command, state by state. -/
theorem admissionTable_rows : ∀ r ∈ admissionTable, r.2 = admissionColumns.map (admission r.1) := by decide

theorem admission_of_cell {i : Instr} {cells : List Admission} {col : Nat} {p : Phase} {a : Admission}
    (hrow : (i, cells) ∈ admissionTable) (hcol : admissionColumns[col]? = some p) (ha : cells[col]? = some a) :
    admission i p = a := by
  have hcells : cells = admissionColumns.map (admission i) := admissionTable_rows _ hrow
  rw [hcells, List.getElem?_map, hcol] at ha
  exact Option.some.inj ha

/-- The states other than U and C. -/
theorem solved_or_aborted {p : Phase} (hu : p ≠ .unconfigured) (hc : p ≠ .collecting) :
    p = .solvable ∨ p = .recovered ∨ p = .aborted := by
  cases p <;> simp_all

/-- An admitted command with valid operands is ignored exactly in an `I` cell, where it returns `RANK`, but for `ABORT`. -/
theorem ignored_of_endsIn {i : Instr} {s t : State} (ha : admission i s.phase ≠ .illegal) (h : endsIn i s t) :
    (admission i s.phase = .ignored ∧
      t = { s.completed (if i = .abort then 0 else s.rank.setWidth 32) with ignored := true }) ∨
    (admission i s.phase ≠ .ignored ∧ t.ignored = false) := by
  rw [admission_ne_illegal_iff] at ha
  rw [ne_eq, admission_eq_ignored_iff]
  cases i with
  | nop | cfg | sreset | sample | cmbclr | cmbdin | cmbsym | ldsol => cases h; exact .inr ⟨id, rfl⟩
  | encode =>
    obtain ⟨a, d, rfl, -⟩ := h
    exact .inr ⟨id, rfl⟩
  | abort =>
    obtain ⟨hp, rfl⟩ | ⟨hp, rfl⟩ := h
    · exact .inr ⟨by rcases hp with hp | hp <;> simp [hp], rfl⟩
    · exact .inl ⟨hp, rfl⟩
  | endStream =>
    obtain ⟨hp, rfl⟩ | ⟨hp, rfl⟩ := h
    · exact .inr ⟨by simp [hp], rfl⟩
    · exact .inl ⟨solved_or_aborted ha hp, rfl⟩
  | insrow =>
    obtain ⟨hp, rfl⟩ | ⟨hp, rfl⟩ := h
    · exact .inl ⟨solved_or_aborted ha hp, rfl⟩
    · obtain ⟨a, p, k, ph, hw, -⟩ := insrow_writes s.prologue ⟨s.rowbufRow, s.dinSymbol⟩
      exact .inr ⟨by simp [hp], by rw [hw]; rfl⟩
  | insesi =>
    obtain ⟨hp, rfl⟩ | ⟨hp, -, rfl⟩ | ⟨hp, -, b, -, rfl⟩ := h
    · exact .inl ⟨solved_or_aborted ha hp, rfl⟩
    · exact .inr ⟨by simp [hp], rfl⟩
    · obtain ⟨a, p, k, ph, f, hw, -⟩ := insesi_writes (s.prologue.markSeen s.x0) ⟨b, s.dinSymbol⟩
      exact .inr ⟨by simp [hp], by rw [hw]; rfl⟩
  | backsub =>
    obtain ⟨hp, rfl⟩ | ⟨hp, rfl⟩ := h
    · exact .inr ⟨by simp [hp], rfl⟩
    · exact .inl ⟨hp, rfl⟩

/-- Settles O23: an `X` cell by the frame of a command, an `I` and an `E` cell by the ways an admitted command can end. -/
theorem admissionTableHolds : Obligations.AdmissionTableHolds := by
  intro i cells col s a hrow hcol hcell
  obtain rfl := admission_of_cell hrow hcol hcell
  obtain ⟨t, ht⟩ := exec_next i s
  obtain ⟨ha, -⟩ | ⟨ha, ho, -⟩ | ⟨ha, -, he⟩ := exec_inversion ht
  · rw [ha]
    exact exec_illegal rfl ha
  · have hrejected := exec_invalid rfl ha ho
    cases hadm : admission i s.phase with
    | illegal => exact absurd hadm ha
    | ignored => exact .inl hrejected
    | executes => exact ⟨_, hrejected, rfl, by simp⟩
  · obtain ⟨hadm, rfl⟩ | ⟨hadm, hignored⟩ := ignored_of_endsIn ha he
    · rw [hadm]
      exact .inr ht
    · have herr : t.err ≠ 4 := by obtain herr | rfl := err_of_endsIn he <;> simp [*]
      cases hc : admission i s.phase with
      | illegal => exact absurd hc ha
      | ignored => exact absurd hc hadm
      | executes => exact ⟨t, ht, hignored, herr⟩

/-! ### NOP, CFG, ABORT and END (40_control.md R69 to R72) -/

/-- Settles O28: every state admits `NOP`, whose rule adds nothing to the prologue. -/
theorem nopClearsReport : Obligations.NopClearsReport :=
  ⟨rfl, fun s => exec_admitted rfl ((admission_ne_illegal_iff .nop s.phase).2 trivial)⟩

/-- Settles O29: rejected by the frame in C and S; elsewhere rejected or, the ranges below the widths of the registers,
configured with the operands' full values. -/
theorem cfgStartsTransfer : Obligations.CfgStartsTransfer := by
  refine ⟨rfl, fun s => ⟨?_, fun hp => ?_⟩⟩
  · rintro (hp | hp) <;> exact exec_illegal hp rfl
  · have ha := (admission_ne_illegal_iff .cfg s.phase).2 hp
    refine ⟨exec_invalid rfl ha, fun hlegal => ?_⟩
    have ⟨_, hk, _, hl, _, ht⟩ := hlegal
    obtain ⟨hkreg, hlreg, htreg⟩ := configure_parameters (p := s.prologue) hk hl ht
    exact ⟨s.prologue.configure, (exec_admitted rfl ha).trans (congrArg _ (cfgRule_accepts (p := s.prologue) hlegal)),
      hkreg, hlreg, htreg, rfl, pivotAt_noPivots⟩

/-- Settles O30: every state admits `ABORT`, and its two branches are those of the statement. -/
theorem abortReleasesSystem : Obligations.AbortReleasesSystem := by
  refine ⟨rfl, fun s => ?_⟩
  have hexec : exec .abort s = .next (abortRule s.prologue) :=
    exec_admitted rfl ((admission_ne_illegal_iff .abort s.phase).2 trivial)
  exact ⟨fun hp => hexec.trans (congrArg _ (abortRule_releases (p := s.prologue) hp)),
    fun hp => hexec.trans (congrArg _ (abortRule_ignored (p := s.prologue) hp))⟩

/-- Settles O31: every state but U admits `END`, whose rule raises in C and is ignored elsewhere. -/
theorem endReportsInsufficientSymbols : Obligations.EndReportsInsufficientSymbols := by
  refine ⟨rfl, fun s => ⟨fun hp => ?_, fun hp => ?_, fun hp => exec_illegal hp rfl⟩⟩
  · calc exec .endStream s = .next (endRule s.prologue) := exec_admitted hp nofun
      _ = .next (s.prologue.raise .insufficientSymbols) := congrArg _ (endRule_collecting (p := s.prologue) hp)
      _ = _ := congrArg _ (raise_insufficientSymbols s)
  · have hne : s.phase ≠ .unconfigured ∧ s.phase ≠ .collecting := by rcases hp with hp | hp | hp <;> simp [hp]
    calc exec .endStream s = .next (endRule s.prologue) :=
          exec_admitted rfl ((admission_ne_illegal_iff .endStream s.phase).2 hne.1)
      _ = .next s.prologue.setIgnored.resultRank := congrArg _ (endRule_ignored (p := s.prologue) hne.2)

/-! ### The transitions of STATE (40_control.md R74) -/

/-- The row of `CFG` where it is admitted. -/
theorem cfg_phase {s t : State} (hp : s.phase = .unconfigured ∨ s.phase = .recovered ∨ s.phase = .aborted)
    (h : exec .cfg s = .next t) :
    t.phase = if 4 ≤ s.x0 ∧ s.x0 ≤ 256 ∧ s.x0 < s.x1 ∧ s.x1 ≤ s.build.lMax ∧ 1 ≤ s.x2 ∧ s.x2 ≤ s.build.symMax
      then .collecting else s.phase := by
  obtain ⟨hrejected, hconfigured⟩ := (cfgStartsTransfer.2 s).2 hp
  split
  · next hlegal =>
    obtain ⟨u, hu, -, -, -, hfields, -⟩ := hconfigured hlegal
    rw [hu] at h
    cases h
    rw [hfields]
  · rw [hrejected (by omega)] at h
    cases h
    rfl

/-- In C `RANK` is below `L`, so a command that leaves the three as they were stays in C. -/
theorem State.Inv.phase_of_rank_kept {s t : State} (h : s.Inv) (hp : s.phase = .collecting) (full : Phase)
    (hphase : t.phase = s.phase) (hrank : t.rank = s.rank) (hlreg : t.lreg = s.lreg) :
    t.phase = if t.rank = t.lreg then full else .collecting := by
  have hlt := h.rank_lt hp
  rw [hphase, hrank, hlreg, hp, if_neg fun hfull => hlt.ne ((rank_eq_lreg_iff s).1 hfull)]

theorem solvableAtFullRank_phase {s : State} (hp : s.phase = .collecting) :
    s.solvableAtFullRank.phase =
      if s.solvableAtFullRank.rank = s.solvableAtFullRank.lreg then .solvable else .collecting := by
  by_cases hr : s.rank = s.lreg
  · rw [solvableAtFullRank_full hr]
    exact (if_pos hr).symm
  · rw [solvableAtFullRank_short hr, if_neg hr, hp]

theorem recoverAtFullRank_phase {s : State} (hp : s.phase = .collecting) :
    s.recoverAtFullRank.phase =
      if s.recoverAtFullRank.rank = s.recoverAtFullRank.lreg then .recovered else .collecting := by
  by_cases hr : s.rank = s.lreg
  · rw [recoverAtFullRank_full hr]
    exact (if_pos hr).symm
  · rw [recoverAtFullRank_short hr, if_neg hr, hp]

/-- The row of `INSROW`. -/
theorem insrow_phase {s t : State} (h : s.Inv) (hp : s.phase = .collecting) (he : exec .insrow s = .next t) :
    t.phase = if t.rank = t.lreg then .solvable else .collecting := by
  obtain ⟨-, rfl⟩ | ⟨-, -, rfl⟩ | ⟨-, -, ⟨hc, -⟩ | ⟨-, rfl⟩⟩ := exec_inversion he
  · exact h.phase_of_rank_kept hp _ rfl rfl rfl
  · exact h.phase_of_rank_kept hp _ rfl rfl rfl
  · exact absurd hp hc
  · exact solvableAtFullRank_phase ((State.tryInsert_phase _ _).trans hp)

/-- The row of `INSESI`. -/
theorem insesi_phase {s t : State} (h : s.Inv) (hp : s.phase = .collecting) (he : exec .insesi s = .next t) :
    t.phase = if t.rank = t.lreg then .recovered else .collecting := by
  obtain ⟨-, rfl⟩ | ⟨-, -, rfl⟩ | ⟨-, -, ⟨hc, -⟩ | ⟨-, -, rfl⟩ | ⟨-, -, b, -, rfl⟩⟩ := exec_inversion he
  · exact h.phase_of_rank_kept hp _ rfl rfl rfl
  · exact h.phase_of_rank_kept hp _ rfl rfl rfl
  · exact absurd hp hc
  · exact h.phase_of_rank_kept hp _ rfl rfl rfl
  · exact recoverAtFullRank_phase ((State.tryInsert_phase _ _).trans hp)

/-- The row of `BACKSUB`. -/
theorem backsub_phase {s t : State} (hp : s.phase = .solvable) (he : exec .backsub s = .next t) : t.phase = .recovered := by
  have hexec : exec .backsub s = .next (backsubRule s.prologue) := exec_admitted hp nofun
  rw [hexec, backsubRule_solvable (p := s.prologue) hp] at he
  cases he
  rfl

/-- The row of `ABORT`. -/
theorem abort_phase {s t : State} (hp : s.phase = .collecting ∨ s.phase = .solvable) (he : exec .abort s = .next t) :
    t.phase = .aborted := by
  rw [(abortReleasesSystem.2 s).1 hp] at he
  cases he
  rfl

/-- A command and a state that the table does not list leave `STATE`. -/
theorem phase_of_unlisted {i : Instr} {s t : State} (he : exec i s = .next t) (hsreset : i ≠ .sreset)
    (hcfg : i = .cfg → ¬ (s.phase = .unconfigured ∨ s.phase = .recovered ∨ s.phase = .aborted))
    (habort : i = .abort → ¬ (s.phase = .collecting ∨ s.phase = .solvable))
    (hinsrow : i = .insrow → s.phase ≠ .collecting) (hinsesi : i = .insesi → s.phase ≠ .collecting)
    (hbacksub : i = .backsub → s.phase ≠ .solvable) : t.phase = s.phase := by
  obtain ⟨-, rfl⟩ | ⟨-, -, rfl⟩ | ⟨ha, -, hends⟩ := exec_inversion he
  · rfl
  · rfl
  · cases i with
    | nop | endStream | sample | cmbclr | cmbdin | cmbsym | ldsol | encode => exact (writersOfState _ s t he).1 (by decide)
    | sreset => exact absurd rfl hsreset
    | cfg => exact absurd ((admission_ne_illegal_iff .cfg s.phase).1 ha) (hcfg rfl)
    | abort =>
      obtain ⟨hp, -⟩ | ⟨-, rfl⟩ := hends
      · exact absurd hp (habort rfl)
      · rfl
    | insrow =>
      obtain ⟨-, rfl⟩ | ⟨hp, -⟩ := hends
      · rfl
      · exact absurd hp (hinsrow rfl)
    | insesi =>
      obtain ⟨-, rfl⟩ | ⟨hp, -⟩ | ⟨hp, -⟩ := hends
      · rfl
      · exact absurd hp (hinsesi rfl)
      · exact absurd hp (hinsesi rfl)
    | backsub =>
      obtain ⟨hp, -⟩ | ⟨-, rfl⟩ := hends
      · exact absurd hp (hbacksub rfl)
      · rfl

/-- Settles O20: row by row of the table, then what it does not list, then the reset event. -/
theorem stateTransitionRelation : Obligations.StateTransitionRelation := by
  refine ⟨fun i s t h he => ?_, fun s t rest hp hstep => ?_⟩
  · split
    · next hp => exact cfg_phase (.inl hp) he
    · next hp => exact cfg_phase (.inr (.inl hp)) he
    · next hp => exact cfg_phase (.inr (.inr hp)) he
    · next hp => exact insrow_phase h hp he
    · next hp => exact insesi_phase h hp he
    · next hp => exact backsub_phase hp he
    · next hp => exact abort_phase (.inl hp) he
    · next hp => exact abort_phase (.inr hp) he
    · rw [exec_sreset] at he
      cases he
      rfl
    · next hsreset hcfgU hcfgR hcfgA hinsrow hinsesi hbacksub habortC habortS =>
      exact phase_of_unlisted he hsreset (fun hi => not_or.2 ⟨hcfgU hi, not_or.2 ⟨hcfgR hi, hcfgA hi⟩⟩)
        (fun hi => not_or.2 ⟨habortC hi, habortS hi⟩) hinsrow hinsesi hbacksub
  · rw [step_hardReset hp] at hstep
    cases hstep
    rfl

end Sys2Proof.Machine
end

section
/-! SUPPORT. The degree sampler and the equation of an encoding symbol (41_sampler.md R77 to R87): which row of the degree
table a draw selects, and what `ENCODE` and `INSESI` make of an equation. -/

namespace Sys2Proof.Machine

open Sys2Proof

/-! ### SAMPLE (41_sampler.md R79 to R83) -/

theorem drawOf_lt (rv : Word) : drawOf rv < 2 ^ 20 := BitVec.isLt _

theorem drawOf_ofNat_mod (n : Nat) : drawOf (BitVec.ofNat 32 (n % 2 ^ 20)) = n % 2 ^ 20 := by
  rw [drawOf_eq, BitVec.toNat_ofNat]
  omega

/-- Where the degrees do not decrease along the table, a greater draw selects no lesser degree. -/
theorem degreeOf_mono (b : Build) {v w : Nat} (hdeg : b.degTable.Pairwise fun r q => r.degree ≤ q.degree) (hvw : v ≤ w)
    (hw : w < 2 ^ 20) : degreeOf b.degTable v ≤ degreeOf b.degTable w := by
  obtain ⟨i, r, hi, hr, hrlow, -⟩ := degTable_first_row b v (by omega)
  obtain ⟨j, q, hj, hq, hqlow, -⟩ := degTable_first_row b w hw
  rw [degreeOf_of_first _ i v r hi hr hrlow, degreeOf_of_first _ j w q hj hq hqlow]
  obtain hlt | rfl | hlt := Nat.lt_trichotomy i j
  · obtain ⟨hi', rfl⟩ := List.getElem?_eq_some_iff.1 hi
    obtain ⟨hj', rfl⟩ := List.getElem?_eq_some_iff.1 hj
    exact List.pairwise_iff_getElem.1 hdeg i j hi' hj' hlt
  · rw [Option.some.inj (hi.symm.trans hj)]
  · have := hrlow j q hlt hj
    omega

/-- The degree a draw selects is that of a row of the instance's table. -/
theorem degreeOf_eq_row (b : Build) (rv : Word) :
    ∃ r ∈ b.degTable, degreeOf b.degTable (drawOf rv) = r.degree ∧ 1 ≤ r.degree := by
  obtain ⟨j, r, hj, hr, hlow, hdeg⟩ := degTable_first_row b _ (drawOf_lt rv)
  exact ⟨r, List.mem_of_getElem? hj, degreeOf_of_first _ j _ r hj hr hlow, hdeg⟩

/-- Every state admits `SAMPLE`. -/
theorem sample_admitted (s : State) : admission .sample s.phase ≠ .illegal :=
  (admission_ne_illegal_iff .sample s.phase).2 trivial

/-- Settles O33: every state admits `SAMPLE`, and the row it looks up is the first whose breakpoint lies above the draw. -/
theorem sampleLooksUpDegree : Obligations.SampleLooksUpDegree := by
  refine ⟨rfl, fun s => ⟨exec_invalid rfl (sample_admitted s), fun hk => ?_⟩⟩
  have hdraw : drawOf s.arg1 = s.x1 % 2 ^ 20 := drawOf_eq s.arg1
  obtain ⟨j, r, hj, hr, hlow, -⟩ := degTable_first_row s.build _ (drawOf_lt s.arg1)
  have hdegree := degreeOf_of_first _ j _ r hj hr hlow
  rw [hdraw] at hr hlow
  refine ⟨j, r, hj, hr, hlow, ?_⟩
  calc exec .sample s = .next (sampleRule s.prologue) := exec_admitted rfl (sample_admitted s)
    _ = .next (s.completed (BitVec.ofNat 32 (sampleDegree s.build.degTable s.x0 s.arg1))) :=
      congrArg _ (sampleRule_samples (p := s.prologue) hk)
    _ = .next (s.completed (BitVec.ofNat 32 (min r.degree s.x0))) := by rw [sampleDegree, hdegree]

/-- Settles O34: the draw's degree is that of a row, which is at least 1; the rows of the default table have the degrees
listed, in order. -/
theorem sampleProperties : Obligations.SampleProperties := by
  intro b k rv rv' hk _
  obtain ⟨r, hr, hdegree, hpos⟩ := degreeOf_eq_row b rv
  refine ⟨?_, Nat.min_le_right _ _, ?_, fun hdefault => ⟨fun hle => ?_, ?_⟩⟩
  · rw [sampleDegree, hdegree]
    omega
  · rw [sampleDegree, sampleDegree, drawOf_ofNat_mod, drawOf_eq]
  · have hsorted : b.degTable.Pairwise fun r q => r.degree ≤ q.degree := by
      rw [hdefault]
      decide
    rw [← drawOf_eq, ← drawOf_eq] at hle
    exact min_le_min_right k (degreeOf_mono b hsorted hle (drawOf_lt rv'))
  · have hlisted : ∀ r ∈ Config.params.degTable, r.degree ∈ [1, 2, 3, 4, 10, 11, 40] := by decide
    have hmin := List.mem_map_of_mem (f := (min · k)) (hlisted r (hdefault ▸ hr))
    rw [sampleDegree, hdegree]
    simpa [show min 1 k = 1 by omega, show min 2 k = 2 by omega, show min 3 k = 3 by omega, show min 4 k = 4 by omega]
      using hmin

/-! ### ENCODE of an equation (41_sampler.md R85, R87; 42_combiner.md R94) -/

/-- In R `ENCODE` runs its rule, whatever the generator. -/
theorem command_encode (gen : IdxGen) {s : State} (hp : s.phase = .recovered) :
    command .encode (encodeRule gen) s = .next (encodeRule gen s.prologue) :=
  command_admitted _ ((admission_ne_illegal_iff .encode s.phase).2 hp)

/-- Settles O40: in R the rule runs, and its two branches are those of the answer's validity. -/
theorem encodeCombinesGeneratedIndices : Obligations.EncodeCombinesGeneratedIndices := by
  refine ⟨fun s => rfl, fun gen s hp hk hb => ⟨fun hv => ?_, fun hv => ?_⟩⟩
  · rw [command_encode gen hp, encodeRule_valid (p := s.prologue) hb hk ((answerValid_iff _ _).2 hv)]
    rfl
  · rw [← answerValid_iff, Bool.not_eq_true] at hv
    rw [command_encode gen hp, encodeRule_invalid (p := s.prologue) hb hk hv, raise_invalidParameters]

/-- The two forms of an equation (41_sampler.md R87). -/
theorem eqRow_cases {gen : IdxGen} {k l esi : Nat} {b : RowBits} (h : eqRow gen k l esi = some b) :
    (esi < k ∧ b = unitRow esi) ∨
      (k ≤ esi ∧ answerValid l (gen k l esi) = true ∧ b = RowBits.ofColumns (gen k l esi).indices) := by
  by_cases hk : esi < k
  · rw [eqRow_systematic hk] at h
    exact .inl ⟨hk, (Option.some.inj h).symm⟩
  · have hk := Nat.not_lt.1 hk
    cases hv : answerValid l (gen k l esi) with
    | false => simp [(eqRow_eq_none_iff gen k l esi).2 ⟨hk, hv⟩] at h
    | true =>
      rw [eqRow_valid hk hv] at h
      exact .inr ⟨hk, rfl, (Option.some.inj h).symm⟩

theorem State.Inv.l_le_lCap {s : State} (h : s.Inv) (hp : s.phase ≠ .unconfigured) : s.l ≤ Config.lCap := by
  obtain ⟨-, -, -, hl, -⟩ := h.parameters hp
  exact hl.trans s.build.lMax_le

/-- Settles O41: the XOR over the columns of a unit row is the symbol of its column, and over the columns of a valid
answer's row, which are different and within the row's width, that of the symbols at the answer's indices. -/
theorem encodeFollowsEquation : Obligations.EncodeFollowsEquation := by
  intro gen s t b h hp hb heq ht
  have hconfigured : s.phase ≠ .unconfigured := by simp [hp]
  have hcap := h.l_le_lCap hconfigured
  rw [command_encode gen hp] at ht
  obtain ⟨hk, rfl⟩ | ⟨hk, hv, rfl⟩ := eqRow_cases heq
  · obtain ⟨-, -, hkl, -⟩ := h.parameters hconfigured
    rw [encodeRule_systematic (p := s.prologue) hb hk] at ht
    cases ht
    exact ⟨rfl, (combination_unitRow s.x0 (solAt s.pivot) (by omega)).symm⟩
  · obtain ⟨-, -, -, hlt, hnodup⟩ := (answerValid_iff _ _).1 hv
    rw [encodeRule_valid (p := s.prologue) hb hk hv] at ht
    cases ht
    exact ⟨rfl, (combination_ofColumns _ _ hnodup fun c hc => (hlt c hc).trans_le hcap).symm⟩

/-! ### INSESI of an equation (41_sampler.md R87, 43_solver.md R104) -/

/-- Outside U `INSESI` runs its rule, whatever the generator. -/
theorem command_insesi (gen : IdxGen) {s : State} (hp : s.phase ≠ .unconfigured) :
    command .insesi (insesiRule gen) s = .next (insesiRule gen s.prologue) :=
  command_admitted _ ((admission_ne_illegal_iff .insesi s.phase).2 hp)

/-- `INSESI` of a new `esi` in C that has an equation marks it and inserts the equation with the payload. -/
theorem command_insesi_inserts {gen : IdxGen} {s : State} {b : RowBits} (hb : s.x0 < s.build.esiBound) (hlen : s.x1 = s.t)
    (hp : s.phase = .collecting) (hs : s.x0 ∉ s.seen) (heq : eqRow gen s.k s.l s.x0 = some b) :
    command .insesi (insesiRule gen) s =
      .next ((s.prologue.markSeen s.x0).tryInsert ⟨b, s.dinSymbol⟩).recoverAtFullRank.resultRank :=
  (command_insesi gen (by simp [hp])).trans (congrArg _ (insesiRule_inserts (p := s.prologue) hb hlen hp hs heq))

/-- The equation is absorbed and `RANK` stays below `L`: the new pivot is stored, and nothing is solved. -/
theorem command_insesi_absorbed {gen : IdxGen} {s : State} {b : RowBits} {c : Nat} {r : Row}
    (hb : s.x0 < s.build.esiBound) (hlen : s.x1 = s.t) (hp : s.phase = .collecting) (hs : s.x0 ∉ s.seen)
    (heq : eqRow gen s.k s.l s.x0 = some b) (hi : insertLoop s.pivot s.l ⟨b, s.dinSymbol⟩ = some (c, r))
    (hr : s.rank + 1 ≠ s.lreg) :
    command .insesi (insesiRule gen) s = .next
      { s.completed ((s.rank + 1).setWidth 32) with
        absorbed := true, pivot := setPivot s.pivot c r, rank := s.rank + 1, seen := addSeen s.x0 s.seen } := by
  rw [command_insesi_inserts hb hlen hp hs heq, tryInsert_absorbed (s := s.prologue.markSeen s.x0) hi,
    recoverAtFullRank_short]
  · rfl
  · exact hr

/-- The equation is discarded and `RANK` is below `L`: only `SEEN` and the report change. -/
theorem command_insesi_discarded {gen : IdxGen} {s : State} {b : RowBits} (hb : s.x0 < s.build.esiBound)
    (hlen : s.x1 = s.t) (hp : s.phase = .collecting) (hs : s.x0 ∉ s.seen) (heq : eqRow gen s.k s.l s.x0 = some b)
    (hi : insertLoop s.pivot s.l ⟨b, s.dinSymbol⟩ = none) (hr : s.rank ≠ s.lreg) :
    command .insesi (insesiRule gen) s =
      .next { s.completed (s.rank.setWidth 32) with seen := addSeen s.x0 s.seen } := by
  rw [command_insesi_inserts hb hlen hp hs heq, tryInsert_discarded (s := s.prologue.markSeen s.x0) hi,
    recoverAtFullRank_short]
  · rfl
  · exact hr

/-- Settles O45: rejected by the frame in U; outside U the rule's checks in their order, and the equation of an `esi`
below `K` is its unit row, whatever the generator. -/
theorem insesiTakesSystematicSymbol : Obligations.InsesiTakesSystematicSymbol := by
  refine ⟨mem_addSeen, fun s => ⟨fun hp => exec_illegal hp rfl, fun hu => ⟨fun ho => ?_, fun ⟨hb, hlen⟩ => ⟨fun hp => ?_,
    fun hp => ⟨fun hs => ?_, fun hs hk => ⟨fun c r => ?_, ?_⟩⟩⟩⟩⟩⟩
  · exact exec_invalid rfl ((admission_ne_illegal_iff .insesi s.phase).2 hu) (ho.imp_right .inl)
  · exact (command_insesi _ hu).trans (congrArg _ (insesiRule_ignored (p := s.prologue) hb hlen hp))
  · exact (command_insesi _ hu).trans (congrArg _ (insesiRule_duplicate (p := s.prologue) hb hlen hp hs))
  · exact command_insesi_absorbed hb hlen hp hs (eqRow_systematic hk)
  · exact command_insesi_discarded hb hlen hp hs (eqRow_systematic hk)

end Sys2Proof.Machine
end

section
/-! SUPPORT. The combiner (42_combiner.md R90 to R96): each of its commands as an equation between whole states, what
`CMBSYM` over a list adds to `ACC`, and what `ENCODE` reads. -/

namespace Sys2Proof.Machine

open Sys2Proof

/-! ### CMBCLR and CMBDIN (42_combiner.md R90, R91) -/

theorem exec_cmbclr {s : State} (hp : s.phase ≠ .unconfigured) : exec .cmbclr s = .next { s.completed 0 with acc := 0 } :=
  exec_admitted rfl ((admission_ne_illegal_iff .cmbclr s.phase).2 hp)

theorem exec_cmbdin {s : State} (hp : s.phase ≠ .unconfigured) (hlen : s.x1 = s.t) :
    exec .cmbdin s = .next { s.completed 0 with acc := s.acc ^^^ s.dinSymbol } :=
  (exec_admitted rfl ((admission_ne_illegal_iff .cmbdin s.phase).2 hp)).trans
    (congrArg _ (cmbdinRule_mixes (p := s.prologue) hlen))

/-- Settles O35: rejected by the frame in U; elsewhere the rule follows the prologue. -/
theorem cmbclrClearsAcc : Obligations.CmbclrClearsAcc :=
  ⟨rfl, fun _ => ⟨fun hp => exec_illegal hp rfl, exec_cmbclr⟩⟩

/-- Settles O36: `CMBDIN` leaves `DIN`, `T` and the length, so a second one mixes in the same symbol, and the XOR of a
symbol with itself is zero. -/
theorem cmbdinMixesDin : Obligations.CmbdinMixesDin := by
  refine ⟨rfl, fun s => ⟨fun hp => exec_illegal hp rfl, fun hp => ⟨fun hlen => ?_, fun hlen => ?_⟩⟩⟩
  · exact exec_invalid rfl ((admission_ne_illegal_iff .cmbdin s.phase).2 hp) hlen
  · refine ⟨_, _, exec_cmbdin hp hlen, rfl, exec_cmbdin hp hlen, ?_⟩
    calc (s.acc ^^^ s.dinSymbol) ^^^ s.dinSymbol = s.acc ^^^ (s.dinSymbol ^^^ s.dinSymbol) := BitVec.xor_assoc _ _ _
      _ = s.acc := by rw [BitVec.xor_self, BitVec.xor_zero]

/-! ### CMBSYM and LDSOL (42_combiner.md R92, R93) -/

/-- A command that the admission table does not admit in the state only reports it. -/
theorem exec_unadmitted {i : Instr} {s : State} (h : ¬ admission i s.phase ≠ .illegal) :
    exec i s = .next (s.rejected 4) :=
  exec_illegal rfl (not_not.1 h)

theorem exec_cmbsym {s : State} (hp : s.phase = .recovered) (hidx : s.x0 < s.l) :
    exec .cmbsym s = .next { s.completed 0 with acc := s.acc ^^^ solAt s.pivot s.x0 } :=
  (exec_admitted (i := .cmbsym) hp nofun).trans (congrArg _ (cmbsymRule_mixes (p := s.prologue) hidx))

/-- Settles O37: rejected by the frame outside R; in R the two branches of the rule are those of the statement. -/
theorem cmbsymMixesSolution : Obligations.CmbsymMixesSolution :=
  ⟨rfl, fun s => ⟨fun hp => exec_unadmitted ((admission_ne_illegal_iff .cmbsym s.phase).not.2 hp),
    fun hp => ⟨exec_invalid (i := .cmbsym) hp nofun, exec_cmbsym hp⟩⟩⟩

/-- Settles O38: rejected by the frame outside R; in R the two branches of the rule are those of the statement. -/
theorem ldsolLoadsSolution : Obligations.LdsolLoadsSolution :=
  ⟨rfl, fun s => ⟨fun hp => exec_unadmitted ((admission_ne_illegal_iff .ldsol s.phase).not.2 hp),
    fun hp => ⟨exec_invalid (i := .ldsol) hp nofun,
      fun hidx => (exec_admitted (i := .ldsol) hp nofun).trans (congrArg _ (ldsolRule_loads (p := s.prologue) hidx))⟩⟩⟩

/-! ### ENCODE (42_combiner.md R94, R95) -/

/-- Settles O39: rejected by the frame outside R; in R the bound is checked first, and the first branch asks no
generator. -/
theorem encodeIsSystematic : Obligations.EncodeIsSystematic := by
  refine fun s => ⟨fun hp => exec_unadmitted ((admission_ne_illegal_iff .encode s.phase).not.2 hp),
    fun hp => ⟨fun hbound => exec_invalid (i := .encode) hp nofun (.inl hbound), fun hbound hk => ?_⟩⟩
  exact (exec_admitted (i := .encode) hp nofun).trans (congrArg _ (encodeRule_systematic (p := s.prologue) hbound hk))

/-- Settles O42: both instances take the same branch, and it reads solved symbols below `L` alone: that at `esi`, which
is below `K`, or those at the indices of a valid answer. -/
theorem encodeDependsOnlyOnSolution : Obligations.EncodeDependsOnlyOnSolution := by
  intro gen s s' t t' hp hp' hesi hkreg hlreg hkl hsol harg ht ht'
  rw [command_encode gen hp] at ht
  rw [command_encode gen hp'] at ht'
  cases ht
  cases ht'
  have hk : s.k = s'.k := congrArg BitVec.toNat hkreg
  have hl : s.l = s'.l := congrArg BitVec.toNat hlreg
  have hx : s.x0 = s'.x0 := congrArg BitVec.toNat harg
  by_cases hbound : s.build.esiBound ≤ s.x0
  · rw [encodeRule_bound (p := s.prologue) hbound, encodeRule_bound (p := s'.prologue) (hesi ▸ hx ▸ hbound)]
    exact ⟨rfl, rfl, nofun⟩
  have hbound := Nat.not_le.1 hbound
  have hbound' : s'.x0 < s'.build.esiBound := hesi ▸ hx ▸ hbound
  by_cases hlt : s.x0 < s.k
  · rw [encodeRule_systematic (p := s.prologue) hbound hlt,
      encodeRule_systematic (p := s'.prologue) hbound' (hk ▸ hx ▸ hlt)]
    exact ⟨rfl, rfl, fun _ => (hsol s.x0 (hlt.trans_le hkl)).trans (congrArg _ hx)⟩
  have hle := Nat.not_lt.1 hlt
  have hle' : s'.k ≤ s'.x0 := hk ▸ hx ▸ hle
  have hanswer : gen s.k s.l s.x0 = gen s'.k s'.l s'.x0 := by rw [hk, hl, hx]
  cases hv : answerValid s.l (gen s.k s.l s.x0) with
  | false =>
    rw [encodeRule_invalid (p := s.prologue) hbound hle hv,
      encodeRule_invalid (p := s'.prologue) hbound' hle' (hanswer ▸ hl ▸ hv)]
    exact ⟨rfl, rfl, nofun⟩
  | true =>
    obtain ⟨-, -, -, hindices, -⟩ := (answerValid_iff _ _).1 hv
    rw [encodeRule_valid (p := s.prologue) hbound hle hv,
      encodeRule_valid (p := s'.prologue) hbound' hle' (hanswer ▸ hl ▸ hv)]
    refine ⟨congrArg (fun a : IdxAnswer => BitVec.ofNat 32 a.degree) hanswer, rfl, fun _ => ?_⟩
    exact (xorOver_congr fun c hc => hsol c (hindices c hc)).trans
      (congrArg (fun a : IdxAnswer => xorOver _ a.indices) hanswer)

/-! ### CMBSYM over a list (42_combiner.md R96) -/

/-- One `CMBSYM` of a list, whose index an operand register holds, since `L` has fewer bits. -/
theorem mixSymbols_cons {s : State} {c : Nat} (columns : List Nat) (hp : s.phase = .recovered) (hc : c < s.l) :
    mixSymbols (c :: columns) s = mixSymbols columns
      { s.completed 0 with arg0 := BitVec.ofNat 32 c, acc := s.acc ^^^ solAt s.pivot c } := by
  have hx : (BitVec.ofNat 32 c).toNat = c := by
    have : s.l < 2 ^ 12 := s.lreg.isLt
    exact Nat.mod_eq_of_lt (by omega)
  have hexec := exec_cmbsym (s := { s with arg0 := BitVec.ofNat 32 c }) hp (hx.trans_lt hc)
  rw [mixSymbols, hexec]
  simp only [State.x0, hx]
  rfl

theorem mixSymbols_acc {columns : List Nat} {s : State} (hp : s.phase = .recovered) (hc : ∀ c ∈ columns, c < s.l) :
    ∃ u, mixSymbols columns s = some u ∧ u.acc = s.acc ^^^ xorOver (solAt s.pivot) columns := by
  induction columns generalizing s with
  | nil => exact ⟨s, rfl, by simp⟩
  | cons c columns ih =>
    obtain ⟨hhead, htail⟩ := List.forall_mem_cons.1 hc
    rw [mixSymbols_cons columns hp hhead, xorOver_cons, ← BitVec.xor_assoc]
    exact ih (s := { s.completed 0 with arg0 := BitVec.ofNat 32 c, acc := s.acc ^^^ solAt s.pivot c }) hp htail

/-- Settles O43: `CMBCLR` leaves zero, to which the solved symbols are added in some order of the list; a valid answer
makes `ENCODE` add those at the answer's indices. -/
theorem streamingMatchesEncode : Obligations.StreamingMatchesEncode := by
  intro gen s columns columns' hp hcolumns hperm
  have hclear := exec_cmbclr (s := s) (by simp [hp])
  obtain ⟨u, hu, hacc⟩ := mixSymbols_acc (s := { s.completed 0 with acc := 0 }) hp
    fun c hc => hcolumns c (hperm.subset hc)
  have hacc : u.acc = xorOver (solAt s.pivot) columns := by rw [hacc, ← xorOver_perm _ hperm]; exact BitVec.zero_xor
  refine ⟨_, u, hclear, hu, hacc, fun v hk hbound hlist hv henc => ?_⟩
  rw [command_encode gen hp, encodeRule_valid (p := s.prologue) hbound hk hv] at henc
  cases henc
  rw [hacc, hlist]
  rfl

end Sys2Proof.Machine
end

section
/-! SUPPORT. The loop of `TryInsert` (43_solver.md R100, R101): it unfolds as the pseudocode has it, and it discards the
rows of the span and no others. -/

namespace Sys2Proof.Machine

open Sys2Proof

/-- A row over a column that has one goes on as their sum, with all the passes it had (43_solver.md R101). -/
theorem insertLoop_xor {l : Nat} {p : Pivots} (he : Echelon l p) {r q : Row} {c : Nat} (hc : r.bits.getLsbD c = true)
    (hlow : ∀ j, j < c → r.bits.getLsbD j = false) (hl : ∀ j, l ≤ j → r.bits.getLsbD j = false)
    (hq : pivotAt p c = some q) : insertLoop p l r = insertLoop p l (r.xor q) := by
  obtain ⟨hcl, -⟩ := he c q hq
  obtain ⟨n, rfl⟩ := Nat.exists_eq_add_one_of_ne_zero (Nat.ne_zero_of_lt hcl)
  obtain ⟨hlow', hl'⟩ := xor_pivot_bits he hq hc hlow hl
  rw [insertLoop_hit n ((lowestColumn_eq_some _ _).2 ⟨hc, hlow⟩) hq]
  exact insertLoop_passes he n (n + 1) (c + 1) _ hlow' hl' (by omega) (by omega)

/-- Settles O48: an empty row ends the loop, and a row with a bit below `L` has a pass to take. -/
theorem insertionLoopUnfolds : Obligations.InsertionLoopUnfolds := by
  intro s r h hl
  refine ⟨insertLoop_empty s.pivot s.l, fun c hc hlow => ⟨fun q => insertLoop_xor h.echelon hc hlow hl, fun hfree => ?_⟩⟩
  have hcl : c < s.l := by
    by_contra hge
    simp [hl c (Nat.not_lt.1 hge)] at hc
  obtain ⟨n, hn⟩ := Nat.exists_eq_add_one_of_ne_zero (Nat.ne_zero_of_lt hcl)
  rw [hn]
  exact insertLoop_free n ((lowestColumn_eq_some _ _).2 ⟨hc, hlow⟩) hfree

/-- Settles O49: what the loop adds to a row is of the span; a row it ends with in case (b) has its lowest bit at a free
column, which no vector of the span has. -/
theorem insertionDecidesSpan : Obligations.InsertionDecidesSpan := by
  intro s r h hl
  have hspec := insertLoop_spec h.echelon (fun _ => True) (fun _ _ _ => trivial) (fun _ _ _ _ => trivial) s.l 0 r
    (by omega) hl (by omega) trivial
  refine ⟨hspec.1, fun hr => ?_⟩
  cases hi : insertLoop s.pivot s.l r with
  | none => rfl
  | some cq =>
    obtain ⟨c, q⟩ := cq
    obtain ⟨-, -, -, hfree, hc, hzero, hspan, -⟩ := hspec.2 c q hi
    have hvalid := (hspan.congr_xor.2 hr).lowest_valid h.echelon hc fun j hj => hzero j (.inl hj)
    simp [hfree] at hvalid

end Sys2Proof.Machine
end

section
/-! SUPPORT. The solver's commands (43_solver.md R103 to R105, R107): each as an equation between whole states, and what a
second insertion of the same row or `esi` comes to. -/

namespace Sys2Proof.Machine

open Sys2Proof

/-! ### INSROW (43_solver.md R103) -/

/-- Outside U `INSROW` runs its rule. -/
theorem exec_insrow {s : State} (hp : s.phase ≠ .unconfigured) : exec .insrow s = .next (insrowRule s.prologue) :=
  exec_admitted rfl ((admission_ne_illegal_iff .insrow s.phase).2 hp)

/-- The step to S at full rank, as one update of `STATE`. -/
theorem solvableAtFullRank_eq {s : State} (hp : s.phase = .collecting) :
    s.solvableAtFullRank = { s with phase := if s.rank = s.lreg then .solvable else .collecting } := by
  by_cases hr : s.rank = s.lreg
  · rw [solvableAtFullRank_full hr, if_pos hr]
  · rw [solvableAtFullRank_short hr, if_neg hr, ← hp]

/-- `INSROW` of a valid row in C inserts it, and full rank leads to S. -/
theorem exec_insrow_inserts {s u : State} (hlen : s.x1 = s.t) (hl : ∀ j, s.l ≤ j → s.rowbufRow.getLsbD j = false)
    (hp : s.phase = .collecting) (hu : s.prologue.tryInsert ⟨s.rowbufRow, s.dinSymbol⟩ = u) :
    exec .insrow s = .next ({ u with phase := if u.rank = u.lreg then .solvable else .collecting } : State).resultRank := by
  subst hu
  rw [← solvableAtFullRank_eq ((State.tryInsert_phase s.prologue _).trans hp)]
  exact (exec_insrow (by simp [hp])).trans
    (congrArg _ (insrowRule_inserts (p := s.prologue) hlen ((below_iff s.rowbufRow s.l).2 hl) hp))

/-- Settles O44: rejected by the frame in U; outside U the rule's checks, and in C the two ends of the loop. -/
theorem insrowInsertsRow : Obligations.InsrowInsertsRow := by
  refine ⟨rfl, fun s => ⟨fun hp => exec_illegal hp rfl, fun hu => ⟨fun ho => ?_, fun ⟨hlen, hl⟩ => ⟨fun hp => ?_,
    fun hp => ⟨fun c r hi => ?_, fun hi => ?_⟩⟩⟩⟩⟩
  · exact exec_invalid rfl ((admission_ne_illegal_iff .insrow s.phase).2 hu)
      (ho.imp_right (below_eq_false_iff s.rowbufRow s.l).2)
  · exact (exec_insrow hu).trans
      (congrArg _ (insrowRule_ignored (p := s.prologue) hlen ((below_iff s.rowbufRow s.l).2 hl) hp))
  · exact exec_insrow_inserts hlen hl hp (tryInsert_absorbed (s := s.prologue) hi)
  · exact exec_insrow_inserts hlen hl hp (tryInsert_discarded (s := s.prologue) hi)

/-! ### INSESI (43_solver.md R104) -/

/-- Settles O46: the rule's branches for a new `esi` in C; at full rank the insertion goes on with `BackSub`. -/
theorem insesiInsertsEquation : Obligations.InsesiInsertsEquation := by
  refine ⟨fun s => rfl, fun gen s hp hb hlen hs hr => ⟨fun heq => ?_, fun b heq => ⟨fun hi => ?_,
    fun c r hi => ⟨command_insesi_absorbed hb hlen hp hs heq hi, fun hfull => ?_⟩⟩⟩⟩
  · rw [command_insesi gen (by simp [hp]), insesiRule_invalid (p := s.prologue) hb hlen hp hs heq,
      raise_invalidParameters]
  · exact command_insesi_discarded hb hlen hp hs heq hi hr
  · rw [command_insesi_inserts hb hlen hp hs heq, tryInsert_absorbed (s := s.prologue.markSeen s.x0) hi,
      recoverAtFullRank_full]
    · rfl
    · exact hfull

/-! ### BACKSUB (43_solver.md R105) -/

/-- Settles O47: rejected by the frame in U, C and A; in S and R the two branches of the rule. -/
theorem backsubRecovers : Obligations.BacksubRecovers := by
  refine ⟨rfl, fun s => ⟨fun hp => ?_, fun hp => ?_, ?_⟩⟩
  · refine ⟨s.prologue.backSubstitute.resultRank, ?_, rfl, fun c => ?_⟩
    · exact (exec_admitted (i := .backsub) hp nofun).trans (congrArg _ (backsubRule_solvable (p := s.prologue) hp))
    · rw [State.resultRank_recFlags, State.backSubstitute_recFlags, BitVec.getLsbD_or, getLsbD_columnsBelow]
      rfl
  · exact (exec_admitted (i := .backsub) hp nofun).trans
      (congrArg _ (backsubRule_ignored (p := s.prologue) (by simp [hp])))
  · rintro (hp | hp | hp) <;> exact exec_illegal hp rfl

/-! ### Duplicates (43_solver.md R107) -/

/-- After its insertion a row is in the span, whether it was absorbed or discarded. -/
theorem inSpan_tryInsert {s : State} (h : s.Inv) {r : Row} (hl : ∀ j, s.l ≤ j → r.bits.getLsbD j = false) :
    InSpan (s.tryInsert r).pivot r.bits := by
  cases hi : insertLoop s.pivot s.l r with
  | none =>
    rw [tryInsert_discarded hi]
    exact (insertionDecidesSpan s r h hl).1 hi
  | some cq =>
    obtain ⟨c, q⟩ := cq
    rw [tryInsert_absorbed hi]
    refine (insertionExtendsSpan s r q c h hl hi r.bits).2 (.inr ?_)
    rw [BitVec.xor_self]
    exact InSpan.zero s.pivot

/-- An `INSROW` that raised nothing and left the system unsolved found a valid row in C, which is in the span now. -/
theorem insrow_left_collecting {s t : State} (h : s.Inv) (herr : t.err = 0) (hp : t.phase = .collecting)
    (he : exec .insrow s = .next t) : t.x1 = t.t ∧ (∀ j, t.l ≤ j → t.rowbufRow.getLsbD j = false) ∧
      InSpan t.pivot t.rowbufRow := by
  obtain ⟨-, rfl⟩ | ⟨-, -, rfl⟩ | ⟨-, hvalid, hend⟩ := exec_inversion he
  · cases herr
  · cases herr
  · simp only [operandsInvalid, not_or, not_not, Bool.not_eq_false, below_iff] at hvalid
    obtain ⟨hlen, hl⟩ := hvalid
    obtain ⟨hc, rfl⟩ | ⟨-, rfl⟩ := hend
    · exact absurd hp hc
    · have hspan := inSpan_tryInsert h.prologue (r := ⟨s.rowbufRow, s.dinSymbol⟩) hl
      obtain ⟨a, p, k, hw, -⟩ := tryInsert_writes s.prologue ⟨s.rowbufRow, s.dinSymbol⟩
      obtain ⟨ph, hw'⟩ := solvableAtFullRank_writes (s.prologue.tryInsert ⟨s.rowbufRow, s.dinSymbol⟩)
      rw [hw', hw]
      rw [hw] at hspan
      exact ⟨hlen, hl, hspan⟩

/-- An `INSESI` that raised nothing and left the system unsolved found a valid `esi` in C, which is marked now. -/
theorem insesi_left_collecting {s t : State} (herr : t.err = 0) (hp : t.phase = .collecting)
    (he : exec .insesi s = .next t) : t.x0 < t.build.esiBound ∧ t.x1 = t.t ∧ t.x0 ∈ t.seen := by
  obtain ⟨-, rfl⟩ | ⟨-, -, rfl⟩ | ⟨-, hvalid, hend⟩ := exec_inversion he
  · cases herr
  · cases herr
  · simp only [operandsInvalid, not_or, not_not, Nat.not_le] at hvalid
    obtain ⟨hesi, hlen, -⟩ := hvalid
    obtain ⟨hc, rfl⟩ | ⟨-, hs, rfl⟩ | ⟨-, -, b, -, rfl⟩ := hend
    · exact absurd hp hc
    · exact ⟨hesi, hlen, hs⟩
    · obtain ⟨a, p, k, ph, f, hw, -⟩ := insesi_writes (s.prologue.markSeen s.x0) ⟨b, s.dinSymbol⟩
      rw [hw]
      exact ⟨hesi, hlen, (mem_addSeen _ _ _).2 (.inl rfl)⟩

/-- Settles O54: a row of the span is discarded and leaves `RANK` below `L`; a marked `esi` is a duplicate. -/
theorem duplicatesChangeNothing : Obligations.DuplicatesChangeNothing := by
  intro s t h herr hp
  have hu : t.phase ≠ .unconfigured := by simp [hp]
  refine ⟨fun he => ?_, fun he => ?_⟩
  · obtain ⟨hlen, hl, hspan⟩ := insrow_left_collecting h herr hp he
    have ht := exec_inv h he
    have hdiscard := (insertionDecidesSpan t ⟨t.rowbufRow, t.dinSymbol⟩ ht hl).2 hspan
    have hshort : t.rank ≠ t.lreg := fun hfull => (ht.rank_lt hp).ne ((rank_eq_lreg_iff t).1 hfull)
    obtain ⟨-, hvalid⟩ := (insrowInsertsRow.2 t).2 hu
    obtain ⟨-, hcollecting⟩ := hvalid ⟨hlen, hl⟩
    obtain ⟨-, hexec⟩ := hcollecting hp
    rw [hexec hdiscard, if_neg hshort, ← hp]
    rfl
  · obtain ⟨hesi, hlen, hs⟩ := insesi_left_collecting herr hp he
    exact (command_insesi _ hu).trans (congrArg _ (insesiRule_duplicate (p := t.prologue) hesi hlen hp hs))

end Sys2Proof.Machine
end

section
/-! SUPPORT. Consistency with an assignment of symbols (43_solver.md R108): every operation on the system keeps it, so a
run that offers consistent rows solves for the assignment, and what an `ENCODE` leaves is a consistent payload. -/

namespace Sys2Proof.Machine

open Sys2Proof

/-! ### What the insertion of a row keeps -/

theorem solvableAtFullRank_pivot (s : State) : s.solvableAtFullRank.pivot = s.pivot := by
  obtain ⟨ph, hw⟩ := solvableAtFullRank_writes s
  rw [hw]

theorem State.Unsolved.recoverAtFullRank_allConsistent {x : Nat → Symbol} {s : State} (h : s.Unsolved)
    (hx : AllConsistent x s.pivot) : AllConsistent x s.recoverAtFullRank.pivot := by
  by_cases hr : s.rank = s.lreg
  · obtain ⟨-, -, hback⟩ := h.system.backSub ((rank_eq_lreg_iff s).1 hr)
    rw [recoverAtFullRank_full hr]
    exact (hback x).2 hx
  · rwa [recoverAtFullRank_short hr]

theorem State.Unsolved.tryInsert_allConsistent {x : Nat → Symbol} {s : State} (h : s.Unsolved)
    (hx : AllConsistent x s.pivot) {r : Row} (hl : ∀ j, s.l ≤ j → r.bits.getLsbD j = false) (hr : Consistent x r) :
    AllConsistent x (s.tryInsert r).pivot := by
  cases hi : insertLoop s.pivot s.l r with
  | none => rwa [tryInsert_discarded hi]
  | some cq =>
    obtain ⟨c, q⟩ := cq
    rw [tryInsert_absorbed hi]
    exact allConsistent_absorb h.system hx hl hr hi

/-! ### One command and one step -/

/-- A command either releases the system, keeps it, inserts the row it offers or back-substitutes. -/
theorem exec_allConsistent {x : Nat → Symbol} {i : Instr} {s t : State} (h : s.Inv) (hx : AllConsistent x s.pivot)
    (ho : OffersConsistent x i s) (he : exec i s = .next t) : AllConsistent x t.pivot := by
  obtain ⟨-, rfl⟩ | ⟨-, -, rfl⟩ | ⟨-, hvalid, he⟩ := exec_inversion he
  · exact hx
  · exact hx
  · cases i with
    | nop | sample | cmbclr | cmbdin | cmbsym | ldsol => cases he; exact hx
    | cfg | sreset => cases he; exact allConsistent_empty x pivotAt_noPivots
    | abort =>
      obtain ⟨-, rfl⟩ | ⟨-, rfl⟩ := he
      · exact allConsistent_empty x pivotAt_noPivots
      · exact hx
    | endStream => obtain ⟨-, rfl⟩ | ⟨-, rfl⟩ := he <;> exact hx
    | encode =>
      obtain ⟨a, d, rfl, -⟩ := he
      exact hx
    | insrow =>
      simp only [operandsInvalid, not_or, not_not, Bool.not_eq_false] at hvalid
      obtain ⟨hlen, hbelow⟩ := hvalid
      obtain ⟨-, rfl⟩ | ⟨hc, rfl⟩ := he
      · exact hx
      · rw [State.resultRank_pivot, solvableAtFullRank_pivot]
        exact (h.prologue.unsolved (.inl hc)).tryInsert_allConsistent hx ((below_iff s.rowbufRow s.l).1 hbelow)
          (ho hc hlen hbelow)
    | insesi =>
      simp only [operandsInvalid, not_or, not_not, Nat.not_le] at hvalid
      obtain ⟨hesi, hlen, -⟩ := hvalid
      obtain ⟨-, rfl⟩ | ⟨-, -, rfl⟩ | ⟨hc, hs, b, hb, rfl⟩ := he
      · exact hx
      · exact hx
      · obtain ⟨-, -, hkl, -⟩ := h.parameters (by simp [hc])
        have hmark := h.prologue.unsolved_markSeen hc hesi
        have hbelow := eqRow_below hkl.le hb
        have hins := hmark.tryInsert (r := ⟨b, s.dinSymbol⟩) (h.rank_lt hc) ⟨rfl, rfl⟩ hbelow (fits_dinSymbol s)
        exact hins.recoverAtFullRank_allConsistent
          (hmark.tryInsert_allConsistent hx hbelow (ho hc hlen hesi hs b hb))
    | backsub =>
      obtain ⟨hp, rfl⟩ | ⟨-, rfl⟩ := he
      · obtain ⟨-, -, hback⟩ := h.system.backSub (h.rank_eq (.inl hp))
        exact (hback x).2 hx
      · exact hx

/-- Only a 32-bit access at the offset of `CMD` reaches it (20_memory.md R42, R45). -/
theorem accessedCell_eq_cmd {b : Build} {addr size : Nat} (h : accessedCell b addr size = some .cmd) :
    addr = cellOffset .cmd ∧ size = 4 := by
  obtain ⟨hsize, -, hcell⟩ := (accessedCell_eq_some _ _ _ _).1 h
  exact ⟨(wf_of_cellAt hcell).2.symm, hsize⟩

/-- Which row a command inserts does not depend on the host's side of the port. -/
theorem offersConsistent_host_side {x : Nat → Symbol} {i : Instr} {s : State} (pending : List HostEvent)
    (response : Option Response) (h : OffersConsistent x i s) : OffersConsistent x i { s with pending, response } := by
  cases i <;> exact h

/-- Settles O55: an event that is no command keeps the system or resets the block, and a command that offers no
inconsistent row keeps consistency whichever way it ends. -/
theorem consistencyIsKept : Obligations.ConsistencyIsKept := by
  intro x s t h hx hoffer hstep
  refine ⟨stepKeepsInvariant s t h hstep, ?_⟩
  obtain ⟨-, rfl⟩ | ⟨_, _, _, -, rfl⟩ | ⟨_, _, _, _, -, -, -, rfl⟩ | ⟨_, _, _, _, _, u, -, -, hu, rfl⟩ | ⟨_, -, rfl⟩ |
    ⟨addr, size, w, rest, hpending, hcell, hcmd⟩ := step_inversion hstep
  · exact hx
  · exact hx
  · exact hx
  · rw [storeCell_frame hu]
    exact hx
  · exact allConsistent_empty x pivotAt_noPivots
  · obtain ⟨i, hdecode, he⟩ | ⟨-, rfl⟩ := hcmd
    · obtain ⟨rfl, rfl⟩ := accessedCell_eq_cmd hcell
      have hs := h.host_written s.arg0 s.arg1 s.arg2 s.din s.rowbuf rest (some (.ofWrite .okay))
      exact exec_allConsistent hs hx (offersConsistent_host_side _ _ (hoffer w rest i hpending hdecode)) he
    · exact hx

/-! ### Solved symbols -/

/-- The value of a consistent unit row is the symbol the assignment has at its column. -/
theorem solAt_eq_of_consistent {x : Nat → Symbol} {p : Pivots} {c : Nat} (hx : AllConsistent x p)
    (hu : (pivotAt p c).map Row.bits = some (unitRow c)) : solAt p c = x c := by
  obtain ⟨r, hr, hbits⟩ := Option.map_eq_some_iff.1 hu
  calc solAt p c = r.val := by rw [solAt, hr]
    _ = combination r.bits x := hx c r hr
    _ = x c := by rw [hbits, combination_unitRow c x (lt_of_pivotAt hr)]

theorem State.Inv.unit_rows {s : State} (h : s.Inv) (hp : s.phase = .recovered) {c : Nat} (hc : c < s.l) :
    (pivotAt s.pivot c).map Row.bits = some (unitRow c) := by
  have hphase := h.phaseHolds
  rw [State.PhaseHolds, hp] at hphase
  exact (hphase.2 c hc).1

/-- Along a run that offers only consistent rows, the invariant and consistency are kept together. -/
theorem ConsistentRun.kept {x : Nat → Symbol} {s t : State} (hrun : ConsistentRun x s t) (h : s.Inv)
    (hx : AllConsistent x s.pivot) : t.Inv ∧ AllConsistent x t.pivot := by
  induction hrun with
  | refl => exact ⟨h, hx⟩
  | step _ hoffer hstep ih => exact consistencyIsKept x _ _ ih.1 ih.2 hoffer hstep

/-- Settles O56: the empty system is consistent with every assignment, the run keeps it so, and in R the rows are the unit
rows. -/
theorem recoveredSymbolsAreTheAssignment : Obligations.RecoveredSymbolsAreTheAssignment := by
  intro x s t h hrank hrun hp c hc
  obtain ⟨ht, hx⟩ := hrun.kept h (allConsistent_empty x (h.system.rank_eq_zero_iff.1 hrank))
  exact solAt_eq_of_consistent hx (ht.unit_rows hp hc)

/-- Settles O53: back-substitution leaves unit rows and the same consistent assignments, and of those rows the values
themselves are the one consistent assignment. -/
theorem backSubstitutionSolves : Obligations.BackSubstitutionSolves := by
  intro s h hr p
  obtain ⟨hsystem, hunit, hback⟩ := h.system.backSub hr
  have hrow : ∀ c, c < s.l → pivotAt p c = some ⟨unitRow c, solAt p c⟩ := by
    intro c hc
    obtain ⟨r, hat, hbits⟩ := Option.map_eq_some_iff.1 (hunit c hc)
    rw [solAt, hat, ← hbits]
  have hsolved : AllConsistent (solAt p) p := by
    intro c r hat
    obtain ⟨hc, -⟩ := hsystem.echelon c r hat
    obtain rfl : ⟨unitRow c, solAt p c⟩ = r := Option.some.inj ((hrow c hc).symm.trans hat)
    exact (combination_unitRow c (solAt p) (lt_of_pivotAt hat)).symm
  exact ⟨hrow, (hback _).1 hsolved, fun x hx c hc => solAt_eq_of_consistent ((hback x).2 hx) (hunit c hc)⟩

/-- Settles O58: `ACC` is the encoder's combination over the row, a symbol of `T` bytes, so the bytes in the decoder's
`DIN` are all of it. -/
theorem encodedSymbolIsConsistent : Obligations.EncodedSymbolIsConsistent := by
  intro gen e e' d b h hp hesi he _ hk hl ht harg hbytes heq
  simp only [State.k, State.l, State.x0, hk, hl, harg] at heq
  obtain ⟨-, hacc⟩ := encodeFollowsEquation gen e e' b h hp hesi heq he
  have hfits : Symbol.Fits e'.acc d.t := by
    rw [hacc, State.t, ht]
    exact fits_xorOver h.fits_solAt _
  exact (ofBytes_of_fits hfits hbytes).trans hacc

end Sys2Proof.Machine
end

section
/-! SUPPORT. Noninterference (43_solver.md R109): every operation of every command takes states that differ in the values of
symbols only to states that differ in those only. -/

namespace Sys2Proof.Machine

open Sys2Proof

/-! ### Systems whose rows have the same columns -/

/-- Two systems whose rows differ in their values only. -/
def SameColumns (p p' : Pivots) : Prop := ∀ c, (pivotAt p c).map Row.bits = (pivotAt p' c).map Row.bits

theorem setPivot_of_ge (p : Pivots) {c : Nat} (r : Row) (hc : Config.lCap ≤ c) : setPivot p c r = p :=
  Subtype.ext (List.set_eq_of_length_le (p.property.trans_le hc))

namespace SameColumns

variable {p p' : Pivots}

theorem refl (p : Pivots) : SameColumns p p := fun _ => rfl

/-- Entry by entry: both have no row at a column, or both have one, of the same columns. -/
theorem cases (h : SameColumns p p') (c : Nat) : (pivotAt p c = none ∧ pivotAt p' c = none) ∨
    ∃ q q', pivotAt p c = some q ∧ pivotAt p' c = some q' ∧ q.bits = q'.bits := by
  have hc := h c
  cases hp : pivotAt p c with
  | none =>
    rw [hp] at hc
    exact .inl ⟨rfl, Option.map_eq_none_iff.1 hc.symm⟩
  | some q =>
    rw [hp] at hc
    obtain ⟨q', hq', hbits⟩ := Option.map_eq_some_iff.1 hc.symm
    exact .inr ⟨q, q', rfl, hq', hbits.symm⟩

theorem setPivot (h : SameColumns p p') (c : Nat) {r r' : Row} (hr : r.bits = r'.bits) :
    SameColumns (setPivot p c r) (setPivot p' c r') := by
  by_cases hc : c < Config.lCap
  · intro d
    rw [pivotAt_setPivot p c d r hc, pivotAt_setPivot p' c d r' hc]
    split
    · exact congrArg some hr
    · exact h d
  · rwa [setPivot_of_ge p r (Nat.not_lt.1 hc), setPivot_of_ge p' r' (Nat.not_lt.1 hc)]

theorem xor_bits {r r' q q' : Row} (hr : r.bits = r'.bits) (hq : q.bits = q'.bits) :
    (r.xor q).bits = (r'.xor q').bits := by
  rw [Row.xor, Row.xor, hr, hq]

/-- The loop of `TryInsert` chooses its passes and its end by the columns alone. -/
theorem insertLoop (h : SameColumns p p') (n : Nat) {r r' : Row} (hr : r.bits = r'.bits) :
    (insertLoop p n r = none ∧ insertLoop p' n r' = none) ∨
      ∃ c q q', insertLoop p n r = some (c, q) ∧ insertLoop p' n r' = some (c, q') ∧ q.bits = q'.bits := by
  induction n generalizing r r' with
  | zero => exact .inl ⟨rfl, rfl⟩
  | succ n ih =>
    cases hc : lowestColumn r.bits with
    | none =>
      have hzero := (lowestColumn_eq_none r.bits).1 hc
      exact .inl ⟨insertLoop_empty p _ hzero, insertLoop_empty p' _ (hr ▸ hzero)⟩
    | some c =>
      obtain ⟨hp, hp'⟩ | ⟨q, q', hp, hp', hq⟩ := h.cases c
      · exact .inr ⟨c, r, r', insertLoop_free n hc hp, insertLoop_free n (hr ▸ hc) hp', hr⟩
      · rw [insertLoop_hit n hc hp, insertLoop_hit n (hr ▸ hc) hp']
        exact ih (xor_bits hr hq)

/-- The inner loop of `BackSub` chooses its additions by the columns alone. -/
theorem reduceRow (h : SameColumns p p') (js : List Nat) {r r' : Row} (hr : r.bits = r'.bits) :
    (reduceRow p js r).bits = (reduceRow p' js r').bits := by
  induction js generalizing r r' with
  | nil => exact hr
  | cons j js ih =>
    rw [Machine.reduceRow, Machine.reduceRow, ← hr]
    cases r.bits.getLsbD j with
    | false => exact ih hr
    | true =>
      obtain ⟨hp, hp'⟩ | ⟨q, q', hp, hp', hq⟩ := h.cases j
      · rw [hp, hp']
        exact ih hr
      · rw [hp, hp']
        exact ih (xor_bits hr hq)

theorem backSubLoop (h : SameColumns p p') (l n : Nat) : SameColumns (backSubLoop l n p) (backSubLoop l n p') := by
  induction n generalizing p p' with
  | zero => exact h
  | succ c ih =>
    rw [Machine.backSubLoop, Machine.backSubLoop]
    obtain ⟨hp, hp'⟩ | ⟨q, q', hp, hp', hq⟩ := h.cases c
    · rw [hp, hp']
      exact ih h
    · rw [hp, hp']
      exact ih (h.setPivot c (h.reduceRow _ hq))

end SameColumns

/-! ### The operations of the commands -/

/-- `ABORT` has an effect in C and S (40_control.md R71). -/
theorem abortRule_eq_ite (p : State) : abortRule p =
    if p.phase = .collecting ∨ p.phase = .solvable then { p.releaseSystem with phase := .aborted } else p.setIgnored := by
  cases hp : p.phase <;> simp [abortRule, hp]

/-- `END` raises in C (40_control.md R72). -/
theorem endRule_eq_ite (p : State) :
    endRule p = if p.phase = .collecting then p.raise .insufficientSymbols else p.setIgnored.resultRank := by
  split
  · next hp => exact endRule_collecting hp
  · next hp => exact endRule_ignored hp

/-- `BACKSUB` has an effect in S (43_solver.md R105). -/
theorem backsubRule_eq_ite (p : State) :
    backsubRule p = if p.phase = .solvable then p.backSubstitute.resultRank else p.setIgnored.resultRank := by
  split
  · next hp => exact backsubRule_solvable hp
  · next hp => exact backsubRule_ignored hp

namespace State.SameButValues

variable {s s' t t' : State}

/-- The second state is the first with other values. -/
theorem exists_values (h : s.SameButValues s') :
    ∃ din acc pivot, s' = { s with din, acc, pivot } ∧ SameColumns s.pivot pivot :=
  ⟨_, _, _, h⟩

/-- A choice by a condition that both states answer alike. -/
theorem ite {P : Prop} [Decidable P] (hs : s.SameButValues s') (ht : t.SameButValues t') :
    State.SameButValues (if P then s else t) (if P then s' else t') := by
  split
  · exact hs
  · exact ht

theorem prologue (h : s.SameButValues s') : s.prologue.SameButValues s'.prologue := by
  obtain ⟨d, a, q, rfl, hq⟩ := h.exists_values
  exact ⟨rfl, hq⟩

theorem resultRank (h : s.SameButValues s') : s.resultRank.SameButValues s'.resultRank := by
  obtain ⟨d, a, q, rfl, hq⟩ := h.exists_values
  exact ⟨rfl, hq⟩

theorem ignored (h : s.SameButValues s') : s.setIgnored.resultRank.SameButValues s'.setIgnored.resultRank := by
  obtain ⟨d, a, q, rfl, hq⟩ := h.exists_values
  exact ⟨rfl, hq⟩

theorem raise (h : s.SameButValues s') (c : Condition) : (s.raise c).SameButValues (s'.raise c) := by
  obtain ⟨d, a, q, rfl, hq⟩ := h.exists_values
  exact ⟨rfl, hq⟩

/-- `ACC` may become any symbol in each. -/
theorem setAcc (h : s.SameButValues s') (a a' : Symbol) : (s.setAcc a).SameButValues (s'.setAcc a') := by
  obtain ⟨d, a, q, rfl, hq⟩ := h.exists_values
  exact ⟨rfl, hq⟩

theorem backSubstitute (h : s.SameButValues s') : s.backSubstitute.SameButValues s'.backSubstitute := by
  obtain ⟨d, a, q, rfl, hq⟩ := h.exists_values
  exact ⟨rfl, hq.backSubLoop s.l s.l⟩

/-- `TryInsert` of rows that differ in their values only. -/
theorem tryInsert (h : s.SameButValues s') (b : RowBits) (v v' : Symbol) :
    (s.tryInsert ⟨b, v⟩).SameButValues (s'.tryInsert ⟨b, v'⟩) := by
  obtain ⟨d, a, q, rfl, hq⟩ := h.exists_values
  obtain ⟨hi, hi'⟩ | ⟨c, e, e', hi, hi', he⟩ := hq.insertLoop s.l (r := ⟨b, v⟩) (r' := ⟨b, v'⟩) rfl
  · rw [tryInsert_discarded hi, tryInsert_discarded (s := { s with din := d, acc := a, pivot := q }) hi']
    exact ⟨rfl, hq⟩
  · rw [tryInsert_absorbed hi, tryInsert_absorbed (s := { s with din := d, acc := a, pivot := q }) hi']
    exact ⟨rfl, hq.setPivot c he⟩

theorem solvableAtFullRank (h : s.SameButValues s') : s.solvableAtFullRank.SameButValues s'.solvableAtFullRank := by
  obtain ⟨d, a, q, rfl, hq⟩ := h.exists_values
  exact ite ⟨rfl, hq⟩ h

theorem recoverAtFullRank (h : s.SameButValues s') : s.recoverAtFullRank.SameButValues s'.recoverAtFullRank := by
  obtain ⟨d, a, q, rfl, hq⟩ := h.exists_values
  exact ite h.backSubstitute h

/-! ### One command -/

theorem insesiRule (h : s.SameButValues s') (gen : IdxGen) :
    (insesiRule gen s).SameButValues (insesiRule gen s') := by
  obtain ⟨d, a, q, rfl, hq⟩ := h.exists_values
  have hinvalid := h.raise .invalidParameters
  refine ite hinvalid (ite hinvalid (ite h.ignored (ite ⟨rfl, hq⟩ ?_)))
  simp only [State.k, State.l, State.x0]
  cases eqRow gen s.kreg.toNat s.lreg.toNat s.arg0.toNat with
  | none => exact hinvalid
  | some b =>
    have hmark (e : Nat) : (s.markSeen e).SameButValues (State.markSeen { s with din := d, acc := a, pivot := q } e) :=
      ⟨rfl, hq⟩
    exact ((hmark _).tryInsert b _ _).recoverAtFullRank.resultRank

/-- Every rule takes the same branch in both states, since none looks at a value. -/
theorem ruleOf (h : s.SameButValues s') (i : Instr) : (ruleOf i s).SameButValues (ruleOf i s') := by
  obtain ⟨d, a, q, rfl, hq⟩ := h.exists_values
  have hinvalid := h.raise .invalidParameters
  have hempty := SameColumns.refl noPivots
  cases i with
  | nop => exact h
  | cfg => exact ite hinvalid (ite hinvalid (ite hinvalid ⟨rfl, hempty⟩))
  | abort =>
    rw [Machine.ruleOf, abortRule_eq_ite, abortRule_eq_ite]
    exact ite ⟨rfl, hempty⟩ ⟨rfl, hq⟩
  | endStream =>
    rw [Machine.ruleOf, endRule_eq_ite, endRule_eq_ite]
    exact ite (h.raise _) h.ignored
  | sreset => exact ⟨rfl, hempty⟩
  | sample => exact ite hinvalid ⟨rfl, hq⟩
  | cmbclr => exact h.setAcc _ _
  | cmbdin | cmbsym | ldsol => exact ite hinvalid (h.setAcc _ _)
  | encode => exact ite hinvalid (ite ⟨rfl, hq⟩ (ite ⟨rfl, hq⟩ hinvalid))
  | insrow =>
    exact ite hinvalid (ite hinvalid (ite h.ignored (h.tryInsert _ _ _).solvableAtFullRank.resultRank))
  | insesi => exact h.insesiRule s.build.idxgen
  | backsub =>
    rw [Machine.ruleOf, backsubRule_eq_ite, backsubRule_eq_ite]
    exact ite h.backSubstitute.resultRank h.ignored

end State.SameButValues

/-- Settles O57: a command is admitted in both states or in neither, and a rule after the prologue, like the report of a
command not admitted, keeps two states the same but for the values. -/
theorem valuesDecideNothing : Obligations.ValuesDecideNothing := by
  intro i s s' t t' h ht ht'
  have hphase : s'.phase = s.phase := by rw [h.1]
  obtain ⟨ha, rfl⟩ | ⟨ha, rfl⟩ := exec_cases ht
  · obtain ⟨-, rfl⟩ | ⟨ha', -⟩ := exec_cases ht'
    · rw [← raise_illegalCommand, ← raise_illegalCommand]
      exact h.prologue.raise .illegalCommand
    · exact absurd (hphase ▸ ha) ha'
  · obtain ⟨ha', -⟩ | ⟨-, rfl⟩ := exec_cases ht'
    · exact absurd (hphase ▸ ha') ha
    · exact h.prologue.ruleOf i

end Sys2Proof.Machine
end

section
/-! SUPPORT. The conditions a command raises (60_exceptions.md R116 to R120) and when each of them is raised, the state
with the report of one, and the idle step (R127). -/

namespace Sys2Proof.Machine

open Sys2Proof

/-! ### Idling (60_exceptions.md R127) -/

/-- Settles O6: with nothing pending there is no next event to take. -/
theorem idleStepHoldsState : Obligations.IdleStepHoldsState := by
  intro s h
  rw [step, State.nextEvent, h]

/-! ### Which command raises what (60_exceptions.md R117 to R119) -/

@[simp] theorem State.tryInsert_err (s : State) (r : Row) : (s.tryInsert r).err = s.err := by
  obtain ⟨a, p, k, hw, -⟩ := tryInsert_writes s r
  rw [hw]

@[simp] theorem State.solvableAtFullRank_err (s : State) : s.solvableAtFullRank.err = s.err := by
  obtain ⟨ph, hw⟩ := solvableAtFullRank_writes s
  rw [hw]

@[simp] theorem State.recoverAtFullRank_err (s : State) : s.recoverAtFullRank.err = s.err := by
  obtain ⟨ph, p, f, hw⟩ := recoverAtFullRank_writes s
  rw [hw]

/-- Of the admitted commands with valid operands only `END` raises, and only in C. -/
theorem endStream_of_endsIn {i : Instr} {s t : State} (h : endsIn i s t) (herr : t.err ≠ 0) :
    i = .endStream ∧ s.phase = .collecting := by
  cases i with
  | nop | cfg | sreset | sample | cmbclr | cmbdin | cmbsym | ldsol => cases h; simp at herr
  | abort | backsub => obtain ⟨-, rfl⟩ | ⟨-, rfl⟩ := h <;> simp at herr
  | endStream =>
    obtain ⟨hp, -⟩ | ⟨-, rfl⟩ := h
    · exact ⟨rfl, hp⟩
    · simp at herr
  | encode =>
    obtain ⟨a, d, rfl, -⟩ := h
    simp at herr
  | insrow => obtain ⟨-, rfl⟩ | ⟨-, rfl⟩ := h <;> simp at herr
  | insesi => obtain ⟨-, rfl⟩ | ⟨-, -, rfl⟩ | ⟨-, -, b, -, rfl⟩ := h <;> simp at herr

/-- The three conditions, each with its cause and the whole state it leaves. -/
theorem exec_raises {i : Instr} {s t : State} (h : exec i s = .next t) (herr : t.err ≠ 0) :
    (admission i s.phase = .illegal ∧ t = s.rejected 4) ∨
    (admission i s.phase ≠ .illegal ∧ operandsInvalid i s ∧ t = s.rejected 1) ∨
    ((i = .endStream ∧ s.phase = .collecting) ∧
      t = { s.rejected 2 with einfo0 := s.rank.setWidth 32, einfo1 := s.lreg.setWidth 32 }) := by
  obtain hx | hinvalid | ⟨-, -, he⟩ := exec_inversion h
  · exact .inl hx
  · exact .inr (.inl hinvalid)
  · exact .inr (.inr ⟨endStream_of_endsIn he herr, (err_of_endsIn he).resolve_left herr⟩)

/-- `InsufficientSymbols` has one cause, and leaves the report with `RANK` and `L` (60_exceptions.md R119). -/
theorem insufficientSymbols_of_err {i : Instr} {s t : State} (h : exec i s = .next t) (herr : t.err = 2) :
    (i = .endStream ∧ s.phase = .collecting) ∧
      t = { s.rejected 2 with einfo0 := s.rank.setWidth 32, einfo1 := s.lreg.setWidth 32 } := by
  obtain ⟨-, rfl⟩ | ⟨-, -, rfl⟩ | hend := exec_raises h (by simp [herr])
  · simp at herr
  · simp at herr
  · exact hend

/-- `InvalidParameters` reports exactly the invalid operands of an admitted command (60_exceptions.md R117, R122). -/
theorem err_eq_one_iff {i : Instr} {s t : State} (h : exec i s = .next t) :
    t.err = 1 ↔ admission i s.phase ≠ .illegal ∧ operandsInvalid i s := by
  constructor
  · intro herr
    obtain ⟨-, rfl⟩ | ⟨ha, ho, -⟩ | ⟨-, rfl⟩ := exec_raises h (by simp [herr])
    · simp at herr
    · exact ⟨ha, ho⟩
    · simp at herr
  · rintro ⟨ha, ho⟩
    rw [exec_invalid rfl ha ho] at h
    cases h
    rfl

/-- Settles O22: each of the three states that a raise leaves is the one stated for its code. -/
theorem raiseChangesOnlyTheReport : Obligations.RaiseChangesOnlyTheReport := by
  intro i s t h herr
  obtain ⟨-, rfl⟩ | ⟨-, -, rfl⟩ | ⟨-, rfl⟩ := exec_raises h herr <;> rfl

/-- Settles O25: code 3 is none of the reported codes, and the report of code 2 is the one `END` leaves in C. -/
theorem sourcesOfInsufficientSymbols : Obligations.SourcesOfInsufficientSymbols := by
  intro i s t h
  refine ⟨?_, ⟨fun herr => (insufficientSymbols_of_err h herr).1, ?_⟩, fun herr => ?_⟩
  · obtain herr | ⟨herr | herr | herr, -⟩ := exec_report h <;> simp [herr]
  · rintro ⟨rfl, hp⟩
    rw [(endReportsInsufficientSymbols.2 s).1 hp] at h
    cases h
    rfl
  · obtain ⟨⟨-, hp⟩, rfl⟩ := insufficientSymbols_of_err h herr
    exact ⟨BitVec.toNat_setWidth_of_le (by decide), BitVec.toNat_setWidth_of_le (by decide), hp, rfl⟩

/-- Settles O26: the list is that of the commands with their admitting states and invalid operands. -/
theorem causesOfInvalidParameters : Obligations.CausesOfInvalidParameters := by
  intro i s t h
  rw [err_eq_one_iff h, admission_ne_illegal_iff]
  cases i with
  | nop | abort | endStream | sreset | cmbclr | backsub => simp [operandsInvalid]
  | cfg | sample | cmbdin | cmbsym | ldsol | encode | insesi => simp [operandsInvalid]
  | insrow => simp [operandsInvalid, below_eq_false_iff]

end Sys2Proof.Machine
end
